-- ==== Sys2Proof/Word.lean ====
section
/-! DEFINITION. The two value widths of the BLA-512 cipher core (spec/00_scope.md R13) and the byte-string shapes
its buffers have (R9, R14). Plain abbreviations, so that the library's lemmas about BitVec and Vector apply. -/

namespace Sys2Proof

/-- A byte, an unsigned integer 0..255 (R13). -/
abbrev Byte := BitVec 8

/-- A word, an unsigned 32-bit integer (R13); also the value one bus access moves (R53). -/
abbrev Word := BitVec 32

/-- A block, 64 bytes (R9 BLOCK_BYTES); also the width of the master key and of a SHA-512 digest. -/
abbrev Block := Vector Byte 64

/-- A half block, 32 bytes (R9 HALF_BYTES); also the width of a round key and of a tag. -/
abbrev Half := Vector Byte 32

end Sys2Proof
end

