-- ==== Sys2Proof/Syntax.lean ====
section
/-! DEFINITION. The command set of the core: one constructor per row of spec/opcode_table.json
(spec/30_encoding.md R73). A command carries no address, length or immediate (R77): the only operands are the S-box
index of SBOX_SUB (R75) and the round index of FFUNC (R74), each of a type that holds just the legal values. -/

namespace Sys2Proof

/-- The 13 commands, in the table's order. -/
inductive Instr where
  /-- NOP (R87): completion only. -/
  | nop
  /-- SBOX_SUB s (R94): every byte of DATA through S-box s. -/
  | sboxSub (sel : Fin 8)
  /-- SBOX_SUBP (R95): byte j of DATA through S-box j mod 8. -/
  | sboxSubp
  /-- BITPERM512 (R98): permute the 512 bits of DATA. -/
  | bitperm512
  /-- BITPERM256 (R99): the half-block permutation on DATA[0..31]. -/
  | bitperm256
  /-- FFUNC r (R113): one F-function evaluation. -/
  | ffunc (rnd : Fin 16)
  /-- ENC (R114): encrypt the block in DATA. -/
  | enc
  /-- DEC (R115): decrypt the block in DATA. -/
  | dec
  /-- KSCHED (R108): expand MKEY into the 16 round keys. -/
  | ksched
  /-- KDF (R103): derive the master key. -/
  | kdf
  /-- TAG_GEN (R121): compute the tag. -/
  | tagGen
  /-- TAG_VERIFY (R122): compute the tag and compare it with EXPTAG. -/
  | tagVerify
  /-- ZEROIZE (R88): clear every buffer. -/
  | zeroize
  deriving DecidableEq, Repr

end Sys2Proof
end

