-- ==== Sys2Proof/WellFormed.lean ====
section
/-! DEFINITION. Which field values a command word may carry (spec/30_encoding.md R72, R73, R78). The checks are
stated on the five fields of R72, one check per way R78 names a word illegal. An `Instr` cannot be built with an
operand out of range, so the ill-formed terms are field records; `Instr.fields` gives each command's record. -/

namespace Sys2Proof

/-- The five fields of a command word (R72). -/
structure CommandFields where
  op : BitVec 8
  rnd : BitVec 4
  sel : BitVec 3
  mode : BitVec 1
  res : BitVec 16
  deriving DecidableEq, Repr

/-- The OP values that R73 assigns. -/
def assignedOps : List (BitVec 8) :=
  [0x00, 0x01, 0x02, 0x03, 0x10, 0x11, 0x12, 0x20, 0x30, 0x40, 0x41, 0xF0]

/-- RES must be 0 (R72, R78). -/
def CommandFields.resOk (f : CommandFields) : Bool := f.res = 0

/-- The OP value must stand in R73's table (R78). -/
def CommandFields.opOk (f : CommandFields) : Bool := f.op ∈ assignedOps

/-- RND is 0 but for FFUNC (R73, R74). -/
def CommandFields.rndOk (f : CommandFields) : Bool := f.rnd = 0 ∨ f.op = 0x10

/-- SEL is 0 but for SBOX_SUB, that is OP 0x01 with MODE 0 (R73, R75). -/
def CommandFields.selOk (f : CommandFields) : Bool := f.sel = 0 ∨ (f.op = 0x01 ∧ f.mode = 0)

/-- MODE is 0 but for OP 0x01 (R76). -/
def CommandFields.modeOk (f : CommandFields) : Bool := f.mode = 0 ∨ f.op = 0x01

/-- A field record names a command exactly when all five checks pass (R73, R78). -/
def CommandFields.wellFormed (f : CommandFields) : Bool :=
  f.resOk && f.opOk && f.rndOk && f.selOk && f.modeOk

/-- The field values of each command, row by row of R73. -/
def Instr.fields : Instr → CommandFields
  | .nop => ⟨0x00, 0, 0, 0, 0⟩
  | .sboxSub sel => ⟨0x01, 0, BitVec.ofNat 3 sel.val, 0, 0⟩
  | .sboxSubp => ⟨0x01, 0, 0, 1, 0⟩
  | .bitperm512 => ⟨0x02, 0, 0, 0, 0⟩
  | .bitperm256 => ⟨0x03, 0, 0, 0, 0⟩
  | .ffunc rnd => ⟨0x10, BitVec.ofNat 4 rnd.val, 0, 0, 0⟩
  | .enc => ⟨0x11, 0, 0, 0, 0⟩
  | .dec => ⟨0x12, 0, 0, 0, 0⟩
  | .ksched => ⟨0x20, 0, 0, 0, 0⟩
  | .kdf => ⟨0x30, 0, 0, 0, 0⟩
  | .tagGen => ⟨0x40, 0, 0, 0, 0⟩
  | .tagVerify => ⟨0x41, 0, 0, 0, 0⟩
  | .zeroize => ⟨0xF0, 0, 0, 0, 0⟩

/-- A command is well-formed when its field record passes the checks. -/
def Instr.wellFormed (i : Instr) : Bool := i.fields.wellFormed

end Sys2Proof
end

