-- ==== Sys2Proof/Decode.lean ====
section
/-! DEFINITION. Decoding a command word (spec/30_encoding.md R71 to R79) and, after it, the encoder (R81), each
written from the spec's tables. A command is one 32-bit word; CMD is a plain 32-bit value with no byte structure
(spec/20_memory.md R56), so the decoder takes the word itself. -/

namespace Sys2Proof

/-- Why a word is no command (R78). The core records every one of them as ILLEGAL_CMD. -/
inductive DecodeError where
  /-- RES, bits 31:16, is not 0. -/
  | reservedSet
  /-- OP, bits 7:0, is not a value of R73's table. -/
  | unassignedOp
  /-- RND, SEL or MODE is not 0 on a command that does not use it. -/
  | unusedFieldSet
  deriving DecidableEq, Repr

/-- The five fields of a word (R72). -/
def splitFields (v : Word) : CommandFields where
  op := v.extractLsb' 0 8
  rnd := v.extractLsb' 8 4
  sel := v.extractLsb' 12 3
  mode := v.extractLsb' 15 1
  res := v.extractLsb' 16 16

/-- A command that uses none of RND, SEL and MODE: all three must be 0 (R73). -/
def plainCommand (i : Instr) (f : CommandFields) : Except DecodeError Instr :=
  if f.rnd = 0 ∧ f.sel = 0 ∧ f.mode = 0 then .ok i else .error .unusedFieldSet

/-- OP 0x01: MODE picks SBOX_SUB, which uses SEL, or SBOX_SUBP, which uses no other field (R76). -/
def sboxCommand (f : CommandFields) : Except DecodeError Instr :=
  if f.rnd ≠ 0 then .error .unusedFieldSet
  else if f.mode = 0 then .ok (.sboxSub f.sel.toFin)
  else if f.sel = 0 then .ok .sboxSubp
  else .error .unusedFieldSet

/-- OP 0x10: FFUNC uses RND only (R74). -/
def ffuncCommand (f : CommandFields) : Except DecodeError Instr :=
  if f.sel = 0 ∧ f.mode = 0 then .ok (.ffunc f.rnd.toFin) else .error .unusedFieldSet

/-- The command a word stands for, or the reason it stands for none (R73, R78). -/
def decode (v : Word) : Except DecodeError Instr :=
  let f := splitFields v
  if f.res ≠ 0 then .error .reservedSet
  else match f.op.toNat with
    | 0x00 => plainCommand .nop f
    | 0x01 => sboxCommand f
    | 0x02 => plainCommand .bitperm512 f
    | 0x03 => plainCommand .bitperm256 f
    | 0x10 => ffuncCommand f
    | 0x11 => plainCommand .enc f
    | 0x12 => plainCommand .dec f
    | 0x20 => plainCommand .ksched f
    | 0x30 => plainCommand .kdf f
    | 0x40 => plainCommand .tagGen f
    | 0x41 => plainCommand .tagVerify f
    | 0xF0 => plainCommand .zeroize f
    | _ => .error .unassignedOp

/-- The word a mnemonic assembles to (R81): its match value with its operand put in its field. -/
def encode : Instr → Word
  | .nop => 0x00000000
  | .sboxSub sel => 0x00000001 ||| (BitVec.ofNat 32 sel.val <<< 12)
  | .sboxSubp => 0x00008001
  | .bitperm512 => 0x00000002
  | .bitperm256 => 0x00000003
  | .ffunc rnd => 0x00000010 ||| (BitVec.ofNat 32 rnd.val <<< 8)
  | .enc => 0x00000011
  | .dec => 0x00000012
  | .ksched => 0x00000020
  | .kdf => 0x00000030
  | .tagGen => 0x00000040
  | .tagVerify => 0x00000041
  | .zeroize => 0x000000F0

/-- The command read from an instruction of nbits bits whose value is w, the bits above nbits 0. A command is one
32-bit word and there is no longer one (R71), so a width over 32 names no command. -/
def decodeTableWord (nbits w : Nat) : Option Instr :=
  if nbits ≤ 32 then (decode (BitVec.ofNat 32 (w % 2 ^ nbits))).toOption else none

/-- The match value and the mask of each command's row in R73's second table. -/
def rowOf : Instr → Word × Word
  | .nop => (0x00000000, 0xFFFFFFFF)
  | .sboxSub _ => (0x00000001, 0xFFFF8FFF)
  | .sboxSubp => (0x00008001, 0xFFFFFFFF)
  | .bitperm512 => (0x00000002, 0xFFFFFFFF)
  | .bitperm256 => (0x00000003, 0xFFFFFFFF)
  | .ffunc _ => (0x00000010, 0xFFFFF0FF)
  | .enc => (0x00000011, 0xFFFFFFFF)
  | .dec => (0x00000012, 0xFFFFFFFF)
  | .ksched => (0x00000020, 0xFFFFFFFF)
  | .kdf => (0x00000030, 0xFFFFFFFF)
  | .tagGen => (0x00000040, 0xFFFFFFFF)
  | .tagVerify => (0x00000041, 0xFFFFFFFF)
  | .zeroize => (0x000000F0, 0xFFFFFFFF)

/-- R73's second table whole, in its order; the operand given to `rowOf` picks no different row. -/
def matchMaskRows : List (Word × Word) :=
  [Instr.nop, .sboxSub 0, .sboxSubp, .bitperm512, .bitperm256, .ffunc 0, .enc, .dec, .ksched, .kdf, .tagGen,
   .tagVerify, .zeroize].map rowOf

/-- Whether a word matches a row (R73). -/
def matchesRow (v : Word) (row : Word × Word) : Bool := v &&& row.2 = row.1

end Sys2Proof
end

