-- ==== Sys2Proof/Config.lean ====
section
/-! DEFINITION. What one core fixes for its lifetime: the open parameters of spec/00_scope.md R10 to R12 and
spec/10_state.md R48, each an OPAQUE constant that no proof can look into, and the free draw of
spec/20_memory.md R60. The sizes of R9 that are plain numbers of the spec stand here too. -/

namespace Sys2Proof

/-- The parameters that fix the algorithm's constants (R10, R12, R48): the value the spec's R48 calls the
CipherContext. The algorithms are written for every context; the machine runs them at `Config.context`. -/
structure CipherContext where
  /-- SBOX_SEED[0..7], one 16-bit seed per S-box (R10). -/
  sboxSeed : Fin 8 → BitVec 16
  /-- PERM_SEED, the 16-bit seed of the bit permutation (R10). -/
  permSeed : BitVec 16
  /-- MIXC[0..15][0..3], the mixing constants (R10, R45). -/
  mixc : Fin 16 → Fin 4 → Word
  /-- The hash oracle of R12: total, and nothing else is known of it. -/
  sha512 : List Byte → Block

namespace Config

/-- SBOX_SEED[0..7]. The spec leaves the values OPEN (R10, N1): DESIGN CHOICE, log entry 1. -/
opaque sboxSeed : Fin 8 → BitVec 16

/-- PERM_SEED. The spec leaves the value OPEN (R10, N2): DESIGN CHOICE, log entry 1. -/
opaque permSeed : BitVec 16

/-- MIXC[0..15][0..3]. The spec leaves the values OPEN (R10, N3): DESIGN CHOICE, log entry 1. -/
opaque mixc : Fin 16 → Fin 4 → Word

/-- The SHA-512 oracle, kept opaque as R12 asks: DESIGN CHOICE, log entry 2. -/
opaque sha512 : List Byte → Block

/-- How many words CORE_BASE is above address 0. OPEN (R11): DESIGN CHOICE, log entry 3. -/
opaque coreBaseWords : Nat

/-- How many words MSGBUF has above the least size R11 allows. OPEN (R11): DESIGN CHOICE, log entry 3. -/
opaque msgBufExtraWords : Nat

/-- The value of the n-th buffer read that falls while a command is in flight: any 32-bit value (R60(a), U7):
DESIGN CHOICE, log entry 4. -/
opaque draw : Nat → Word

/-- The bus address of the window, a multiple of 4 by construction (R11). -/
def coreBase : Nat := 4 * coreBaseWords

/-- The size of MSGBUF in bytes, a multiple of 4 and at least 64 by construction (R11). -/
def msgBufBytes : Nat := 4 * msgBufExtraWords + 64

/-- The length of the window in bytes, WIN_BYTES of R51. -/
def winBytes : Nat := 0x1000 + msgBufBytes

/-- The context of the core that is modelled: every value of it is open. -/
def context : CipherContext where
  sboxSeed := sboxSeed
  permSeed := permSeed
  mixc := mixc
  sha512 := sha512

end Config

end Sys2Proof
end

