-- ==== Sys2Proof/Machine/State.lean ====
section
/-! DEFINITION. The state of one core as spec/10_state.md R20 lists it, the inputs of the model (spec/00_scope.md
R18), the reasons a step can stop, and the machine right after reset (R49). -/

namespace Sys2Proof.Machine

/-- The sequencer (R47): idle, or busy with the command in LATCH. -/
inductive Seq where
  | idle
  | busy
  deriving DecidableEq, Repr

/-- The value of STATUS.ERRCODE (spec/60_exceptions.md R136). The codes 5 to 15 are never produced, so they are
no values here. -/
inductive ErrCode where
  /-- NONE, code 0: no error since the last clear. -/
  | none
  /-- ILLEGAL_CMD, code 1. -/
  | illegalCmd
  /-- LEN_ERR, code 2. -/
  | lenErr
  /-- BUSY_CMD, code 3. -/
  | busyCmd
  /-- BUSY_ACCESS, code 4. -/
  | busyAccess
  deriving DecidableEq, Repr

/-- The control and status registers that have an offset of their own (R20(a), spec/20_memory.md R52). -/
inductive Reg where
  | id
  | version
  | cmd
  | status
  | irqEn
  | irqStatus
  | iter
  | msgLen
  | keyLen
  deriving DecidableEq, Repr

/-- The operand and result buffers (R20(b)). -/
inductive Buffer where
  | data
  | mkey
  | tag
  | exptag
  | rk
  | msgbuf
  deriving DecidableEq, Repr

/-- What stands at a mapped word offset of the window (R52): a register, or the word of a buffer that begins at
the given byte. -/
inductive Place where
  | reg (r : Reg)
  | word (b : Buffer) (index : Nat)
  deriving DecidableEq, Repr

/-- One host bus access (spec/00_scope.md R17): `MemRead(addr, bytes)` or `MemWrite(addr, bytes, value)`. An access
with partial byte enables is one whose `bytes` is not 4 (R53; DESIGN CHOICE, log entry 14). -/
inductive Access where
  | read (addr bytes : Nat)
  | write (addr bytes : Nat) (value : Word)
  deriving DecidableEq, Repr

/-- What the world outside the core does next (R18): a host access, the reset input, or leaving the turn to the
core. A list of these fixes one of the total orders of spec/20_memory.md R65 (DESIGN CHOICE, log entry 5). -/
inductive Input where
  | access (a : Access)
  | coreTurn
  | reset
  deriving DecidableEq, Repr

/-- How the bus answered an access: a write taken, the word a read returned, or the error response of
spec/60_exceptions.md R138, which carries no data. -/
inductive BusResponse where
  | done
  | value (w : Word)
  | busError (addr : Nat)
  deriving DecidableEq, Repr

/-- MSGBUF's bytes by index: the cells that are not `Memory.unlisted`, addresses strictly rising (DESIGN CHOICE,
log entry 11). -/
abbrev Memory := List Host.Cell

/-- What a byte of MSGBUF that nothing has written reads as: MSGBUF's reset value (R42). -/
def Memory.unlisted : Byte := 0

/-- The state. The fields down to `latch` are the spec's (R20); the last three are the model's own (DESIGN CHOICE, log
entries 4, 5 and 6): the inputs still to come, the answer of the latest access, and how many draws were taken. -/
structure State where
  /-- STATUS.ERRCODE (R28). -/
  errCode : ErrCode
  /-- STATUS.TAG_MATCH (R29). -/
  tagMatch : Bool
  /-- IRQ_EN[1:0]: bit 0 DONE_IE, bit 1 ERR_IE (R31). -/
  irqEn : BitVec 2
  /-- IRQ_STATUS[1:0]: bit 0 DONE_IP, bit 1 ERR_IP (R32). -/
  irqStatus : BitVec 2
  /-- ITER (R34). -/
  iter : Word
  /-- MSG_LEN (R35). -/
  msgLen : Word
  /-- KEY_LEN (R36). -/
  keyLen : Word
  /-- DATA[0..63] (R37). -/
  data : Block
  /-- MKEY[0..63] (R38). -/
  mkey : Block
  /-- TAG[0..31] (R39). -/
  tag : Half
  /-- EXPTAG[0..31] (R40). -/
  exptag : Half
  /-- RK[0..15][0..31] (R41). -/
  rk : Vector Half 16
  /-- MSGBUF[0..MSG_BUF_BYTES-1] (R42). -/
  msgbuf : Memory
  /-- SEQ (R47). -/
  seq : Seq
  /-- LATCH (R47). -/
  latch : Word
  /-- The model's own: the inputs still to come, the next one first. -/
  inputs : List Input
  /-- The model's own: how the bus answered the latest access, if there was one. -/
  response : Option BusResponse
  /-- The model's own: how many draws of R60(a) were taken. -/
  draws : Nat
  deriving DecidableEq, Repr

/-- Why a step stops with a fault. -/
inductive Fault where
  /-- Raised by KDF, TAG_GEN and TAG_VERIFY when their input would reach past MSGBUF's last byte: bytes the spec
  says do not exist. Acceptance refuses such lengths (R84) and they cannot change while busy (R60), so no run of the
  hardware meets it. DESIGN CHOICE, log entry 12. Safe. -/
  | msgbufRange
  deriving DecidableEq, Repr

/-- Why a step has no meaning. -/
inductive Refusal where
  /-- Raised by `exec` for an instruction that has no meaning yet: no arm does so. Safe. -/
  | notModelled (mnemonic : String)
  /-- Raised by a host access below CORE_BASE, which reaches the platform and not the core (R51, U12). DEDUCED,
  log entry 10. Safe. -/
  | outsideWindow (addr : Nat)
  /-- Raised by completion when LATCH holds a word that is no command. Acceptance latches legal words only (R83), so
  no run of the hardware meets it. DESIGN CHOICE, log entry 13. Safe. -/
  | latchIllegal (word : Word)
  deriving DecidableEq, Repr

/-- The state after reset (R49): every byte 0, ITER the default count 150000, the sequencer idle. The spec gives
every value but those of the model's own three fields. -/
def State.reset : State where
  errCode := .none
  tagMatch := false
  irqEn := 0
  irqStatus := 0
  iter := 0x000249F0
  msgLen := 0
  keyLen := 0
  data := Vector.replicate 64 0
  mkey := Vector.replicate 64 0
  tag := Vector.replicate 32 0
  exptag := Vector.replicate 32 0
  rk := Vector.replicate 16 (Vector.replicate 32 0)
  msgbuf := []
  seq := .idle
  latch := 0
  inputs := []
  response := none
  draws := 0

end Sys2Proof.Machine
end

