-- ==== Sys2Proof/Machine/Flags.lean ====
section
/-! DEFINITION. The status and interrupt bits: where each stands in its register, the words a host reads, and the
level output irq (spec/10_state.md R27 to R33). The core has no arithmetic flags (R23). -/

namespace Sys2Proof.Machine

/-- The 4-bit code of an error (spec/60_exceptions.md R136). -/
def errCodeBits : ErrCode → BitVec 4
  | .none => 0
  | .illegalCmd => 1
  | .lenErr => 2
  | .busyCmd => 3
  | .busyAccess => 4

/-- A single bit as a word. -/
def bitWord (b : Bool) : Word := if b then 1 else 0

/-- STATUS.BUSY (R27). -/
def statusBusy (s : State) : Bool := s.seq = .busy

/-- STATUS.ERR (R28). -/
def statusErr (s : State) : Bool := s.errCode ≠ .none

/-- What a read of STATUS returns: `TAG_MATCH<<8 or ERRCODE<<4 or ERR<<1 or BUSY` (R57); the rest is 0 (R30). -/
def statusWord (s : State) : Word :=
  (bitWord s.tagMatch <<< 8) ||| ((errCodeBits s.errCode).setWidth 32 <<< 4)
    ||| (bitWord (statusErr s) <<< 1) ||| bitWord (statusBusy s)

/-- DONE_IP and DONE_IE are bit 0 of their registers (R31, R32). -/
def doneBit : BitVec 2 := 1

/-- ERR_IP and ERR_IE are bit 1 of their registers (R31, R32). -/
def errBit : BitVec 2 := 2

/-- The interrupt output (R33): a level, 1 while an enabled source is pending. -/
def irq (s : State) : Bool :=
  (s.irqStatus.getLsbD 0 && s.irqEn.getLsbD 0) || (s.irqStatus.getLsbD 1 && s.irqEn.getLsbD 1)

end Sys2Proof.Machine
end

