-- ==== Sys2Proof/Machine/Ops.lean ====
section
/-! DEFINITION. The named operations over memory, buffers and registers: the big-endian word view
(spec/00_scope.md R15), MSGBUF's memory, one byte and one word of a buffer (spec/20_memory.md R56), recording an
error and ending its report (spec/60_exceptions.md R137, R142), the end of a command (spec/40_control.md R85) and the
bus's three answers (R57, R58, R138). -/

namespace Sys2Proof.Machine

/-- `BE32 = b0·2^24 + b1·2^16 + b2·2^8 + b3` (R15): four bytes as a word, the first in bits 31:24. -/
def be32 (b0 b1 b2 b3 : Byte) : Word :=
  BitVec.ofNat 32 (b0.toNat * 2 ^ 24 + b1.toNat * 2 ^ 16 + b2.toNat * 2 ^ 8 + b3.toNat)

/-- BYTES_BE (R15): the four bytes of a word, bits 31:24 first. -/
def bytesBe (w : Word) : Vector Byte 4 :=
  #v[w.extractLsb' 24 8, w.extractLsb' 16 8, w.extractLsb' 8 8, w.extractLsb' 0 8]

/-- The canonical form of MSGBUF's memory: addresses strictly rising, and no cell equal to what an unlisted address
reads as. Equal contents are then equal lists. -/
abbrev Memory.wf (m : Memory) : Prop :=
  m.Pairwise (fun c d => c.1 < d.1) ∧ ∀ c ∈ m, c.2 ≠ Memory.unlisted

/-- The byte at an address. -/
def Memory.read : Memory → Nat → Byte
  | [], _ => Memory.unlisted
  | (b, w) :: rest, a => if a = b then w else Memory.read rest a

/-- Put a byte at an address, keeping the canonical form: writing what an unlisted address reads as removes the
cell. -/
def Memory.write : Memory → Nat → Byte → Memory
  | [], a, v => if v = Memory.unlisted then [] else [(a, v)]
  | (b, w) :: rest, a, v =>
    if a < b then (if v = Memory.unlisted then (b, w) :: rest else (a, v) :: (b, w) :: rest)
    else if a = b then (if v = Memory.unlisted then rest else (a, v) :: rest)
    else (b, w) :: Memory.write rest a v

/-- How many bytes a buffer has (R37 to R42). -/
def bufferSize : Buffer → Nat
  | .data => 64
  | .mkey => 64
  | .tag => 32
  | .exptag => 32
  | .rk => 512
  | .msgbuf => Config.msgBufBytes

/-- Byte i of a fixed buffer; no access reaches an i past its end. -/
def byteOf {n : Nat} (v : Vector Byte n) (i : Nat) : Byte := v[i]?.getD 0

/-- Byte i of a buffer: the model's read of one byte of the address space. RK is one buffer of 512 bytes with
`RK[r][i] = RKbuf[32·r + i]` (R52). -/
def readByte (b : Buffer) (i : Nat) (s : State) : Byte :=
  match b with
  | .data => byteOf s.data i
  | .mkey => byteOf s.mkey i
  | .tag => byteOf s.tag i
  | .exptag => byteOf s.exptag i
  | .rk => (s.rk[i / 32]?.map (fun entry => byteOf entry (i % 32))).getD 0
  | .msgbuf => s.msgbuf.read i

/-- Put byte v at index i of a buffer. -/
def writeByte (b : Buffer) (i : Nat) (v : Byte) (s : State) : State :=
  match b with
  | .data => { s with data := s.data.setIfInBounds i v }
  | .mkey => { s with mkey := s.mkey.setIfInBounds i v }
  | .tag => { s with tag := s.tag.setIfInBounds i v }
  | .exptag => { s with exptag := s.exptag.setIfInBounds i v }
  | .rk =>
    { s with rk := s.rk.setIfInBounds (i / 32) ((s.rk[i / 32]?.getD (Vector.replicate 32 0)).setIfInBounds (i % 32) v) }
  | .msgbuf => { s with msgbuf := s.msgbuf.write i v }

/-- The big-endian word at index i of a buffer (R56). -/
def readWord (b : Buffer) (i : Nat) (s : State) : Word :=
  be32 (readByte b i s) (readByte b (i + 1) s) (readByte b (i + 2) s) (readByte b (i + 3) s)

/-- Write a word at index i of a buffer, its most significant byte first (R56). -/
def writeWord (b : Buffer) (i : Nat) (v : Word) (s : State) : State :=
  let w := bytesBe v
  writeByte b (i + 3) w[3] (writeByte b (i + 2) w[2] (writeByte b (i + 1) w[1] (writeByte b i w[0] s)))

/-- Every buffer as it is after reset: what ZEROIZE leaves (R88). -/
def clearBuffers (s : State) : State :=
  { s with
    data := Vector.replicate 64 0
    mkey := Vector.replicate 64 0
    tag := Vector.replicate 32 0
    exptag := Vector.replicate 32 0
    rk := Vector.replicate 16 (Vector.replicate 32 0)
    msgbuf := [] }

/-- `record_error(code)` (R137): what an error does instead of a trap. The first code since the last clear is kept,
ERR_IP is set every time, and nothing else changes. No trap state is saved (R141). -/
def recordError (code : ErrCode) (s : State) : State :=
  { s with
    errCode := if s.errCode = .none then code else s.errCode
    irqStatus := s.irqStatus ||| errBit }

/-- The end of an error's report (R142, R28): a write of v to STATUS clears ERRCODE when v[1] is 1. -/
def writeStatus (v : Word) (s : State) : State :=
  if v.getLsbD 1 then { s with errCode := .none } else s

/-- The end of a pending interrupt (R142, R32): a write of v to IRQ_STATUS clears each bit whose v bit is 1. -/
def writeIrqStatus (v : Word) (s : State) : State :=
  { s with irqStatus := s.irqStatus &&& ~~~(v.setWidth 2) }

/-- What follows exec_X in the completion step (R85): the sequencer idle and DONE_IP set. -/
def complete (s : State) : State :=
  { s with seq := .idle, irqStatus := s.irqStatus ||| doneBit }

/-- The bus answers r. -/
def respond (r : BusResponse) (s : State) : State := { s with response := some r }

/-- `raise BusError(a)` (R138): an error response, no change of the core's state and no error code. -/
def raiseBusError (a : Nat) (s : State) : State := respond (.busError a) s

/-- A read that returns a draw (R60(a)): a value nothing constrains, and a fresh one every time. -/
def respondDraw (s : State) : State :=
  { s with response := some (.value (Config.draw s.draws)), draws := s.draws + 1 }

end Sys2Proof.Machine
end

