-- ==== Sys2Proof/Machine/Operands.lean ====
section
/-! DEFINITION. What the commands read and write: the halves of a block, the bits of a byte string in the spec's
numbering (spec/00_scope.md R16), a slice of MSGBUF, and the check that the slice lies inside it
(spec/40_control.md R84). -/

namespace Sys2Proof.Machine

/-- Bytes 0..31 of a block (R37). -/
def leftHalf (b : Block) : Half := Vector.ofFn fun i : Fin 32 => b[i.val]

/-- Bytes 32..63 of a block (R37). -/
def rightHalf (b : Block) : Half := Vector.ofFn fun i : Fin 32 => b[i.val + 32]

/-- `L ‖ R` (R14). -/
def joinHalves (l r : Half) : Block := Vector.ofFn fun i : Fin 64 =>
  if h : i.val < 32 then l[i.val] else r[i.val - 32]

/-- `A xor B` on byte strings of one length (R14). -/
def xorBytes {n : Nat} (a b : Vector Byte n) : Vector Byte n := Vector.ofFn fun i : Fin n => a[i] ^^^ b[i]

/-- `bit(B, k)` (R16): bit 0 is the most significant bit of the first byte. -/
def bitOf {n : Nat} (b : Vector Byte n) (k : Nat) : Bool := (byteOf b (k / 8)).getLsbD (7 - k % 8)

/-- The byte whose bits, most significant first, are the eight given by f. -/
def byteOfBits (f : Nat → Bool) : Byte := BitVec.ofFnLE (fun i : Fin 8 => f (7 - i.val))

/-- `pack(b)` (R16): 8n bits back into n bytes by the same numbering (DEDUCED, log entry 7). -/
def packBits {n : Nat} (bits : Vector Bool (8 * n)) : Vector Byte n :=
  Vector.ofFn fun i : Fin n => byteOfBits fun t => bits[8 * i.val + t]?.getD false

/-- `MSGBUF[start .. start + len - 1]` (R14), empty when len is 0. -/
def msgSlice (start len : Nat) (s : State) : List Byte :=
  (List.range len).map fun i => s.msgbuf.read (start + i)

/-- `M = MSGBUF[0 .. MSG_LEN-1]` (spec/42_kdf.md R101). -/
def kdfInput (s : State) : List Byte := msgSlice 0 s.msgLen.toNat s

/-- `Kt = MSGBUF[0 .. KEY_LEN-1]` (spec/45_tag.md R120). -/
def tagKey (s : State) : List Byte := msgSlice 0 s.keyLen.toNat s

/-- `D = MSGBUF[KEY_LEN .. KEY_LEN + MSG_LEN - 1]` (R120). -/
def tagData (s : State) : List Byte := msgSlice s.keyLen.toNat s.msgLen.toNat s

/-- `len_ok` (R84) for a message buffer of cap bytes, on exact sums. -/
def lenOkWithin (cap : Nat) (i : Instr) (msgLen keyLen : Word) : Bool :=
  match i with
  | .kdf => msgLen.toNat ≤ cap
  | .tagGen => keyLen.toNat + msgLen.toNat ≤ cap
  | .tagVerify => keyLen.toNat + msgLen.toNat ≤ cap
  | .nop | .sboxSub _ | .sboxSubp | .bitperm512 | .bitperm256 | .ffunc _ | .enc | .dec | .ksched | .zeroize => true

/-- `len_ok` (R84) at this core's MSGBUF. -/
def lenOk (i : Instr) (s : State) : Bool := lenOkWithin Config.msgBufBytes i s.msgLen s.keyLen

/-- Complete with t, unless the command's slice of MSGBUF would reach past its last byte. -/
def completeWithin (i : Instr) (s t : State) : Host.Outcome State Fault Refusal :=
  if lenOk i s then .next (complete t) else .fault .msgbufRange

end Sys2Proof.Machine
end

