-- ==== Sys2Proof/Machine/Bus.lean ====
section
/-! DEFINITION. Host accesses to the register window (spec/20_memory.md R51 to R60) and the acceptance of a command
(spec/40_control.md R83, R84). -/

namespace Sys2Proof.Machine

/-- ID's constant (spec/10_state.md R24). -/
def idWord : Word := 0x424C4135

/-- VERSION's constant (R25). -/
def versionWord : Word := 0x00000002

/-- What a word offset of the window holds, if it is mapped, with a MSGBUF of cap bytes (R52). -/
def placeWithin (cap o : Nat) : Option Place :=
  if o < 0x24 then
    match o / 4 with
    | 0 => some (.reg .id)
    | 1 => some (.reg .version)
    | 2 => some (.reg .cmd)
    | 3 => some (.reg .status)
    | 4 => some (.reg .irqEn)
    | 5 => some (.reg .irqStatus)
    | 6 => some (.reg .iter)
    | 7 => some (.reg .msgLen)
    | _ => some (.reg .keyLen)
  else if o < 0x40 then none
  else if o < 0x80 then some (.word .data (o - 0x40))
  else if o < 0xC0 then some (.word .mkey (o - 0x80))
  else if o < 0xE0 then some (.word .tag (o - 0xC0))
  else if o < 0x100 then some (.word .exptag (o - 0xE0))
  else if o < 0x300 then some (.word .rk (o - 0x100))
  else if o < 0x1000 then none
  else if o < 0x1000 + cap then some (.word .msgbuf (o - 0x1000))
  else none

/-- What an offset of this core's window holds. -/
def placeAt (o : Nat) : Option Place := placeWithin Config.msgBufBytes o

/-- The place an access of the given width reaches, or none where R53 to R55 give a bus error: a width other than 4
bytes, an offset that is no multiple of 4, or an unmapped offset. -/
def accessPlace (o bytes : Nat) : Option Place :=
  if bytes = 4 ∧ o % 4 = 0 then placeAt o else none

/-- `accept(v)` (R83): an illegal word and a length that does not fit are recorded and start nothing, in this order
(R84); a legal one is latched and the core is busy. -/
def accept (v : Word) (s : State) : State :=
  match decode v with
  | .error _ => recordError .illegalCmd s
  | .ok i =>
    if lenOk i s then { s with tagMatch := false, latch := v, seq := .busy } else recordError .lenErr s

/-- What a read of a register returns (R57). -/
def readReg (r : Reg) (s : State) : Word :=
  match r with
  | .id => idWord
  | .version => versionWord
  | .cmd => 0
  | .status => statusWord s
  | .irqEn => s.irqEn.setWidth 32
  | .irqStatus => s.irqStatus.setWidth 32
  | .iter => s.iter
  | .msgLen => s.msgLen
  | .keyLen => s.keyLen

/-- What a write to a register does while idle (R57). -/
def writeReg (r : Reg) (v : Word) (s : State) : State :=
  match r with
  | .id => s
  | .version => s
  | .cmd => accept v s
  | .status => writeStatus v s
  | .irqEn => { s with irqEn := v.setWidth 2 }
  | .irqStatus => writeIrqStatus v s
  | .iter => { s with iter := v }
  | .msgLen => { s with msgLen := v }
  | .keyLen => { s with keyLen := v }

/-- What a write does while idle (R57): a word of TAG is read-only and ignores it. -/
def writePlace (p : Place) (v : Word) (s : State) : State :=
  match p with
  | .reg r => writeReg r v s
  | .word .tag _ => s
  | .word b i => writeWord b i v s

/-- The error a write records while busy (R59, R60(b), (c)), if it is one that is dropped. -/
def busyWriteError : Place → Option ErrCode
  | .reg .cmd => some .busyCmd
  | .reg .iter => some .busyAccess
  | .reg .msgLen => some .busyAccess
  | .reg .keyLen => some .busyAccess
  | .reg .id => none
  | .reg .version => none
  | .reg .status => none
  | .reg .irqEn => none
  | .reg .irqStatus => none
  | .word .tag _ => none
  | .word .data _ => some .busyAccess
  | .word .mkey _ => some .busyAccess
  | .word .exptag _ => some .busyAccess
  | .word .rk _ => some .busyAccess
  | .word .msgbuf _ => some .busyAccess

/-- A write that reaches place p (R59). -/
def storeAt (p : Place) (v : Word) (s : State) : State :=
  match s.seq, busyWriteError p with
  | .busy, some code => recordError code s
  | .busy, none => writePlace p v s
  | .idle, _ => writePlace p v s

/-- A read that reaches place p (R58): a buffer word read while busy is a draw. -/
def loadFrom (p : Place) (s : State) : State :=
  match p, s.seq with
  | .word _ _, .busy => respondDraw s
  | .word b i, .idle => respond (.value (readWord b i s)) s
  | .reg r, _ => respond (.value (readReg r s)) s

/-- `MemRead` at offset o, bus address a (R58). -/
def readAt (a o bytes : Nat) (s : State) : State :=
  match accessPlace o bytes with
  | none => raiseBusError a s
  | some p => loadFrom p s

/-- `MemWrite` at offset o, bus address a (R59). -/
def writeAt (a o bytes : Nat) (v : Word) (s : State) : State :=
  match accessPlace o bytes with
  | none => raiseBusError a s
  | some p => respond .done (storeAt p v s)

/-- The offset `a - CORE_BASE` of a bus address (R51), none below CORE_BASE. An offset past the window's end is an
unmapped one, as spec/95_test_vectors.md section 2.1 has it (DEDUCED, log entry 10). -/
def offsetOf (a : Nat) : Option Nat := if Config.coreBase ≤ a then some (a - Config.coreBase) else none

/-- One host access. An address below CORE_BASE has no offset in this core: it is the platform's (R51, U12). -/
def hostAccess (x : Access) (s : State) : Host.Outcome State Fault Refusal :=
  match x with
  | .read a n =>
    match offsetOf a with
    | none => .refused (.outsideWindow a)
    | some o => .next (readAt a o n s)
  | .write a n v =>
    match offsetOf a with
    | none => .refused (.outsideWindow a)
    | some o => .next (writeAt a o n v s)

end Sys2Proof.Machine
end

