-- ==== Sys2Proof/Machine/Control.lean ====
section
/-! DEFINITION. The two housekeeping commands (spec/40_control.md R87, R88). -/

namespace Sys2Proof.Machine

/-- NOP (R87): completion, and nothing else. -/
def execNop (s : State) : Host.Outcome State Fault Refusal := .next (complete s)

/-- ZEROIZE (R88): every byte of every buffer 0; the control registers are not reset. -/
def execZeroize (s : State) : Host.Outcome State Fault Refusal := .next (complete (clearBuffers s))

end Sys2Proof.Machine
end

