-- ==== Sys2Proof/Machine/Tables.lean ====
section
/-! DEFINITION. The constant tables and the generators they come from (spec/41_sbox_perm.md R91, R92;
spec/10_state.md R43 to R46). The tables are fixed at design time; no command, host write or reset changes them
(spec/70_reset_and_hazards.md R152), so they are functions of the context and no part of the state. -/

namespace Sys2Proof.Machine

/-- The in-place shuffle both generators run, from index i down to index 1: the seed is updated first, then the swap
index is the seed mod (i + 1) (R91, R92, D17). -/
def shuffle {n : Nat} (update : Nat → Nat) : Nat → Nat → Vector (Fin n) n → Vector (Fin n) n
  | 0, _, a => a
  | i + 1, s, a => shuffle update i (update s) (a.swapIfInBounds (i + 1) (update s % (i + 2)))

/-- The S-box generator's update, exact on unbounded integers (R91, D16). -/
def sboxLcg (s : Nat) : Nat := (s * 1103515245 + 12345) % 2 ^ 31

/-- The permutation generator's update, MINSTD (R92). -/
def permLcg (s : Nat) : Nat := (s * 48271) % 2147483647

/-- `gen_sbox(seed)` (R91). -/
def genSbox (seed : BitVec 16) : Vector (Fin 256) 256 :=
  shuffle sboxLcg 255 seed.toNat (Vector.ofFn id)

/-- `gen_perm(seed)` (R92). -/
def genPerm (seed : BitVec 16) : Vector (Fin 512) 512 :=
  shuffle permLcg 511 seed.toNat (Vector.ofFn id)

/-- The constant tables S, P and MIXC and the hash oracle, as the algorithms use them. -/
structure Tables where
  /-- `S[n][x]` (R43). -/
  sbox : Fin 8 → Byte → Byte
  /-- `P[k]` (R44). -/
  perm : Fin 512 → Fin 512
  /-- `MIXC[r][k]` (R45). -/
  mixc : Fin 16 → Fin 4 → Word
  /-- `sha512(M)` (spec/00_scope.md R12). -/
  sha512 : List Byte → Block

/-- The tables a context determines: `S[n] = gen_sbox(SBOX_SEED[n])` and `P = gen_perm(PERM_SEED)` (R43, R44). -/
def tablesOf (c : CipherContext) : Tables where
  sbox n x := BitVec.ofFin (genSbox (c.sboxSeed n))[x.toFin]
  perm k := (genPerm c.permSeed)[k]
  mixc := c.mixc
  sha512 := c.sha512

/-- This core's tables. -/
def tables : Tables := tablesOf Config.context

/-- IDSTR (R46): the 25 ASCII bytes of BLA512_BLAKE_ENCRYPTOR_V4. -/
def idstr : List Byte :=
  [0x42, 0x4C, 0x41, 0x35, 0x31, 0x32, 0x5F, 0x42, 0x4C, 0x41, 0x4B, 0x45, 0x5F, 0x45, 0x4E, 0x43, 0x52, 0x59,
   0x50, 0x54, 0x4F, 0x52, 0x5F, 0x56, 0x34]

/-- The S-box of round r, `S[r mod 8]` (spec/44_feistel.md R109, spec/43_key_schedule.md R105). -/
def roundSbox (T : Tables) (r : Fin 16) : Byte → Byte := T.sbox (Fin.ofNat 8 r.val)

end Sys2Proof.Machine
end

