-- ==== Sys2Proof/Machine/SboxPerm.lean ====
section
/-! DEFINITION. The S-box and bit-permutation functions and the four commands that expose them
(spec/41_sbox_perm.md R94 to R99). -/

namespace Sys2Proof.Machine

/-- Substitute every byte through one function. -/
def substAll {n : Nat} (f : Byte → Byte) (b : Vector Byte n) : Vector Byte n :=
  Vector.ofFn fun i : Fin n => f b[i]

/-- Substitute byte j through `S[j mod 8]` (R95; spec/42_kdf.md R102 step 3b). -/
def substPositional (T : Tables) (b : Block) : Block :=
  Vector.ofFn fun j : Fin 64 => T.sbox (Fin.ofNat 8 j.val) b[j]

/-- Send bit k of the input to position `dest k` of an output that starts all 0; a position outside the output is
dropped (R96, R97). -/
def scatterBits {m : Nat} (dest : Fin m → Nat) (bit : Fin m → Bool) : Vector Bool m :=
  (List.finRange m).foldl (fun o k => o.setIfInBounds (dest k) (bit k)) (Vector.replicate m false)

/-- `perm512(B)` (R96): input bit k goes to output bit P[k]. -/
def perm512 (T : Tables) (b : Block) : Block :=
  packBits (n := 64) (scatterBits (m := 512) (fun k => (T.perm k).val) (fun k => bitOf b k.val))

/-- `perm256(H)` (R97): the same scatter of the 256 bits there are; bits sent to positions 256 and up are dropped,
and outputs nothing is sent to are 0. -/
def perm256 (T : Tables) (h : Half) : Half :=
  packBits (n := 32)
    (scatterBits (m := 256) (fun k => (T.perm (k.castLE (by decide))).val) (fun k => bitOf h k.val))

/-- SBOX_SUB s (R94): `DATA[j] <- S[s][DATA[j]]` for every j. -/
def execSboxSub (sel : Fin 8) (s : State) : Host.Outcome State Fault Refusal :=
  .next (complete { s with data := substAll (tables.sbox sel) s.data })

/-- SBOX_SUBP (R95): `DATA[j] <- S[j mod 8][DATA[j]]` for every j. -/
def execSboxSubp (s : State) : Host.Outcome State Fault Refusal :=
  .next (complete { s with data := substPositional tables s.data })

/-- BITPERM512 (R98): `DATA <- perm512(DATA)`. -/
def execBitperm512 (s : State) : Host.Outcome State Fault Refusal :=
  .next (complete { s with data := perm512 tables s.data })

/-- BITPERM256 (R99): `DATA[0..31] <- perm256(DATA[0..31])`; DATA[32..63] is not written. -/
def execBitperm256 (s : State) : Host.Outcome State Fault Refusal :=
  .next (complete { s with data := joinHalves (perm256 tables (leftHalf s.data)) (rightHalf s.data) })

end Sys2Proof.Machine
end

