-- ==== Sys2Proof/Machine/Feistel.lean ====
section
/-! DEFINITION. The F-function and the 16-round block cipher (spec/44_feistel.md R109 to R115). -/

namespace Sys2Proof.Machine

/-- Step 3 of F (R109, R110): every byte mixed with its neighbours, all read from the snapshot t. The indices are
mod 32, and the left shift keeps 8 bits. -/
def neighbourMix (t : Half) : Half :=
  Vector.ofFn fun i : Fin 32 => t[i] ^^^ ((t[i - 1] >>> 3) ||| (t[i + 1] <<< 5))

/-- `F(X, K, r)` (R109). -/
def feistelF (T : Tables) (x k : Half) (r : Fin 16) : Half :=
  let u := neighbourMix (substAll (roundSbox T r) (xorBytes x k))
  if r.val % 4 = 0 then perm256 T u else u

/-- Round r of encryption (R111): `(L, R) <- (R, L xor F(R, RK[r], r))`. -/
def encRound (T : Tables) (rk : Vector Half 16) (lr : Half × Half) (r : Fin 16) : Half × Half :=
  (lr.2, xorBytes lr.1 (feistelF T lr.2 rk[r] r))

/-- `feistel_enc(B, RK)` (R111): rounds 0 to 15, then `R ‖ L`. -/
def feistelEnc (T : Tables) (rk : Vector Half 16) (b : Block) : Block :=
  let lr := (List.finRange 16).foldl (encRound T rk) (leftHalf b, rightHalf b)
  joinHalves lr.2 lr.1

/-- Round r of decryption (R112): `(R, L) <- (L, R xor F(L, RK[r], r))`. -/
def decRound (T : Tables) (rk : Vector Half 16) (lr : Half × Half) (r : Fin 16) : Half × Half :=
  (xorBytes lr.2 (feistelF T lr.1 rk[r] r), lr.1)

/-- `feistel_dec(C, RK)` (R112, conflict C1): L is the second half of C and R the first, rounds 15 down to 0, then
`L ‖ R`. -/
def feistelDec (T : Tables) (rk : Vector Half 16) (c : Block) : Block :=
  let lr := (List.finRange 16).reverse.foldl (decRound T rk) (rightHalf c, leftHalf c)
  joinHalves lr.1 lr.2

/-- FFUNC r (R113): `DATA[0..31] <- F(DATA[32..63], RK[r], r)`; DATA[32..63] is unchanged. -/
def execFfunc (rnd : Fin 16) (s : State) : Host.Outcome State Fault Refusal :=
  .next (complete
    { s with data := joinHalves (feistelF tables (rightHalf s.data) s.rk[rnd] rnd) (rightHalf s.data) })

/-- ENC (R114): `DATA <- feistel_enc(DATA, RK)`. -/
def execEnc (s : State) : Host.Outcome State Fault Refusal :=
  .next (complete { s with data := feistelEnc tables s.rk s.data })

/-- DEC (R115): `DATA <- feistel_dec(DATA, RK)`. -/
def execDec (s : State) : Host.Outcome State Fault Refusal :=
  .next (complete { s with data := feistelDec tables s.rk s.data })

end Sys2Proof.Machine
end

