-- ==== Sys2Proof/Machine/Kdf.lean ====
section
/-! DEFINITION. Key derivation (spec/42_kdf.md R101 to R103). -/

namespace Sys2Proof.Machine

/-- Step 3a (R102): each 4-byte group g, as a big-endian word, xored with `c[g mod 4]` and written back. -/
def xorConstants (c : Fin 4 → Word) (st : Block) : Block :=
  Vector.ofFn fun k : Fin 64 =>
    let g := k.val / 4
    let w := be32 (byteOf st (4 * g)) (byteOf st (4 * g + 1)) (byteOf st (4 * g + 2)) (byteOf st (4 * g + 3))
    byteOf (bytesBe (w ^^^ c (Fin.ofNat 4 g))) (k.val % 4)

/-- Step 3c (R102): every 100th iteration, the first included. -/
def kdfPermute (T : Tables) (i : Nat) (st : Block) : Block := if i % 100 = 0 then perm512 T st else st

/-- Step 3d (R102): every 1000th iteration, the first not included. -/
def kdfRehash (T : Tables) (i : Nat) (st : Block) : Block :=
  if i % 1000 = 0 ∧ 0 < i then T.sha512 st.toList else st

/-- Iteration i of step 3 (R102): 3a, 3b, 3c, 3d in this order. -/
def kdfIteration (T : Tables) (i : Nat) (st : Block) : Block :=
  kdfRehash T i (kdfPermute T i (substPositional T (xorConstants (T.mixc (Fin.ofNat 16 i)) st)))

/-- The state after iterations 0 to n - 1. -/
def kdfLoop (T : Tables) (st : Block) : Nat → Block
  | 0 => st
  | i + 1 => kdfIteration T i (kdfLoop T st i)

/-- `kdf(M, N)` (R102). -/
def kdfFunction (T : Tables) (m : List Byte) (n : Nat) : Block := kdfLoop T (T.sha512 (m ++ idstr)) n

/-- KDF (R103): `MKEY <- kdf(MSGBUF[0 .. MSG_LEN-1], ITER)`. -/
def execKdf (s : State) : Host.Outcome State Fault Refusal :=
  completeWithin .kdf s { s with mkey := kdfFunction tables (kdfInput s) s.iter.toNat }

end Sys2Proof.Machine
end

