-- ==== Sys2Proof/Machine/KeySchedule.lean ====
section
/-! DEFINITION. The round-key schedule (spec/43_key_schedule.md R105, R108). -/

namespace Sys2Proof.Machine

/-- Steps 1 and 2 of round r (R105): the low byte of the constant xored into the first 32 bytes of the running key,
then `S[r mod 8]`. -/
def roundKey (T : Tables) (r : Fin 16) (key : Block) : Half :=
  Vector.ofFn fun i : Fin 32 =>
    roundSbox T r (key[i.val] ^^^ (T.mixc r (Fin.ofNat 4 i.val)).setWidth 8)

/-- Step 4 of round r (R105): rotate the running key left by 3 bytes, then xor in the round key as appended. -/
def nextKey (key : Block) (rk : Half) : Block :=
  Vector.ofFn fun i : Fin 64 => key[(i.val + 3) % 64] ^^^ rk[i.val % 32]

/-- The running key state at the start of round r; MK at the start of round 0. -/
def runningKey (T : Tables) (mk : Block) : Nat → Block
  | 0 => mk
  | r + 1 => nextKey (runningKey T mk r) (roundKey T (Fin.ofNat 16 r) (runningKey T mk r))

/-- `schedule(MK)` (R105): the 16 round keys in round order. -/
def schedule (T : Tables) (mk : Block) : Vector Half 16 :=
  Vector.ofFn fun r : Fin 16 => roundKey T r (runningKey T mk r.val)

/-- KSCHED (R108): `RK <- schedule(MKEY)`. -/
def execKsched (s : State) : Host.Outcome State Fault Refusal :=
  .next (complete { s with rk := schedule tables s.mkey })

end Sys2Proof.Machine
end

