-- ==== Sys2Proof/Machine/Tag.lean ====
section
/-! DEFINITION. The integrity tag and its comparison (spec/45_tag.md R117 to R122). -/

namespace Sys2Proof.Machine

/-- Round rnd of the tag (R117): the hash of the same cat, substituted through `S[rnd mod 8]`. -/
def tagRound (T : Tables) (cat : List Byte) (rnd : Nat) : Block :=
  substAll (T.sbox (Fin.ofNat 8 rnd)) (T.sha512 cat)

/-- `tag(D, Kt)` (R117): five rounds, counted 0 to 4 (R118), each replacing the hash of the one before; the first 32
bytes of the last. -/
def tagFunction (T : Tables) (d kt : List Byte) : Half :=
  let h := T.sha512 (kt ++ idstr)
  let cat := h.toList ++ d
  leftHalf ((List.range 5).foldl (fun _ rnd => tagRound T cat rnd) h)

/-- The or-fold of the byte differences (R122). -/
def tagDifference (t e : Half) : Byte := (List.finRange 32).foldl (fun acc i => acc ||| (t[i] ^^^ e[i])) 0

/-- TAG_MATCH's value for a computed tag and an expected one (R122): 1 exactly when no difference was folded in. -/
def tagMatches (t e : Half) : Bool := tagDifference t e = 0

/-- The tag of the key and the data that MSGBUF holds (R120). -/
def computedTag (T : Tables) (s : State) : Half := tagFunction T (tagData s) (tagKey s)

/-- TAG_GEN (R121): `TAG <- tag(data, key)`. -/
def execTagGen (s : State) : Host.Outcome State Fault Refusal :=
  completeWithin .tagGen s { s with tag := computedTag tables s }

/-- TAG_VERIFY (R122): as TAG_GEN, and TAG_MATCH becomes the comparison's result. -/
def execTagVerify (s : State) : Host.Outcome State Fault Refusal :=
  completeWithin .tagVerify s
    { s with tag := computedTag tables s, tagMatch := tagMatches (computedTag tables s) s.exptag }

end Sys2Proof.Machine
end

