-- ==== Sys2Proof/Machine/Dispatch.lean ====
section
/-! DEFINITION. The completion of each command (spec/40_control.md R85), one arm per command. -/

namespace Sys2Proof.Machine

def exec (i : Instr) (s : State) : Host.Outcome State Fault Refusal :=
  match i with
  | .nop => Sys2Proof.Machine.execNop s
  | .sboxSub sel => Sys2Proof.Machine.execSboxSub sel s
  | .sboxSubp => Sys2Proof.Machine.execSboxSubp s
  | .bitperm512 => Sys2Proof.Machine.execBitperm512 s
  | .bitperm256 => Sys2Proof.Machine.execBitperm256 s
  | .ffunc rnd => Sys2Proof.Machine.execFfunc rnd s
  | .enc => Sys2Proof.Machine.execEnc s
  | .dec => Sys2Proof.Machine.execDec s
  | .ksched => Sys2Proof.Machine.execKsched s
  | .kdf => Sys2Proof.Machine.execKdf s
  | .tagGen => Sys2Proof.Machine.execTagGen s
  | .tagVerify => Sys2Proof.Machine.execTagVerify s
  | .zeroize => Sys2Proof.Machine.execZeroize s

end Sys2Proof.Machine
end

