-- ==== Sys2Proof/Machine/Sequencer.lean ====
section
/-! DEFINITION. Which step comes next (spec/00_scope.md R18, spec/40_control.md R85, R86) and the effect of the reset
input (spec/70_reset_and_hazards.md R150). The nearest thing this core has to a program counter is SEQ with LATCH
(spec/10_state.md R22): fetching is reading LATCH while busy. -/

namespace Sys2Proof.Machine

/-- The steps of R18 and R140, and waiting, when no step is enabled. -/
inductive Event where
  /-- The core completes the command in LATCH. -/
  | complete (word : Word)
  /-- The host makes one access. -/
  | access (a : Access)
  /-- The reset input. -/
  | reset
  /-- The core is idle and nothing comes from outside. -/
  | wait
  deriving DecidableEq, Repr

/-- The core's one step when it has the turn (R85): completion while busy, none while idle. -/
def coreEvent (s : State) : Event :=
  match s.seq with
  | .busy => .complete s.latch
  | .idle => .wait

/-- The next step, and the state it is taken in: the inputs in their order, each taken off the list; where the list
is empty, the core's own step (DESIGN CHOICE, log entry 5). -/
def nextEvent (s : State) : Event × State :=
  match s.inputs with
  | [] => (coreEvent s, s)
  | .coreTurn :: rest => (coreEvent s, { s with inputs := rest })
  | .access a :: rest => (.access a, { s with inputs := rest })
  | .reset :: rest => (.reset, { s with inputs := rest })

/-- Reset (R150): every register, buffer and hidden state to its value of R49, whatever SEQ was. The inputs still to
come and the count of draws are the model's own and stay, so that no draw is used twice (DESIGN CHOICE, log entry 4). -/
def applyReset (s : State) : State := { State.reset with inputs := s.inputs, draws := s.draws }

/-- Inputs that give the core the next turn: none needed where none is pending. -/
def yieldTurn : List Input → List Input
  | [] => []
  | x :: rest => .coreTurn :: x :: rest

/-- The command word v latched as acceptance latches it (R83), and the core given the next turn. -/
def latchCommand (v : Word) (s : State) : State :=
  { s with tagMatch := false, latch := v, seq := .busy, inputs := yieldTurn s.inputs }

end Sys2Proof.Machine
end

