-- ==== Sys2Proof/Machine/Step.lean ====
section
/-! DEFINITION. One step of the model (spec/00_scope.md R18): a host access, the completion of the command in flight,
a reset, or nothing. -/

namespace Sys2Proof.Machine

/-- One step. A completion runs the command that LATCH holds. -/
def step (s : State) : Host.Outcome State Fault Refusal :=
  match nextEvent s with
  | (.complete word, t) =>
    match decode word with
    | .ok i => exec i t
    | .error _ => .refused (.latchIllegal word)
  | (.access a, t) => hostAccess a t
  | (.reset, t) => .next (applyReset t)
  | (.wait, t) => .next t

/-- The instruction of nbits bits whose value is w, the bits above nbits 0, put where the core takes its next command
from: LATCH, with SEQ busy, as the acceptance of a CMD write leaves it (DESIGN CHOICE, log entry 8). -/
def State.withFetchWord (s : State) (nbits w : Nat) : State :=
  latchCommand (BitVec.ofNat 32 (w % 2 ^ nbits)) s

end Sys2Proof.Machine
end

