-- ==== Sys2Proof/Machine/HostContract.lean ====
section
/-! DEFINITION. The host software contract of spec/48_host_facade.md (R124 to R133): padding, the message façade, the
host's tag check and the version-2 envelope, as functions over the core's own functions. None of it is core state. -/

namespace Sys2Proof.Machine

/-- The host's error kinds (R133). -/
inductive HostError where
  | invalidInput
  | invalidPadding
  | incorrectPasswordOrCorrupted
  | tamperedOrWrongPassword
  | unsupportedFormat
  deriving DecidableEq, Repr

/-- Why opening an envelope gives no plaintext: a host error, or the version-1 path, which is out of scope and gets no
result (R132, spec/00_scope.md R7(d); DESIGN CHOICE, log entry 17). -/
inductive OpenStop where
  | failed (e : HostError)
  | legacyUnmodelled
  deriving DecidableEq, Repr

/-- `addPadding(m)` (R124). -/
def addPadding (m : List Byte) : List Byte :=
  m ++ List.replicate (64 - m.length % 64) (BitVec.ofNat 8 (64 - m.length % 64))

/-- `removePadding(d)` (R125), the checks in the spec's order. -/
def removePadding (d : List Byte) : Except HostError (List Byte) :=
  match d.getLast? with
  | none => .error .invalidPadding
  | some p =>
    if p = 0 ∨ 64 < p.toNat then .error .invalidPadding
    else if d.length < p.toNat then .error .invalidPadding
    else if (d.drop (d.length - p.toNat)).any (fun x => decide (x ≠ p)) then .error .invalidPadding
    else .ok (d.take (d.length - p.toNat))

/-- The UTF-8 bytes of a password (spec/42_kdf.md R101; PRESUMED, log entry 16). -/
def utf8 (pw : String) : List Byte := pw.toUTF8.data.toList.map UInt8.toBitVec

/-- The whole 64-byte blocks of a byte string, in order. -/
def blocksOf (q : List Byte) : List Block :=
  (List.range (q.length / 64)).map fun k => Vector.ofFn fun i : Fin 64 => q.getD (64 * k + i.val) 0

/-- Every block by itself through f, the results one after another (R126: no chaining). -/
def mapBlocks (f : Block → Block) (q : List Byte) : List Byte := (blocksOf q).flatMap fun b => (f b).toList

/-- The iteration count the façade uses, ITER_DEFAULT (R126, spec/00_scope.md R9). -/
def iterDefault : Nat := 150000

/-- The round keys of a password and a salt (R126). -/
def messageKeys (T : Tables) (pw : String) (salt : List Byte) : Vector Half 16 :=
  schedule T (kdfFunction T (utf8 pw ++ salt) iterDefault)

/-- `encryptMessage(m, pw, s)` (R126). -/
def encryptMessage (T : Tables) (m : List Byte) (pw : String) (salt : List Byte) : List Byte :=
  mapBlocks (feistelEnc T (messageKeys T pw salt)) (addPadding m)

/-- `decryptMessage(c, pw, s)` (R127). -/
def decryptMessage (T : Tables) (c : List Byte) (pw : String) (salt : List Byte) : Except HostError (List Byte) :=
  if c.length = 0 ∨ c.length % 64 ≠ 0 then .error .invalidInput
  else match removePadding (mapBlocks (feistelDec T (messageKeys T pw salt)) c) with
    | .ok m => .ok m
    | .error _ => .error .incorrectPasswordOrCorrupted

/-- `verifyTag(data, t, key)` (R128): false where t is not 32 bytes, else TAG_VERIFY's comparison
(DESIGN CHOICE, log entry 18). -/
def verifyTag (T : Tables) (data t key : List Byte) : Bool :=
  if t.length ≠ 32 then false
  else tagMatches (tagFunction T data key) (Vector.ofFn fun i : Fin 32 => t.getD i.val 0)

/-- The version-2 mark of an envelope: 0x02 and the ASCII bytes of BLA5 (R129). -/
def envelopeMark : List Byte := [0x02, 0x42, 0x4C, 0x41, 0x35]

/-- The mark of the version-1 format: 0x01 and the ASCII bytes of BLKE (R132). -/
def legacyMark : List Byte := [0x01, 0x42, 0x4C, 0x4B, 0x45]

/-- `seal(m, pw, s)` (R130): header, tag, ciphertext, as R129 lays them out. -/
def sealMessage (T : Tables) (m : List Byte) (pw : String) (salt : Half) : List Byte :=
  let c := encryptMessage T m pw salt.toList
  let hdr := envelopeMark ++ salt.toList
  hdr ++ (tagFunction T (hdr ++ c) salt.toList).toList ++ c

/-- The BLA-512 path of `open` (R131): the tag is checked before any decryption (conflict C5). -/
def openVersion2 (T : Tables) (e : List Byte) (pw : String) : Except OpenStop (List Byte) :=
  let salt := (e.drop 5).take 32
  let t := (e.drop 37).take 32
  let c := e.drop 69
  if verifyTag T (e.take 37 ++ c) t salt then
    match decryptMessage T c pw salt with
    | .ok m => .ok m
    | .error x => .error (.failed x)
  else .error (.failed .tamperedOrWrongPassword)

/-- `open(e, pw)` (R131) with the dispatch on version and identifier (R132). -/
def openEnvelope (T : Tables) (e : List Byte) (pw : String) : Except OpenStop (List Byte) :=
  if e.length < 69 then .error (.failed .invalidInput)
  else if e.take 5 = envelopeMark then openVersion2 T e pw
  else if e.take 5 = legacyMark then .error .legacyUnmodelled
  else .error (.failed .unsupportedFormat)

end Sys2Proof.Machine
end

