-- ==== Sys2Proof/Machine/HostProgram.lean ====
section
/-! DEFINITION. Host programs as lists of inputs: the operations of spec/30_encoding.md R80, the pseudo-instructions of
R82, the host sequence of spec/48_host_facade.md R134, and the run of such a list. -/

namespace Sys2Proof.Machine

/-- The offset of a register (spec/20_memory.md R52). -/
def regOffset : Reg → Nat
  | .id => 0x00
  | .version => 0x04
  | .cmd => 0x08
  | .status => 0x0C
  | .irqEn => 0x10
  | .irqStatus => 0x14
  | .iter => 0x18
  | .msgLen => 0x1C
  | .keyLen => 0x20

/-- The first offset of a buffer, base_X of R52. -/
def bufferBase : Buffer → Nat
  | .data => 0x40
  | .mkey => 0x80
  | .tag => 0xC0
  | .exptag => 0xE0
  | .rk => 0x100
  | .msgbuf => 0x1000

/-- The access of `wr OFF, VAL` (R80). -/
abbrev wrAccess (off : Nat) (v : Word) : Access := .write (Config.coreBase + off) 4 v

/-- The access of `rd OFF` (R80). -/
abbrev rdAccess (off : Nat) : Access := .read (Config.coreBase + off) 4

/-- `wr OFF, VAL` (R80). -/
def wr (off : Nat) (v : Word) : Input := .access (wrAccess off v)

/-- `rd OFF` (R80); the value read is the bus's answer. -/
def rd (off : Nat) : Input := .access (rdAccess off)

/-- `cmd M` (R82). -/
def cmd (i : Instr) : Input := wr (regOffset .cmd) (encode i)

/-- The accesses of a `wait` (R82) on a busy core that completes after the given number of polls: that many reads of
STATUS find it busy, the core completes, and the next read finds it idle. The loop itself is `hostWait` of
Machine/HostLoop.lean (DESIGN CHOICE, log entry 9). -/
def waitPolls (polls : Nat) : List Input :=
  List.replicate polls (rd (regOffset .status)) ++ [.coreTurn, rd (regOffset .status)]

/-- The accesses of a `run M` (R82) that is accepted and completes after the given number of polls; the loop itself is
`hostRun` of Machine/HostLoop.lean. -/
def runCommand (i : Instr) (polls : Nat) : List Input := cmd i :: waitPolls polls

/-- The offsets and words of `wrbuf X+i, bytes` (R82), with zero bytes past the end of the string. -/
def wrbufWords (b : Buffer) (i : Nat) (bytes : List Byte) : List (Nat × Word) :=
  (List.range ((bytes.length + 3) / 4)).map fun m =>
    (bufferBase b + i + 4 * m,
      be32 (bytes.getD (4 * m) 0) (bytes.getD (4 * m + 1) 0) (bytes.getD (4 * m + 2) 0) (bytes.getD (4 * m + 3) 0))

/-- `wrbuf X+i, bytes` (R82): word by word. -/
def wrbuf (b : Buffer) (i : Nat) (bytes : List Byte) : List Input := (wrbufWords b i bytes).map fun p => wr p.1 p.2

/-- The offsets of `rdbuf X+i, 4k` (R82). -/
def rdbufOffsets (b : Buffer) (i k : Nat) : List Nat := (List.range k).map fun m => bufferBase b + i + 4 * m

/-- `rdbuf X+i, 4k` (R82): the k word reads. -/
def rdbuf (b : Buffer) (i k : Nat) : List Input := (rdbufOffsets b i k).map rd

/-- `clrirq` (R82). -/
def clrirq : Input := wr (regOffset .irqStatus) 0x3

/-- `clrerr` (R82). -/
def clrerr : Input := wr (regOffset .status) 0x2

/-- The register writes of step 1 of R134. MSG_LEN's word is the length mod 2^32; for a length of 2^32 or more, which
only a MSGBUF as large could hold, no rule says what the write carries (DESIGN CHOICE, log entry 22). -/
def kdfRegisters (pw : String) (salt : List Byte) : List (Nat × Word) :=
  [(regOffset .msgLen, BitVec.ofNat 32 (utf8 pw ++ salt).length), (regOffset .iter, BitVec.ofNat 32 iterDefault)]

/-- The register writes that give a tag its two lengths (R134, R128), each mod 2^32; for a length of 2^32 or more no rule
says what the write carries (DESIGN CHOICE, log entry 22). -/
def tagRegisters (keyLen msgLen : Nat) : List (Nat × Word) :=
  [(regOffset .keyLen, BitVec.ofNat 32 keyLen), (regOffset .msgLen, BitVec.ofNat 32 msgLen)]

/-- The accesses of steps 1 and 2 of R134: the password and the salt into MSGBUF, then KDF and KSCHED. -/
def keySetup (pw : String) (salt : List Byte) (kdfPolls ksPolls : Nat) : List Input :=
  wrbuf .msgbuf 0 (utf8 pw ++ salt)
    ++ (kdfRegisters pw salt).map (fun p => wr p.1 p.2)
    ++ runCommand .kdf kdfPolls ++ runCommand .ksched ksPolls

/-- The accesses of step 3 of R134 for one block: load it, run ENC, read the result back. -/
def encryptBlock (q : Block) (polls : Nat) : List Input :=
  wrbuf .data 0 q.toList ++ runCommand .enc polls ++ rdbuf .data 0 16

/-- The accesses of the tag sequence of R134: `salt ‖ hdr ‖ c` into MSGBUF, the two lengths, TAG_GEN, and the tag read back. -/
def tagSequence (salt : Half) (signed : List Byte) (polls : Nat) : List Input :=
  wrbuf .msgbuf 0 (salt.toList ++ signed)
    ++ (tagRegisters 32 signed.length).map (fun p => wr p.1 p.2)
    ++ runCommand .tagGen polls ++ rdbuf .tag 0 8

/-- Run a list of inputs, one step each, stopping at the first fault or refusal. -/
def runInputs : List Input → State → Host.Outcome State Fault Refusal
  | [], s => .next s
  | x :: rest, s =>
    match step { s with inputs := [x] } with
    | .next t => runInputs rest t
    | .fault r => .fault r
    | .refused r => .refused r

/-- The words the reads of a list of inputs return, in order; a step that is no successful read adds nothing. -/
def wordsRead : List Input → State → List Word
  | [], _ => []
  | x :: rest, s =>
    match step { s with inputs := [x] } with
    | .next t =>
      match x, t.response with
      | .access (.read _ _), some (.value w) => w :: wordsRead rest t
      | _, _ => wordsRead rest t
    | .fault _ => []
    | .refused _ => []

/-- The bytes of the words read, as `rdbuf` appends them (R82). -/
def bytesOfWords (ws : List Word) : List Byte := ws.flatMap fun w => (bytesBe w).toList

end Sys2Proof.Machine
end

