-- ==== Sys2Proof/Machine/HostLoop.lean ====
section
/-! DEFINITION. Host programs that act on what they read: the poll loop of spec/30_encoding.md R82 under fuel, the host
sequence of spec/48_host_facade.md R134 with its check of STATUS.ERR, and verifyTag on the core (R128). The host has
the state of the core only through its accesses; when the core takes its step is not the host's to choose. -/

namespace Sys2Proof.Machine

/-- Whether the core has the turn just before the host's n-th access. A second turn would find the core idle and change
nothing, so these are all the orders of one host program's accesses and the core's completions (spec/20_memory.md R65)
in which no reset falls between the program's accesses (DESIGN CHOICE, log entry 9). R65 and R150 let a reset fall
there, and no rule says what the program then does: such a run is no run of these programs (DESIGN CHOICE, log entry
20). -/
abbrev Turns := Nat → Bool

/-- The core as a host program goes on with it, and how many accesses were made. -/
structure Session where
  core : State
  accesses : Nat
  deriving DecidableEq, Repr

/-- Why a host program ends without its result. That it ends there, with no further access, is the model's choice
(DESIGN CHOICE, log entry 21; for `outOfFuel`, log entry 9). -/
inductive HostStop where
  /-- A `wait` made as many reads as it had fuel for, and each found the core busy. -/
  | outOfFuel
  /-- The bus answered an access with the error response. -/
  | busError (addr : Nat)
  /-- The word read from STATUS had ERR set where the host checks it (R134). -/
  | statusErr (status : Word)
  /-- A step stopped, or answered a read without a word or a write with one. No access of these programs at an offset
  of the window meets it. -/
  | noAnswer
  deriving DecidableEq, Repr

/-- A host program with a result: what it does under given turns. -/
abbrev HostProgram (α : Type) := Turns → Session → Except HostStop (α × Session)

/-- End with a result. -/
def finish {α : Type} (a : α) : HostProgram α := fun _ w => .ok (a, w)

/-- End without one. -/
def stopHost {α : Type} (r : HostStop) : HostProgram α := fun _ _ => .error r

/-- One program and then another that has its result. -/
def andThen {α β : Type} (p : HostProgram α) (f : α → HostProgram β) : HostProgram β := fun turns w =>
  match p turns w with
  | .ok (a, w') => f a turns w'
  | .error r => .error r

/-- The inputs of one access, with the core's turn before it or not, and no reset (DESIGN CHOICE, log entry 20). -/
def accessInputs (turn : Bool) (x : Access) : List Input := if turn then [.coreTurn, .access x] else [.access x]

/-- Make one access; the result is the bus's answer. -/
def makeAccess (x : Access) : HostProgram (Option BusResponse) := fun turns w =>
  match runInputs (accessInputs (turns w.accesses) x) w.core with
  | .next t => .ok (t.response, ⟨t, w.accesses + 1⟩)
  | .fault _ => .error .noAnswer
  | .refused _ => .error .noAnswer

/-- `rd OFF -> name` (R80). -/
def hostRead (off : Nat) : HostProgram Word :=
  andThen (makeAccess (rdAccess off)) fun answer =>
    match answer with
    | some (.value v) => finish v
    | some (.busError a) => stopHost (.busError a)
    | some .done => stopHost .noAnswer
    | none => stopHost .noAnswer

/-- `wr OFF, VAL` (R80). -/
def hostWrite (off : Nat) (v : Word) : HostProgram Unit :=
  andThen (makeAccess (wrAccess off v)) fun answer =>
    match answer with
    | some .done => finish ()
    | some (.busError a) => stopHost (.busError a)
    | some (.value _) => stopHost .noAnswer
    | none => stopHost .noAnswer

/-- Writes, one after another. -/
def hostWrites : List (Nat × Word) → HostProgram Unit
  | [] => finish ()
  | (off, v) :: rest => andThen (hostWrite off v) fun _ => hostWrites rest

/-- Reads, one after another. -/
def hostReads : List Nat → HostProgram (List Word)
  | [] => finish []
  | off :: rest => andThen (hostRead off) fun w => andThen (hostReads rest) fun ws => finish (w :: ws)

/-- `wrbuf X+i, bytes` (R82). -/
def hostWrbuf (b : Buffer) (i : Nat) (bytes : List Byte) : HostProgram Unit := hostWrites (wrbufWords b i bytes)

/-- `rdbuf X+i, 4k -> B` (R82). -/
def hostRdbuf (b : Buffer) (i k : Nat) : HostProgram (List Byte) :=
  andThen (hostReads (rdbufOffsets b i k)) fun ws => finish (bytesOfWords ws)

/-- `wait` (R82): read STATUS, and repeat while bit 0 of what was read is 1. The loop is unbounded; it runs under fuel,
one unit for each read. The result is the last word read. No reset falls between the reads (DESIGN CHOICE, log
entry 20). -/
def hostWait : Nat → HostProgram Word
  | 0 => stopHost .outOfFuel
  | fuel + 1 => andThen (hostRead (regOffset .status)) fun t => if t.getLsbD 0 then hostWait fuel else finish t

/-- `run M` (R82): `cmd M`, then `wait`. -/
def hostRun (fuel : Nat) (i : Instr) : HostProgram Word :=
  andThen (hostWrite (regOffset .cmd) (encode i)) fun _ => hostWait fuel

/-- A `run M` with R134's check that STATUS.ERR is 0, on the word that ended the `wait`: the host's other accesses of a
step come while the core is idle and record nothing, so that word shows every error the step recorded (DESIGN CHOICE,
log entry 9). R134 names the check and not what follows where it fails: the program then ends with `statusErr`, with no
`clrerr` and no retry, and an error recorded before the program fails its first check (DESIGN CHOICE, log entry 21). -/
def hostRunChecked (fuel : Nat) (i : Instr) : HostProgram Unit :=
  andThen (hostRun fuel i) fun t => if t.getLsbD 1 then stopHost (.statusErr t) else finish ()

/-- Steps 1 and 2 of R134: the password and the salt, their length and ITER, KDF, then KSCHED. -/
def hostKeySetup (fuel : Nat) (pw : String) (salt : List Byte) : HostProgram Unit :=
  andThen (hostWrbuf .msgbuf 0 (utf8 pw ++ salt)) fun _ =>
  andThen (hostWrites (kdfRegisters pw salt)) fun _ =>
  andThen (hostRunChecked fuel .kdf) fun _ =>
  hostRunChecked fuel .ksched

/-- Step 3 of R134 for one block. -/
def hostEncryptBlock (fuel : Nat) (q : Block) : HostProgram (List Byte) :=
  andThen (hostWrbuf .data 0 q.toList) fun _ =>
  andThen (hostRunChecked fuel .enc) fun _ =>
  hostRdbuf .data 0 16

/-- Step 3 of R134: block after block, the results one after another. -/
def hostEncryptBlocks (fuel : Nat) : List Block → HostProgram (List Byte)
  | [] => finish []
  | q :: rest =>
    andThen (hostEncryptBlock fuel q) fun c =>
    andThen (hostEncryptBlocks fuel rest) fun cs =>
    finish (c ++ cs)

/-- The host sequence of R134 for one encryptMessage: the keys once, then every block of the padded message. -/
def hostEncryptMessage (fuel : Nat) (m : List Byte) (pw : String) (salt : List Byte) : HostProgram (List Byte) :=
  andThen (hostKeySetup fuel pw salt) fun _ => hostEncryptBlocks fuel (blocksOf (addPadding m))

/-- The tag part of R134. -/
def hostTag (fuel : Nat) (salt : Half) (signed : List Byte) : HostProgram (List Byte) :=
  andThen (hostWrbuf .msgbuf 0 (salt.toList ++ signed)) fun _ =>
  andThen (hostWrites (tagRegisters 32 signed.length)) fun _ =>
  andThen (hostRunChecked fuel .tagGen) fun _ =>
  hostRdbuf .tag 0 8

/-- `seal(m, pw, s)` (R130) on the core: both parts of R134, and the envelope put together. -/
def hostSeal (fuel : Nat) (m : List Byte) (pw : String) (salt : Half) : HostProgram (List Byte) :=
  andThen (hostEncryptMessage fuel m pw salt.toList) fun c =>
  andThen (hostTag fuel salt (envelopeMark ++ salt.toList ++ c)) fun t =>
  finish (envelopeMark ++ salt.toList ++ t ++ c)

/-- `verifyTag(data, t, key)` (R128) on the core: false without an access where t is not 32 bytes; else EXPTAG, MSGBUF
and the two lengths are loaded, TAG_VERIFY runs, and the result is STATUS.TAG_MATCH, bit 8 of STATUS. -/
def hostVerifyTag (fuel : Nat) (data t key : List Byte) : HostProgram Bool :=
  if t.length ≠ 32 then finish false
  else
    andThen (hostWrbuf .exptag 0 t) fun _ =>
    andThen (hostWrbuf .msgbuf 0 (key ++ data)) fun _ =>
    andThen (hostWrites (tagRegisters key.length data.length)) fun _ =>
    andThen (hostRun fuel .tagVerify) fun _ =>
    andThen (hostRead (regOffset .status)) fun status =>
    finish (status.getLsbD 8)

end Sys2Proof.Machine
end

