-- ==== Sys2Proof/Safety.lean ====
section
/-! DEFINITION. What counts as a sound state and a safe run, in the terms the statements use: the invariant every step
keeps, which accesses reach the core, and the frames of a completion. -/

namespace Sys2Proof.Safety

open Sys2Proof.Machine

/-- What holds of every state a run reaches: MSGBUF's memory is canonical and inside the buffer (R42), and while busy
LATCH holds a command that was accepted (R47, R83, R84) and TAG_MATCH is 0 (R29). -/
structure Inv (s : State) : Prop where
  msgbufCanonical : Memory.wf s.msgbuf
  msgbufInside : ∀ c ∈ s.msgbuf, c.1 < Config.msgBufBytes
  latchAccepted : s.seq = .busy → ∃ i, decode s.latch = .ok i ∧ lenOk i s = true
  matchClearWhileBusy : s.seq = .busy → s.tagMatch = false

/-- The bus address of an access. -/
def accessAddr : Access → Nat
  | .read a _ => a
  | .write a _ _ => a

/-- How many bytes an access moves. -/
def accessBytes : Access → Nat
  | .read _ n => n
  | .write _ n _ => n

/-- The access has an offset in the core (spec/20_memory.md R51; DEDUCED, log entry 10). -/
def ReachesCore (x : Access) : Prop := Config.coreBase ≤ accessAddr x

/-- The only outcome other than a next state that a sound run has: a host access below the core's base address. -/
def SafeOutcome (s : State) : Host.Outcome State Fault Refusal → Prop
  | .next _ => True
  | .fault _ => False
  | .refused r => ∃ x rest, s.inputs = .access x :: rest ∧ ¬ ReachesCore x ∧ r = .outsideWindow (accessAddr x)

/-- The registers no command writes, and the model's own fields, are as they were. -/
structure ControlKept (s t : State) : Prop where
  errCode : t.errCode = s.errCode
  irqEn : t.irqEn = s.irqEn
  iter : t.iter = s.iter
  msgLen : t.msgLen = s.msgLen
  keyLen : t.keyLen = s.keyLen
  latch : t.latch = s.latch
  inputs : t.inputs = s.inputs
  response : t.response = s.response
  draws : t.draws = s.draws

/-- What every completion does and leaves (spec/40_control.md R85): SEQ idle, DONE_IP set, ERR_IP as it was, and the
registers of `ControlKept` unchanged. -/
structure Completed (s t : State) : Prop where
  idle : t.seq = .idle
  doneSet : t.irqStatus.getLsbD 0 = true
  errIpKept : t.irqStatus.getLsbD 1 = s.irqStatus.getLsbD 1
  control : ControlKept s t

/-- Every byte of every buffer but the named ones reads as before. -/
def BuffersKept (written : List Buffer) (s t : State) : Prop :=
  ∀ b, b ∉ written → ∀ i, readByte b i t = readByte b i s

/-- The core has the turn at least once in any `fuel` accesses of the host: the weak fairness of spec/40_control.md R86
with the bound that a wait of this fuel needs. -/
def PromptTurns (fuel : Nat) (turns : Turns) : Prop := ∀ n, ∃ k, k < fuel ∧ turns (n + k) = true

/-- A host program ended with a result that P holds of. It may only have run out of fuel, and only under turns that kept
the core from completing. -/
def EndsWith {α : Type} (fuel : Nat) (turns : Turns) (P : α → Session → Prop) :
    Except HostStop (α × Session) → Prop
  | .ok (a, w) => P a w
  | .error .outOfFuel => ¬ PromptTurns fuel turns
  | .error (.busError _) => False
  | .error (.statusErr _) => False
  | .error .noAnswer => False

/-- A host program stopped at its check of STATUS.ERR, which was set; or it ran out of fuel as in `EndsWith`. -/
def EndsInError {α : Type} (fuel : Nat) (turns : Turns) : Except HostStop (α × Session) → Prop
  | .ok _ => False
  | .error .outOfFuel => ¬ PromptTurns fuel turns
  | .error (.statusErr status) => status.getLsbD 1 = true
  | .error (.busError _) => False
  | .error .noAnswer => False

end Sys2Proof.Safety
end

