-- ==== Sys2Proof/Certificates/Slice0/Obligations.lean ====
section
/-! DEFINITION. The statements about the BLA-512 cipher core that the provers settle. Each docstring names the rules of
spec/ it formalises, or the log entry of a choice of the model's that it rests on. -/

open Sys2Proof Sys2Proof.Machine Sys2Proof.Safety

/-! ## The command word -/

/-- Decode and encode agree (30_encoding.md R72 to R76, R81): every command is well-formed and has exactly one word. -/
def Obligations.EveryCommandHasExactlyOneWord : Prop :=
  ∀ (i : Instr) (v : Word), i.wellFormed = true ∧ (decode v = .ok i ↔ v = encode i)

/-- The match and mask table of 30_encoding.md R73 and the decoder name the same words. -/
def Obligations.DecodedWordsAreTheTablesRows : Prop :=
  (∀ v i, decode v = .ok i → matchesRow v (rowOf i) = true) ∧
  (∀ v row, row ∈ matchMaskRows → matchesRow v row = true → ∃ i, decode v = .ok i ∧ rowOf i = row) ∧
  (∀ v a b, a ∈ matchMaskRows → b ∈ matchMaskRows → matchesRow v a = true → matchesRow v b = true → a = b)

/-- 30_encoding.md R72, R73 and R78: the checks of WellFormed on a word's fields, and the decoder, agree. -/
def Obligations.FieldChecksNameTheDecodableWords : Prop :=
  ∀ (v : Word), ((splitFields v).wellFormed = true ↔ ∃ i, decode v = .ok i) ∧
    ∀ i, decode v = .ok i → splitFields v = i.fields

/-- Words of the table in 95_test_vectors.md section 2.0. -/
def Obligations.SpecWordsDecodeAsListed : Prop :=
  decode 0x00000000 = .ok .nop ∧ decode 0x00003001 = .ok (.sboxSub 3) ∧ decode 0x00008001 = .ok .sboxSubp ∧
  decode 0x00000510 = .ok (.ffunc 5) ∧ decode 0x00000012 = .ok .dec ∧ decode 0x00000041 = .ok .tagVerify ∧
  decode 0x000000F0 = .ok .zeroize ∧
  (∀ v ∈ [(0x0000B001 : Word), 0x00000101, 0x00001010, 0x80000030], ∀ i, decode v ≠ .ok i)

/-! ## Acceptance and the sequencer -/

/-- The completion step runs the command that LATCH matches (40_control.md R85, 10_state.md R47); that the inputs decide whose turn it is, is the model's choice (log entry 5). -/
def Obligations.StepCompletesTheLatchedCommand : Prop :=
  ∀ (s : State) (i : Instr), s.seq = .busy → decode s.latch = .ok i →
    (s.inputs = [] → step s = exec i s) ∧
    (∀ rest, s.inputs = .coreTurn :: rest → step s = exec i { s with inputs := rest })

/-- 40_control.md R83 and R84, whole. The inputs and the response are the model's own fields (log entries 5 and 6). -/
def Obligations.CommandWriteIsAcceptedOrRecorded : Prop :=
  ∀ (s : State) (v : Word) (rest : List Input), s.inputs = wr (regOffset .cmd) v :: rest →
    step s = .next
      (match s.seq, decode v with
      | .busy, _ =>
        { s with inputs := rest, response := some .done, irqStatus := s.irqStatus ||| 2#2,
                 errCode := if s.errCode = .none then .busyCmd else s.errCode }
      | .idle, .error _ =>
        { s with inputs := rest, response := some .done, irqStatus := s.irqStatus ||| 2#2,
                 errCode := if s.errCode = .none then .illegalCmd else s.errCode }
      | .idle, .ok i =>
        if (match i with
            | .kdf => decide (s.msgLen.toNat ≤ Config.msgBufBytes)
            | .tagGen => decide (s.keyLen.toNat + s.msgLen.toNat ≤ Config.msgBufBytes)
            | .tagVerify => decide (s.keyLen.toNat + s.msgLen.toNat ≤ Config.msgBufBytes)
            | _ => true) = true then
          { s with inputs := rest, response := some .done, tagMatch := false, latch := v, seq := .busy }
        else
          { s with inputs := rest, response := some .done, irqStatus := s.irqStatus ||| 2#2,
                   errCode := if s.errCode = .none then .lenErr else s.errCode })

/-- 30_encoding.md R78: illegal is said of the rows of R73's table, not of the decoder. -/
def Obligations.WordMatchingNoRowStartsNothing : Prop :=
  ∀ (s : State) (v : Word) (rest : List Input), s.seq = .idle → s.inputs = wr (regOffset .cmd) v :: rest →
    (∀ row ∈ matchMaskRows, matchesRow v row = false) →
    step s = .next
      { s with inputs := rest, response := some .done, irqStatus := s.irqStatus ||| 2#2,
               errCode := if s.errCode = .none then .illegalCmd else s.errCode }

/-- 40_control.md R85: no command can fail once accepted. -/
def Obligations.AcceptedCommandCompletes : Prop :=
  ∀ (s : State), Inv s → s.seq = .busy → s.inputs = [] →
    ∃ t, step s = .next t ∧ t.seq = .idle ∧ t.irqStatus.getLsbD 0 = true

/-- 40_control.md R85, R86 and 70_reset_and_hazards.md R150: nothing the host does ends a command. -/
def Obligations.BusyEndsOnlyByCompletionOrReset : Prop :=
  ∀ (s t : State), step s = .next t → s.seq = .busy → t.seq = .idle →
    (∃ rest, s.inputs = .reset :: rest) ∨ s.inputs = [] ∨ (∃ rest, s.inputs = .coreTurn :: rest)

/-- 20_memory.md R65(a): a command computes from the buffers and registers as they stood when it was accepted. That an access past the window's end is answered with a bus error is the model's choice (log entry 10). -/
def Obligations.HostCannotDisturbARunningCommand : Prop :=
  ∀ (s : State) (i : Instr) (xs : List Access), Inv s → s.seq = .busy → decode s.latch = .ok i →
    (∀ x ∈ xs, ReachesCore x) →
    ∃ t u, runInputs (xs.map .access ++ [.coreTurn]) s = .next t ∧ exec i s = .next u ∧ t.seq = .idle ∧
      t.data = u.data ∧ t.mkey = u.mkey ∧ t.tag = u.tag ∧ t.exptag = u.exptag ∧ t.rk = u.rk ∧
      t.msgbuf = u.msgbuf ∧ t.tagMatch = u.tagMatch ∧ t.iter = u.iter ∧ t.msgLen = u.msgLen ∧ t.keyLen = u.keyLen

/-! ## The bus -/

/-- The read column of 20_memory.md R57 for the registers, and the STATUS bits of 10_state.md R27 to R30. -/
def Obligations.RegisterReadsReturnTheirValues : Prop :=
  ∀ (s : State) (r : Reg) (rest : List Input), s.inputs = rd (regOffset r) :: rest →
    step s = .next { s with inputs := rest, response := some (.value (BitVec.ofNat 32
      (match r with
      | .id => 0x424C4135
      | .version => 2
      | .cmd => 0
      | .status =>
        (if s.tagMatch = true then 256 else 0)
          + (match s.errCode with
            | .none => 0
            | .illegalCmd => 0x10 + 2
            | .lenErr => 0x20 + 2
            | .busyCmd => 0x30 + 2
            | .busyAccess => 0x40 + 2)
          + (if s.seq = .busy then 1 else 0)
      | .irqEn => s.irqEn.toNat
      | .irqStatus => s.irqStatus.toNat
      | .iter => s.iter.toNat
      | .msgLen => s.msgLen.toNat
      | .keyLen => s.keyLen.toNat))) }

/-- The write column of 20_memory.md R57 but for CMD (stated above) and the writable buffers (stated below). -/
def Obligations.RegisterWritesWhileIdle : Prop :=
  ∀ (s : State) (v : Word) (rest : List Input), s.seq = .idle →
    let u := { s with inputs := rest, response := some BusResponse.done }
    (s.inputs = wr 0x00 v :: rest → step s = .next u) ∧
    (s.inputs = wr 0x04 v :: rest → step s = .next u) ∧
    (∀ m < 8, s.inputs = wr (0xC0 + 4 * m) v :: rest → step s = .next u) ∧
    (s.inputs = wr 0x0C v :: rest → step s = .next (if v.getLsbD 1 = true then { u with errCode := .none } else u)) ∧
    (s.inputs = wr 0x10 v :: rest → step s = .next { u with irqEn := v.extractLsb' 0 2 }) ∧
    (s.inputs = wr 0x14 v :: rest →
      ∃ t, step s = .next t ∧ t = { u with irqStatus := t.irqStatus } ∧
        ∀ b < 2, t.irqStatus.getLsbD b = (s.irqStatus.getLsbD b && !v.getLsbD b)) ∧
    (s.inputs = wr 0x18 v :: rest → step s = .next { u with iter := v }) ∧
    (s.inputs = wr 0x1C v :: rest → step s = .next { u with msgLen := v }) ∧
    (s.inputs = wr 0x20 v :: rest → step s = .next { u with keyLen := v })

/-- 20_memory.md R56, with the frame of a buffer write. MSGBUF's canonical form is the model's (log entry 11). -/
def Obligations.BufferWordsAreBigEndian : Prop :=
  ∀ (s : State) (b : Buffer) (m : Nat) (rest : List Input), s.seq = .idle → Memory.wf s.msgbuf →
    4 * m < bufferSize b →
    (s.inputs = rd (bufferBase b + 4 * m) :: rest →
      ∃ w, step s = .next { s with inputs := rest, response := some (.value w) } ∧
        ∀ k < 4, w.extractLsb' (24 - 8 * k) 8 = readByte b (4 * m + k) s) ∧
    (∀ v, b ≠ .tag → s.inputs = wr (bufferBase b + 4 * m) v :: rest →
      ∃ t, step s = .next t ∧
        (∀ k < 4, readByte b (4 * m + k) t = v.extractLsb' (24 - 8 * k) 8) ∧
        (∀ c j, (c ≠ b ∨ j < 4 * m ∨ 4 * m + 4 ≤ j) → readByte c j t = readByte c j s) ∧
        t = { s with inputs := rest, response := some .done, data := t.data, mkey := t.mkey, exptag := t.exptag,
                     rk := t.rk, msgbuf := t.msgbuf } ∧
        Memory.wf t.msgbuf)

/-- 20_memory.md R53, R54, R55, with 60_exceptions.md R138. Past the window's end: the next statement. -/
def Obligations.BadAccessIsABusError : Prop :=
  ∀ (s : State) (x : Access) (rest : List Input) (off : Nat), s.inputs = .access x :: rest →
    accessAddr x = Config.coreBase + off → off < Config.winBytes →
    (accessBytes x ≠ 4 ∨ off % 4 ≠ 0 ∨ (0x24 ≤ off ∧ off < 0x40) ∨ (0x300 ≤ off ∧ off < 0x1000)) →
    step s = .next { s with inputs := rest, response := some (.busError (accessAddr x)) }

/-- The model's choice, log entry 10: 20_memory.md R51 leaves these addresses to the platform, and 95_test_vectors.md section 2.1 gives a bus error past the end. -/
def Obligations.AccessOutsideTheWindow : Prop :=
  ∀ (s : State) (x : Access) (rest : List Input), s.inputs = .access x :: rest →
    (Config.coreBase + Config.winBytes ≤ accessAddr x →
      step s = .next { s with inputs := rest, response := some (.busError (accessAddr x)) }) ∧
    (step s = .refused (.outsideWindow (accessAddr x)) ↔ accessAddr x < Config.coreBase)

/-- 20_memory.md R60(a): the value is free (log entry 4), so it is named here and nothing is said of it. -/
def Obligations.BusyBufferReadIsADraw : Prop :=
  ∀ (s : State) (b : Buffer) (m : Nat) (rest : List Input), s.seq = .busy → 4 * m < bufferSize b →
    s.inputs = rd (bufferBase b + 4 * m) :: rest →
    step s = .next { s with inputs := rest, response := some (.value (Config.draw s.draws)), draws := s.draws + 1 }

/-- 20_memory.md R60(c) with record_error of 60_exceptions.md R137. -/
def Obligations.BusyWritesToInputsAreDropped : Prop :=
  ∀ (s : State) (v : Word) (rest : List Input) (off : Nat), s.seq = .busy → s.inputs = wr off v :: rest →
    (off = 0x18 ∨ off = 0x1C ∨ off = 0x20 ∨
      ∃ b m, b ≠ .tag ∧ 4 * m < bufferSize b ∧ off = bufferBase b + 4 * m) →
    step s = .next
      { s with inputs := rest, response := some .done, irqStatus := s.irqStatus ||| 2#2,
               errCode := if s.errCode = .none then .busyAccess else s.errCode }

/-- 20_memory.md R60(d). -/
def Obligations.BusyControlWritesActAsWhenIdle : Prop :=
  ∀ (s : State) (v : Word) (rest : List Input) (off : Nat), s.seq = .busy → s.inputs = wr off v :: rest →
    (off = 0x00 ∨ off = 0x04 ∨ off = 0x0C ∨ off = 0x10 ∨ off = 0x14 ∨ ∃ m, m < 8 ∧ off = 0xC0 + 4 * m) →
    ∃ t, step { s with seq := .idle } = .next t ∧ step s = .next { t with seq := .busy }

/-- 20_memory.md R58: a read never changes state. -/
def Obligations.ReadsNeverChangeTheCore : Prop :=
  ∀ (s t : State) (a n : Nat) (rest : List Input), s.inputs = .access (.read a n) :: rest → step s = .next t →
    t = { s with inputs := rest, response := t.response, draws := t.draws }

/-! ## Errors, the interrupt and reset -/

/-- 10_state.md R28 and 60_exceptions.md R137, R142: the first error is kept. -/
def Obligations.FirstErrorIsKeptUntilCleared : Prop :=
  ∀ (s t : State), step s = .next t → s.errCode ≠ .none → t.errCode ≠ s.errCode →
    t.errCode = .none ∧
      ((∃ rest, s.inputs = .reset :: rest) ∨
        ∃ v rest, s.inputs = wr (regOffset .status) v :: rest ∧ v.getLsbD 1 = true)

/-- 10_state.md R32 and 60_exceptions.md R139: a pending source stays pending until it is cleared. -/
def Obligations.PendingBitsFallOnlyByHostOrReset : Prop :=
  ∀ (s t : State) (b : Nat), step s = .next t → s.irqStatus.getLsbD b = true → t.irqStatus.getLsbD b = false →
    (∃ rest, s.inputs = .reset :: rest) ∨
      ∃ v rest, s.inputs = wr (regOffset .irqStatus) v :: rest ∧ v.getLsbD b = true

/-- 10_state.md R33. -/
def Obligations.IrqIsTheEnabledPendingLevel : Prop :=
  (∀ (s : State), irq s = true ↔
    (s.irqStatus.getLsbD 0 = true ∧ s.irqEn.getLsbD 0 = true) ∨
    (s.irqStatus.getLsbD 1 = true ∧ s.irqEn.getLsbD 1 = true)) ∧ irq State.reset = false

/-- 70_reset_and_hazards.md R150 with the values of 10_state.md R49. -/
def Obligations.ResetSetsEveryRegisterAndBuffer : Prop :=
  ∀ (s : State) (rest : List Input), s.inputs = .reset :: rest →
    ∃ t, step s = .next t ∧ t.errCode = .none ∧ t.tagMatch = false ∧ t.irqEn = 0 ∧ t.irqStatus = 0 ∧
      t.iter = 0x000249F0 ∧ t.msgLen = 0 ∧ t.keyLen = 0 ∧ t.seq = .idle ∧ t.latch = 0 ∧ irq t = false ∧
      statusWord t = 0 ∧ (∀ b j, readByte b j t = 0)

/-- 10_state.md R49's table; the constants S, P, MIXC and IDSTR are no part of the state, so reset cannot change them. -/
def Obligations.StateAfterResetIsAsListed : Prop :=
  statusWord State.reset = 0 ∧ State.reset.irqEn = 0 ∧ State.reset.irqStatus = 0 ∧
  State.reset.iter.toNat = 150000 ∧ State.reset.msgLen = 0 ∧ State.reset.keyLen = 0 ∧
  (∀ b j, readByte b j State.reset = 0) ∧ State.reset.seq = .idle ∧ State.reset.latch = 0 ∧
  irq State.reset = false ∧ readReg .id State.reset = 0x424C4135 ∧ readReg .version State.reset = 2

/-- 10_state.md R29: no other event changes it. -/
def Obligations.TagMatchChangesOnlyAsListed : Prop :=
  ∀ (s t : State), step s = .next t → t.tagMatch ≠ s.tagMatch →
    (∃ rest, s.inputs = .reset :: rest) ∨
    (s.seq = .busy ∧ decode s.latch = .ok .tagVerify ∧ (s.inputs = [] ∨ ∃ rest, s.inputs = .coreTurn :: rest)) ∨
    (s.seq = .idle ∧ t.seq = .busy ∧ t.tagMatch = false ∧ ∃ v rest, s.inputs = wr (regOffset .cmd) v :: rest)

/-- 10_state.md R39 and the frame rule of 40_control.md R85. -/
def Obligations.TagChangesOnlyByItsCommands : Prop :=
  ∀ (s t : State), step s = .next t → t.tag ≠ s.tag →
    (∃ rest, s.inputs = .reset :: rest) ∨
    (s.seq = .busy ∧ (s.inputs = [] ∨ ∃ rest, s.inputs = .coreTurn :: rest) ∧
      ∃ i, i ∈ [Instr.tagGen, .tagVerify, .zeroize] ∧ decode s.latch = .ok i)

/-! ## Invariants of the machine -/

/-- An invariant every step keeps: 10_state.md R42, R47, R29, 40_control.md R83 to R85; the canonical form is the model's (log entry 11). -/
def Obligations.StepKeepsTheInvariant : Prop :=
  ∀ (s t : State), Inv s → step s = .next t → Inv t

/-- The base case of the invariant, at 10_state.md R49. -/
def Obligations.ResetMeetsTheInvariant : Prop :=
  Inv State.reset

/-- 40_control.md R85 and 60_exceptions.md R135: no command fails once accepted, and the core goes on taking accesses. That an access below CORE_BASE is refused and one past the window's end is answered is the model's choice (log entry 10), from 20_memory.md R51 and U12. -/
def Obligations.SoundStatesNeverFault : Prop :=
  ∀ (s : State), Inv s → SafeOutcome s (step s)

/-! ## The commands: what each computes, what it leaves, and that it completes -/

/-- NOP (40_control.md R87). -/
def Obligations.NopOnlyCompletes : Prop :=
  ∀ (s : State), exec .nop s = .next { s with seq := .idle, irqStatus := s.irqStatus ||| 1#2 }

/-- SBOX_SUB (41_sbox_perm.md R94). -/
def Obligations.SboxSubSubstitutesEveryByte : Prop :=
  ∀ (sel : Fin 8) (s : State), ∃ t, exec (.sboxSub sel) s = .next t ∧
    (∀ j : Fin 64, t.data[j] = tables.sbox sel s.data[j]) ∧
    t.tagMatch = s.tagMatch ∧ BuffersKept [.data] s t ∧ Completed s t

/-- SBOX_SUBP (41_sbox_perm.md R95). -/
def Obligations.SboxSubpSubstitutesByPosition : Prop :=
  ∀ (s : State), ∃ t, exec .sboxSubp s = .next t ∧
    (∀ j : Fin 64, t.data[j] = tables.sbox ⟨j.val % 8, Nat.mod_lt _ (by decide)⟩ s.data[j]) ∧
    t.tagMatch = s.tagMatch ∧ BuffersKept [.data] s t ∧ Completed s t

/-- BITPERM512 (41_sbox_perm.md R96, R98), bits numbered as 00_scope.md R16 says. That the permuted bits are packed MSB first too is R16's own reading, which the model takes (log entry 7). P reaches every position (stated below), so this fixes all of DATA. -/
def Obligations.Bitperm512MovesEveryBit : Prop :=
  ∀ (s : State), ∃ t, exec .bitperm512 s = .next t ∧
    (∀ k : Fin 512, bitOf t.data (tables.perm k).val = bitOf s.data k.val) ∧
    t.tagMatch = s.tagMatch ∧ BuffersKept [.data] s t ∧ Completed s t

/-- BITPERM256 (41_sbox_perm.md R97, R99), bits numbered as 00_scope.md R16 says. That the permuted bits are packed MSB first too is R16's own reading, which the model takes (log entry 7). -/
def Obligations.Bitperm256MovesTheHalfBlocksBits : Prop :=
  ∀ (s : State), ∃ t, exec .bitperm256 s = .next t ∧
    (∀ k : Fin 512, (tables.perm k).val < 256 →
      bitOf t.data (tables.perm k).val = (decide (k.val < 256) && bitOf s.data k.val)) ∧
    (∀ j : Fin 64, 32 ≤ j.val → t.data[j] = s.data[j]) ∧
    t.tagMatch = s.tagMatch ∧ BuffersKept [.data] s t ∧ Completed s t

/-- FFUNC (44_feistel.md R109, R110, R113): every neighbour is read from the snapshot t. -/
def Obligations.FfuncEvaluatesOneRound : Prop :=
  ∀ (r : Fin 16) (s : State), ∃ t, exec (.ffunc r) s = .next t ∧
    (∃ x u : Half,
      (∀ i : Fin 32, x[i] = tables.sbox ⟨r.val % 8, Nat.mod_lt _ (by decide)⟩ (s.data[i.val + 32] ^^^ s.rk[r][i])) ∧
      (∀ i : Fin 32, u[i] = x[i] ^^^ ((x[(i.val + 31) % 32] >>> 3) ||| (x[(i.val + 1) % 32] <<< 5))) ∧
      (∀ i : Fin 32, t.data[i.val] = if r.val % 4 = 0 then (perm256 tables u)[i] else u[i])) ∧
    (∀ j : Fin 64, 32 ≤ j.val → t.data[j] = s.data[j]) ∧
    t.tagMatch = s.tagMatch ∧ BuffersKept [.data] s t ∧ Completed s t

/-- ENC (44_feistel.md R111, R114). -/
def Obligations.EncRunsSixteenRounds : Prop :=
  ∀ (s : State), ∃ t, exec .enc s = .next t ∧
    (∃ l r : Nat → Half, l 0 = leftHalf s.data ∧ r 0 = rightHalf s.data ∧
      (∀ n : Fin 16, l (n.val + 1) = r n.val ∧
        r (n.val + 1) = xorBytes (l n.val) (feistelF tables (r n.val) s.rk[n] n)) ∧
      leftHalf t.data = r 16 ∧ rightHalf t.data = l 16) ∧
    t.tagMatch = s.tagMatch ∧ BuffersKept [.data] s t ∧ Completed s t

/-- DEC (44_feistel.md R112, R115; conflict C1). -/
def Obligations.DecRunsTheRoundsDownward : Prop :=
  ∀ (s : State), ∃ t, exec .dec s = .next t ∧
    (∃ l r : Nat → Half, l 16 = rightHalf s.data ∧ r 16 = leftHalf s.data ∧
      (∀ n : Fin 16, r n.val = l (n.val + 1) ∧
        l n.val = xorBytes (r (n.val + 1)) (feistelF tables (l (n.val + 1)) s.rk[n] n)) ∧
      leftHalf t.data = l 0 ∧ rightHalf t.data = r 0) ∧
    t.tagMatch = s.tagMatch ∧ BuffersKept [.data] s t ∧ Completed s t

/-- KSCHED (43_key_schedule.md R105, R106, R108). -/
def Obligations.KschedExpandsTheMasterKey : Prop :=
  ∀ (s : State), ∃ t, exec .ksched s = .next t ∧
    (∃ key : Nat → Block, key 0 = s.mkey ∧ ∀ r : Fin 16,
      (∀ i : Fin 32, t.rk[r][i] = tables.sbox ⟨r.val % 8, Nat.mod_lt _ (by decide)⟩
        ((key r.val)[i.val] ^^^ (tables.mixc r ⟨i.val % 4, Nat.mod_lt _ (by decide)⟩).extractLsb' 0 8)) ∧
      (∀ i : Fin 64, (key (r.val + 1))[i] = (key r.val)[(i.val + 3) % 64] ^^^ t.rk[r][i.val % 32])) ∧
    t.tagMatch = s.tagMatch ∧ BuffersKept [.rk] s t ∧ Completed s t

/-- KDF (42_kdf.md R101 to R103). -/
def Obligations.KdfIteratesFromTheHash : Prop :=
  ∀ (s : State), s.msgLen.toNat ≤ Config.msgBufBytes → ∃ t, exec .kdf s = .next t ∧
    (∃ st : Nat → Block,
      st 0 = tables.sha512 ((List.range s.msgLen.toNat).map (fun i => readByte .msgbuf i s) ++ idstr) ∧
      (∀ i < s.iter.toNat, ∃ a b c : Block,
        (∀ j : Fin 64, a[j] = (st i)[j] ^^^
          (tables.mixc ⟨i % 16, Nat.mod_lt _ (by decide)⟩ ⟨j.val / 4 % 4, Nat.mod_lt _ (by decide)⟩).extractLsb'
            (24 - 8 * (j.val % 4)) 8) ∧
        (∀ j : Fin 64, b[j] = tables.sbox ⟨j.val % 8, Nat.mod_lt _ (by decide)⟩ a[j]) ∧
        c = (if i % 100 = 0 then perm512 tables b else b) ∧
        st (i + 1) = if i % 1000 = 0 ∧ 0 < i then tables.sha512 c.toList else c) ∧
      t.mkey = st s.iter.toNat) ∧
    t.tagMatch = s.tagMatch ∧ BuffersKept [.mkey] s t ∧ Completed s t

/-- TAG_GEN (45_tag.md R117 to R121). -/
def Obligations.TagGenWritesTheTag : Prop :=
  ∀ (s : State), s.keyLen.toNat + s.msgLen.toNat ≤ Config.msgBufBytes → ∃ t, exec .tagGen s = .next t ∧
    (∀ i : Fin 32, t.tag[i] = tables.sbox 4
      (tables.sha512
        ((tables.sha512 ((List.range s.keyLen.toNat).map (fun j => readByte .msgbuf j s) ++ idstr)).toList
          ++ (List.range s.msgLen.toNat).map (fun j => readByte .msgbuf (s.keyLen.toNat + j) s)))[i.val]) ∧
    t.tagMatch = s.tagMatch ∧ BuffersKept [.tag] s t ∧ Completed s t

/-- TAG_VERIFY (45_tag.md R122): the or-fold is an equality test, and a mismatch is no error. -/
def Obligations.TagVerifyDecidesEquality : Prop :=
  ∀ (s : State), s.keyLen.toNat + s.msgLen.toNat ≤ Config.msgBufBytes → ∃ t u, exec .tagVerify s = .next t ∧
    exec .tagGen s = .next u ∧ t.tag = u.tag ∧ (t.tagMatch = true ↔ s.exptag = t.tag) ∧
    BuffersKept [.tag] s t ∧ Completed s t

/-- ZEROIZE (40_control.md R88). -/
def Obligations.ZeroizeClearsEveryBuffer : Prop :=
  ∀ (s : State), ∃ t, exec .zeroize s = .next t ∧ (∀ b j, readByte b j t = 0) ∧
    t.tagMatch = s.tagMatch ∧ Completed s t

/-- The model's choice where the spec has no case (log entry 12): acceptance (40_control.md R84) keeps runs from these states. -/
def Obligations.OverlongLengthsStopTheCommand : Prop :=
  ∀ (s : State),
    (exec .kdf s = .fault .msgbufRange ↔ Config.msgBufBytes < s.msgLen.toNat) ∧
    (exec .tagGen s = .fault .msgbufRange ↔ Config.msgBufBytes < s.keyLen.toNat + s.msgLen.toNat) ∧
    (exec .tagVerify s = .fault .msgbufRange ↔ Config.msgBufBytes < s.keyLen.toNat + s.msgLen.toNat)

/-! ## The algorithms -/

/-- 41_sbox_perm.md R93(a), 10_state.md R43, R44: for every seed, not for one; and R93(c), the corner case of the MINSTD generator. -/
def Obligations.TablesAreBijections : Prop :=
  (∀ (c : CipherContext), (∀ n, Function.Bijective ((tablesOf c).sbox n)) ∧ Function.Bijective (tablesOf c).perm) ∧
  (∀ k : Fin 512, ((genPerm 0)[k]).val = (k.val + 1) % 512)

/-- The derived form of 41_sbox_perm.md R97 (conflict C9). -/
def Obligations.Perm256IsTheFirstHalfOfPerm512 : Prop :=
  ∀ (c : CipherContext) (h : Half),
    perm256 (tablesOf c) h = leftHalf (perm512 (tablesOf c) (joinHalves h (Vector.replicate 32 0)))

/-- 44_feistel.md R116, for every table set, so for whatever F computes; and R115's corner case, the same on the machine. -/
def Obligations.FeistelRoundTrip : Prop :=
  (∀ (T : Tables) (rk : Vector Half 16) (b : Block),
    feistelDec T rk (feistelEnc T rk b) = b ∧ feistelEnc T rk (feistelDec T rk b) = b) ∧
  (∀ (s : State),
    (∃ t u, exec .enc s = .next t ∧ exec .dec t = .next u ∧ u.data = s.data) ∧
    (∃ t u, exec .dec s = .next t ∧ exec .enc t = .next u ∧ u.data = s.data))

/-- 44_feistel.md R113's corner case and 95_test_vectors.md section 2.5. -/
def Obligations.EqualBytesMixToEqualBytes : Prop :=
  ∀ (b : Byte), neighbourMix (Vector.replicate 32 b) = Vector.replicate 32 (b ^^^ b.rotateRight 3)

/-- 43_key_schedule.md R106(a), conflict C6. -/
def Obligations.ScheduleUsesLowBytesOnly : Prop :=
  ∀ (T U : Tables), T.sbox = U.sbox →
    (∀ r k, (T.mixc r k).extractLsb' 0 8 = (U.mixc r k).extractLsb' 0 8) → ∀ mk, schedule T mk = schedule U mk

/-- 42_kdf.md R103: MKEY's old value and the bytes past MSG_LEN are no inputs. -/
def Obligations.KdfReadsOnlyItsInputs : Prop :=
  ∀ (s s' t t' : State), s'.msgLen = s.msgLen → s'.iter = s.iter →
    (∀ i < s.msgLen.toNat, readByte .msgbuf i s' = readByte .msgbuf i s) →
    exec .kdf s = .next t → exec .kdf s' = .next t' → t'.mkey = t.mkey

/-- The closed form of 45_tag.md R119, with R118's count from 0 to 4. -/
def Obligations.TagHasItsClosedForm : Prop :=
  ∀ (T : Tables) (d kt : List Byte) (i : Fin 32),
    (tagFunction T d kt)[i] = T.sbox 4 (T.sha512 ((T.sha512 (kt ++ idstr)).toList ++ d))[i.val]

/-! ## The host contract -/

/-- 48_host_facade.md R124, R125. -/
def Obligations.PaddingRoundTrip : Prop :=
  ∀ (m : List Byte), (addPadding m).length % 64 = 0 ∧ 64 ≤ (addPadding m).length ∧
    removePadding (addPadding m) = .ok m

/-- 48_host_facade.md R126, R127 with 44_feistel.md R116. The façade as a function takes messages of any length; on a core MSGBUF limits them (log entry 18). -/
def Obligations.MessageRoundTrip : Prop :=
  ∀ (T : Tables) (m : List Byte) (pw : String) (salt : List Byte),
    decryptMessage T (encryptMessage T m pw salt) pw salt = .ok m

/-- 48_host_facade.md R129 to R132. The envelope as a function may be of any length; on a core MSGBUF limits it (log entry 18). -/
def Obligations.EnvelopeRoundTrip : Prop :=
  ∀ (T : Tables) (m : List Byte) (pw : String) (salt : Half),
    openEnvelope T (sealMessage T m pw salt) pw = .ok m

/-- 48_host_facade.md R131, R132, with the failures of R127. The functions take envelopes of any length (log entry 18). -/
def Obligations.EnvelopeDispatchFollowsTheMark : Prop :=
  ∀ (T : Tables) (e : List Byte) (pw : String),
    (e.length < 69 → openEnvelope T e pw = .error (.failed .invalidInput)) ∧
    (69 ≤ e.length → e.take 5 = [0x01, 0x42, 0x4C, 0x4B, 0x45] → openEnvelope T e pw = .error .legacyUnmodelled) ∧
    (69 ≤ e.length → e.take 5 ≠ [0x02, 0x42, 0x4C, 0x41, 0x35] → e.take 5 ≠ [0x01, 0x42, 0x4C, 0x4B, 0x45] →
      openEnvelope T e pw = .error (.failed .unsupportedFormat)) ∧
    (69 ≤ e.length → e.take 5 = [0x02, 0x42, 0x4C, 0x41, 0x35] →
      verifyTag T (e.take 37 ++ e.drop 69) ((e.drop 37).take 32) ((e.drop 5).take 32) = false →
      openEnvelope T e pw = .error (.failed .tamperedOrWrongPassword)) ∧
    (69 ≤ e.length → e.take 5 = [0x02, 0x42, 0x4C, 0x41, 0x35] →
      verifyTag T (e.take 37 ++ e.drop 69) ((e.drop 37).take 32) ((e.drop 5).take 32) = true →
      openEnvelope T e pw =
        (match decryptMessage T (e.drop 69) pw ((e.drop 5).take 32) with
          | .ok m => .ok m
          | .error x => .error (.failed x)) ∧
      (e.length = 69 ∨ (e.length - 69) % 64 ≠ 0 → openEnvelope T e pw = .error (.failed .invalidInput)) ∧
      (69 < e.length → (e.length - 69) % 64 = 0 →
        openEnvelope T e pw =
          (match removePadding (mapBlocks (feistelDec T (messageKeys T pw ((e.drop 5).take 32))) (e.drop 69)) with
            | .ok m => .ok m
            | .error _ => .error (.failed .incorrectPasswordOrCorrupted))))

/-- 30_encoding.md R82's wait and run, and 20_memory.md R66. One list of inputs per number of polls, and the loop under fuel with the core's turns as an argument, are the model's forms (log entry 9); no reset falls between the accesses (log entry 20). -/
def Obligations.WaitPollsUntilCompletion : Prop :=
  (∀ (s : State) (i : Instr) (polls : Nat), Inv s → s.seq = .idle → lenOk i s = true →
    (∃ t, runInputs (runCommand i polls) s = .next t ∧ t.seq = .idle) ∧
    (wordsRead (runCommand i polls) s).map (fun w => w.getLsbD 0) = List.replicate polls true ++ [false]) ∧
  (∀ (s : State) (fuel n : Nat) (turns : Turns),
    let t := { s with inputs := [], response := some (.value (statusWord s)) }
    (s.seq = .idle → hostWait (fuel + 1) turns ⟨s, n⟩ = .ok (statusWord s, ⟨t, n + 1⟩)) ∧
    (s.seq = .busy → turns n = false → hostWait (fuel + 1) turns ⟨s, n⟩ = hostWait fuel turns ⟨t, n + 1⟩)) ∧
  (∀ (s : State) (i : Instr) (fuel n : Nat) (turns : Turns), s.seq = .idle → lenOk i s = true →
    EndsWith fuel turns
      (fun status w => status.getLsbD 0 = false ∧
        ∃ u, exec i { s with tagMatch := false, latch := encode i, seq := .busy } = .next u ∧
          w.core = { u with inputs := [], response := some (.value status) })
      (hostRun fuel i turns ⟨s, n⟩))

/-- Step 3 of 48_host_facade.md R134 on the machine: the bus, acceptance, completion and the byte order together. One list of inputs per number of polls is the model's form (log entry 9); no reset falls between the accesses (log entry 20). -/
def Obligations.HostSequenceEncryptsABlock : Prop :=
  ∀ (s : State) (q : Block) (polls : Nat), Inv s → s.seq = .idle →
    (∃ t, runInputs (encryptBlock q polls) s = .next t ∧ t.data = feistelEnc tables s.rk q ∧ t.rk = s.rk ∧
      t.mkey = s.mkey ∧ t.msgbuf = s.msgbuf ∧ t.errCode = s.errCode ∧ t.seq = .idle) ∧
    bytesOfWords ((wordsRead (encryptBlock q polls) s).drop (polls + 1)) = (feistelEnc tables s.rk q).toList

/-- Steps 1 and 2 of 48_host_facade.md R134 on the machine: the variable-length buffer write, the length check, KDF and KSCHED together. One list of inputs per number of polls is the model's form (log entry 9); no reset falls between the accesses (log entry 20). -/
def Obligations.HostSequenceDerivesTheRoundKeys : Prop :=
  ∀ (s : State) (pw : String) (salt : List Byte) (kdfPolls ksPolls : Nat), Inv s → s.seq = .idle →
    (utf8 pw ++ salt).length ≤ Config.msgBufBytes → (utf8 pw ++ salt).length < 2 ^ 32 →
    ∃ t, runInputs (keySetup pw salt kdfPolls ksPolls) s = .next t ∧ t.seq = .idle ∧ Inv t ∧ t.errCode = s.errCode ∧
      t.mkey = kdfFunction tables (utf8 pw ++ salt) 150000 ∧ t.rk = messageKeys tables pw salt

/-- The tag part of 48_host_facade.md R134 on the machine, with the layout of 45_tag.md R120. One list of inputs per number of polls is the model's form (log entry 9); no reset falls between the accesses (log entry 20). -/
def Obligations.HostSequenceComputesTheTag : Prop :=
  ∀ (s : State) (salt : Half) (signed : List Byte) (polls : Nat), Inv s → s.seq = .idle →
    32 + signed.length ≤ Config.msgBufBytes → signed.length < 2 ^ 32 →
    (∃ t, runInputs (tagSequence salt signed polls) s = .next t ∧ t.tag = tagFunction tables signed salt.toList ∧
      t.rk = s.rk ∧ t.mkey = s.mkey ∧ t.errCode = s.errCode ∧ t.seq = .idle) ∧
    bytesOfWords ((wordsRead (tagSequence salt signed polls) s).drop (polls + 1)) =
      (tagFunction tables signed salt.toList).toList

/-- 48_host_facade.md R134 whole, with R126 and R130. The model's choices in it: the loop under fuel and the check on the word that ended the wait (log entry 9), no reset between the accesses (log entry 20), the end at a failed check or a bus error (log entry 21), and the bus error past the window's end (log entry 10). -/
def Obligations.HostSealsAMessageOnTheCore : Prop :=
  ∀ (s : State) (m : List Byte) (pw : String) (fuel n : Nat) (turns : Turns), Inv s → s.seq = .idle →
    (∀ (salt : List Byte), (utf8 pw ++ salt).length ≤ Config.msgBufBytes → (utf8 pw ++ salt).length < 2 ^ 32 →
      (s.errCode = .none →
        EndsWith fuel turns
          (fun c w => c = encryptMessage tables m pw salt ∧ Inv w.core ∧ w.core.seq = .idle ∧ w.core.errCode = .none ∧
            w.core.mkey = kdfFunction tables (utf8 pw ++ salt) 150000 ∧ w.core.rk = messageKeys tables pw salt)
          (hostEncryptMessage fuel m pw salt turns ⟨s, n⟩)) ∧
      (s.errCode ≠ .none → EndsInError fuel turns (hostEncryptMessage fuel m pw salt turns ⟨s, n⟩))) ∧
    (∀ (salt : List Byte), Config.msgBufBytes < (utf8 pw ++ salt).length →
      hostEncryptMessage fuel m pw salt turns ⟨s, n⟩ = .error (.busError (Config.coreBase + Config.winBytes))) ∧
    (∀ (salt : Half), s.errCode = .none →
      (utf8 pw ++ salt.toList).length ≤ Config.msgBufBytes → (utf8 pw ++ salt.toList).length < 2 ^ 32 →
      let size := 69 + (encryptMessage tables m pw salt.toList).length
      (size ≤ Config.msgBufBytes → size < 2 ^ 32 →
        EndsWith fuel turns (fun e _ => e = sealMessage tables m pw salt) (hostSeal fuel m pw salt turns ⟨s, n⟩)) ∧
      (Config.msgBufBytes < size →
        hostSeal fuel m pw salt turns ⟨s, n⟩ = .error (.busError (Config.coreBase + Config.winBytes)) ∨
        (hostSeal fuel m pw salt turns ⟨s, n⟩ = .error .outOfFuel ∧ ¬ PromptTurns fuel turns)))

/-- 48_host_facade.md R128 on the machine. The model's choices in it: the loop under fuel (log entry 9), no reset between the accesses (log entry 20), the end at a bus error (log entry 21), and the bus error past the window's end (log entry 10). -/
def Obligations.HostVerifiesATagOnTheCore : Prop :=
  ∀ (s : State) (data t key : List Byte) (fuel n : Nat) (turns : Turns), Inv s → s.seq = .idle →
    (t.length ≠ 32 → hostVerifyTag fuel data t key turns ⟨s, n⟩ = .ok (false, ⟨s, n⟩)) ∧
    (t.length = 32 → key.length + data.length ≤ Config.msgBufBytes → key.length < 2 ^ 32 → data.length < 2 ^ 32 →
      EndsWith fuel turns
        (fun answer w => answer = verifyTag tables data t key ∧ Inv w.core ∧ w.core.seq = .idle ∧
          w.core.errCode = s.errCode)
        (hostVerifyTag fuel data t key turns ⟨s, n⟩)) ∧
    (t.length = 32 → Config.msgBufBytes < key.length + data.length →
      hostVerifyTag fuel data t key turns ⟨s, n⟩ = .error (.busError (Config.coreBase + Config.winBytes)))
end

