-- ==== Sys2Proof/Laws/Memory.lean ====
section
/-! SUPPORT. MSGBUF's memory: reading after writing, the canonical form kept by every write, and equal contents in
canonical form being equal lists. -/

namespace Sys2Proof.Machine

/-- An address below every listed one reads as an unlisted address. -/
theorem Memory.read_below (m : Memory) (y : Nat) (h : ∀ c ∈ m, y < c.1) : Memory.read m y = Memory.unlisted := by
  induction m with
  | nil => rfl
  | cons d r ih =>
    have := h d (by simp)
    simp only [Memory.read]
    rw [if_neg (by omega)]
    exact ih fun c hc => h c (List.mem_cons_of_mem _ hc)

/-- A read after a write gives the byte written at its address, and what was there elsewhere. -/
theorem Memory.read_write (m : Memory) (a : Nat) (v : Byte) (b : Nat) (h : Memory.wf m) :
    Memory.read (Memory.write m a v) b = if b = a then v else Memory.read m b := by
  induction m with
  | nil => unfold Memory.write; split <;> simp_all [Memory.read]
  | cons c rest ih =>
    obtain ⟨x, w⟩ := c
    have hrest : Memory.wf rest := ⟨(List.pairwise_cons.1 h.1).2, fun c hc => h.2 c (List.mem_cons_of_mem _ hc)⟩
    have hlt : ∀ c ∈ rest, x < c.1 := (List.pairwise_cons.1 h.1).1
    have hmiss : ∀ y, y ≤ x → Memory.read rest y = Memory.unlisted := fun y hy =>
      Memory.read_below rest y fun c hc => Nat.lt_of_le_of_lt hy (hlt c hc)
    simp only [Memory.write]
    split
    · rename_i hax
      split
      · rename_i hv
        by_cases hba : b = a
        · subst hba; simp [Memory.read, Nat.ne_of_lt hax, hmiss b (Nat.le_of_lt hax), hv]
        · simp [hba]
      · simp [Memory.read]
    · split
      · rename_i hax
        subst hax
        split
        · rename_i hv
          by_cases hba : b = a
          · subst hba; simp [hmiss b (Nat.le_refl _), hv]
          · simp [Memory.read, hba]
        · simp only [Memory.read]; split <;> simp_all
      · simp only [Memory.read, ih hrest]
        by_cases hbx : b = x
        · subst hbx; rw [if_pos rfl, if_neg (by omega), if_pos rfl]
        · simp [hbx]

/-- Every cell after a write is the one written or one that was there. -/
theorem Memory.mem_write (m : Memory) (a : Nat) (v : Byte) (c : Host.Cell) (h : c ∈ Memory.write m a v) :
    (c = (a, v) ∧ v ≠ Memory.unlisted) ∨ c ∈ m := by
  induction m with
  | nil => unfold Memory.write at h; split at h <;> simp_all
  | cons d rest ih =>
    simp only [Memory.write] at h
    split at h
    · split at h <;> simp_all
    · split at h
      · split at h <;> simp_all
        rcases h with h | h <;> simp [h]
      · rcases List.mem_cons.1 h with h | h
        · simp [h]
        · rcases ih h with h | h <;> simp [h]

/-- A write keeps the canonical form. -/
theorem Memory.write_wf (m : Memory) (a : Nat) (v : Byte) (h : Memory.wf m) : Memory.wf (Memory.write m a v) := by
  refine ⟨?_, fun c hc => ?_⟩
  · induction m with
    | nil => unfold Memory.write; split <;> simp
    | cons d rest ih =>
      have hd := (List.pairwise_cons.1 h.1).1
      have hr := (List.pairwise_cons.1 h.1).2
      simp only [Memory.write]
      split
      · split
        · exact h.1
        · refine List.pairwise_cons.2 ⟨fun c hc => ?_, h.1⟩
          rcases List.mem_cons.1 hc with rfl | hc
          · assumption
          · have := hd c hc; simp only; omega
      · split
        · rename_i hax
          split
          · exact hr
          · exact List.pairwise_cons.2 ⟨fun c hc => by have := hd c hc; simp only; omega, hr⟩
        · refine List.pairwise_cons.2 ⟨fun c hc => ?_, ih ⟨hr, fun c hc => h.2 c (List.mem_cons_of_mem _ hc)⟩⟩
          rcases Memory.mem_write rest a v c hc with ⟨rfl, -⟩ | hc
          · simp only; omega
          · exact hd c hc
  · rcases Memory.mem_write m a v c hc with ⟨rfl, hv⟩ | hc
    · exact hv
    · exact h.2 c hc

/-- Two canonical memories that read alike are the same list. -/
theorem Memory.ext_of_read (m m' : Memory) (h : Memory.wf m) (h' : Memory.wf m')
    (heq : ∀ a, Memory.read m a = Memory.read m' a) : m = m' := by
  induction m generalizing m' with
  | nil =>
    cases m' with
    | nil => rfl
    | cons c r =>
      have := heq c.1
      simp only [Memory.read, if_pos] at this
      exact absurd this.symm (h'.2 c (by simp))
  | cons c r ih =>
    cases m' with
    | nil =>
      have := heq c.1
      simp only [Memory.read, if_pos] at this
      exact absurd this (h.2 c (by simp))
    | cons d q =>
      have hc := List.pairwise_cons.1 h.1
      have hd := List.pairwise_cons.1 h'.1
      have e1 := heq c.1
      have e2 := heq d.1
      simp only [Memory.read, if_pos] at e1 e2
      have hcd : c.1 = d.1 := by
        rcases Nat.lt_trichotomy c.1 d.1 with hlt | heq' | hlt
        · rw [if_neg (by omega), Memory.read_below q c.1 fun x hx => by have := hd.1 x hx; omega] at e1
          exact absurd e1 (h.2 c (by simp))
        · exact heq'
        · rw [if_neg (by omega), Memory.read_below r d.1 fun x hx => by have := hc.1 x hx; omega] at e2
          exact absurd e2.symm (h'.2 d (by simp))
      rw [if_pos hcd] at e1
      have hcd' : c = d := Prod.ext hcd e1
      subst hcd'
      congr 1
      refine ih q ⟨hc.2, fun x hx => h.2 x (List.mem_cons_of_mem _ hx)⟩
        ⟨hd.2, fun x hx => h'.2 x (List.mem_cons_of_mem _ hx)⟩ fun a => ?_
      by_cases ha : a = c.1
      · subst ha; rw [Memory.read_below r _ hc.1, Memory.read_below q _ hd.1]
      · have := heq a
        simpa only [Memory.read, if_neg ha] using this

/-- The memory of the reset state is canonical. -/
theorem Memory.nil_wf : Memory.wf ([] : Memory) := ⟨List.Pairwise.nil, by simp⟩

end Sys2Proof.Machine
end

