-- ==== Sys2Proof/Laws/State.lean ====
section
/-! SUPPORT. One lemma per field per update of the state, each true by unfolding one record update, so that no later
proof unfolds one. `writeStatus` and `writeByte` change one field and keep the others: their lemmas follow. -/

namespace Sys2Proof.Machine

/-! ### complete -/

@[simp] theorem complete_errCode (s : State) : (complete s).errCode = s.errCode := rfl
@[simp] theorem complete_tagMatch (s : State) : (complete s).tagMatch = s.tagMatch := rfl
@[simp] theorem complete_irqEn (s : State) : (complete s).irqEn = s.irqEn := rfl
@[simp] theorem complete_irqStatus (s : State) : (complete s).irqStatus = s.irqStatus ||| doneBit := rfl
@[simp] theorem complete_iter (s : State) : (complete s).iter = s.iter := rfl
@[simp] theorem complete_msgLen (s : State) : (complete s).msgLen = s.msgLen := rfl
@[simp] theorem complete_keyLen (s : State) : (complete s).keyLen = s.keyLen := rfl
@[simp] theorem complete_data (s : State) : (complete s).data = s.data := rfl
@[simp] theorem complete_mkey (s : State) : (complete s).mkey = s.mkey := rfl
@[simp] theorem complete_tag (s : State) : (complete s).tag = s.tag := rfl
@[simp] theorem complete_exptag (s : State) : (complete s).exptag = s.exptag := rfl
@[simp] theorem complete_rk (s : State) : (complete s).rk = s.rk := rfl
@[simp] theorem complete_msgbuf (s : State) : (complete s).msgbuf = s.msgbuf := rfl
@[simp] theorem complete_seq (s : State) : (complete s).seq = .idle := rfl
@[simp] theorem complete_latch (s : State) : (complete s).latch = s.latch := rfl
@[simp] theorem complete_inputs (s : State) : (complete s).inputs = s.inputs := rfl
@[simp] theorem complete_response (s : State) : (complete s).response = s.response := rfl
@[simp] theorem complete_draws (s : State) : (complete s).draws = s.draws := rfl

/-! ### recordError -/

@[simp] theorem recordError_errCode (c : ErrCode) (s : State) : (recordError c s).errCode = if s.errCode = .none then c else s.errCode := rfl
@[simp] theorem recordError_tagMatch (c : ErrCode) (s : State) : (recordError c s).tagMatch = s.tagMatch := rfl
@[simp] theorem recordError_irqEn (c : ErrCode) (s : State) : (recordError c s).irqEn = s.irqEn := rfl
@[simp] theorem recordError_irqStatus (c : ErrCode) (s : State) : (recordError c s).irqStatus = s.irqStatus ||| errBit := rfl
@[simp] theorem recordError_iter (c : ErrCode) (s : State) : (recordError c s).iter = s.iter := rfl
@[simp] theorem recordError_msgLen (c : ErrCode) (s : State) : (recordError c s).msgLen = s.msgLen := rfl
@[simp] theorem recordError_keyLen (c : ErrCode) (s : State) : (recordError c s).keyLen = s.keyLen := rfl
@[simp] theorem recordError_data (c : ErrCode) (s : State) : (recordError c s).data = s.data := rfl
@[simp] theorem recordError_mkey (c : ErrCode) (s : State) : (recordError c s).mkey = s.mkey := rfl
@[simp] theorem recordError_tag (c : ErrCode) (s : State) : (recordError c s).tag = s.tag := rfl
@[simp] theorem recordError_exptag (c : ErrCode) (s : State) : (recordError c s).exptag = s.exptag := rfl
@[simp] theorem recordError_rk (c : ErrCode) (s : State) : (recordError c s).rk = s.rk := rfl
@[simp] theorem recordError_msgbuf (c : ErrCode) (s : State) : (recordError c s).msgbuf = s.msgbuf := rfl
@[simp] theorem recordError_seq (c : ErrCode) (s : State) : (recordError c s).seq = s.seq := rfl
@[simp] theorem recordError_latch (c : ErrCode) (s : State) : (recordError c s).latch = s.latch := rfl
@[simp] theorem recordError_inputs (c : ErrCode) (s : State) : (recordError c s).inputs = s.inputs := rfl
@[simp] theorem recordError_response (c : ErrCode) (s : State) : (recordError c s).response = s.response := rfl
@[simp] theorem recordError_draws (c : ErrCode) (s : State) : (recordError c s).draws = s.draws := rfl

/-! ### respond -/

@[simp] theorem respond_errCode (r : BusResponse) (s : State) : (respond r s).errCode = s.errCode := rfl
@[simp] theorem respond_tagMatch (r : BusResponse) (s : State) : (respond r s).tagMatch = s.tagMatch := rfl
@[simp] theorem respond_irqEn (r : BusResponse) (s : State) : (respond r s).irqEn = s.irqEn := rfl
@[simp] theorem respond_irqStatus (r : BusResponse) (s : State) : (respond r s).irqStatus = s.irqStatus := rfl
@[simp] theorem respond_iter (r : BusResponse) (s : State) : (respond r s).iter = s.iter := rfl
@[simp] theorem respond_msgLen (r : BusResponse) (s : State) : (respond r s).msgLen = s.msgLen := rfl
@[simp] theorem respond_keyLen (r : BusResponse) (s : State) : (respond r s).keyLen = s.keyLen := rfl
@[simp] theorem respond_data (r : BusResponse) (s : State) : (respond r s).data = s.data := rfl
@[simp] theorem respond_mkey (r : BusResponse) (s : State) : (respond r s).mkey = s.mkey := rfl
@[simp] theorem respond_tag (r : BusResponse) (s : State) : (respond r s).tag = s.tag := rfl
@[simp] theorem respond_exptag (r : BusResponse) (s : State) : (respond r s).exptag = s.exptag := rfl
@[simp] theorem respond_rk (r : BusResponse) (s : State) : (respond r s).rk = s.rk := rfl
@[simp] theorem respond_msgbuf (r : BusResponse) (s : State) : (respond r s).msgbuf = s.msgbuf := rfl
@[simp] theorem respond_seq (r : BusResponse) (s : State) : (respond r s).seq = s.seq := rfl
@[simp] theorem respond_latch (r : BusResponse) (s : State) : (respond r s).latch = s.latch := rfl
@[simp] theorem respond_inputs (r : BusResponse) (s : State) : (respond r s).inputs = s.inputs := rfl
@[simp] theorem respond_response (r : BusResponse) (s : State) : (respond r s).response = some r := rfl
@[simp] theorem respond_draws (r : BusResponse) (s : State) : (respond r s).draws = s.draws := rfl

/-! ### raiseBusError -/

@[simp] theorem raiseBusError_errCode (a : Nat) (s : State) : (raiseBusError a s).errCode = s.errCode := rfl
@[simp] theorem raiseBusError_tagMatch (a : Nat) (s : State) : (raiseBusError a s).tagMatch = s.tagMatch := rfl
@[simp] theorem raiseBusError_irqEn (a : Nat) (s : State) : (raiseBusError a s).irqEn = s.irqEn := rfl
@[simp] theorem raiseBusError_irqStatus (a : Nat) (s : State) : (raiseBusError a s).irqStatus = s.irqStatus := rfl
@[simp] theorem raiseBusError_iter (a : Nat) (s : State) : (raiseBusError a s).iter = s.iter := rfl
@[simp] theorem raiseBusError_msgLen (a : Nat) (s : State) : (raiseBusError a s).msgLen = s.msgLen := rfl
@[simp] theorem raiseBusError_keyLen (a : Nat) (s : State) : (raiseBusError a s).keyLen = s.keyLen := rfl
@[simp] theorem raiseBusError_data (a : Nat) (s : State) : (raiseBusError a s).data = s.data := rfl
@[simp] theorem raiseBusError_mkey (a : Nat) (s : State) : (raiseBusError a s).mkey = s.mkey := rfl
@[simp] theorem raiseBusError_tag (a : Nat) (s : State) : (raiseBusError a s).tag = s.tag := rfl
@[simp] theorem raiseBusError_exptag (a : Nat) (s : State) : (raiseBusError a s).exptag = s.exptag := rfl
@[simp] theorem raiseBusError_rk (a : Nat) (s : State) : (raiseBusError a s).rk = s.rk := rfl
@[simp] theorem raiseBusError_msgbuf (a : Nat) (s : State) : (raiseBusError a s).msgbuf = s.msgbuf := rfl
@[simp] theorem raiseBusError_seq (a : Nat) (s : State) : (raiseBusError a s).seq = s.seq := rfl
@[simp] theorem raiseBusError_latch (a : Nat) (s : State) : (raiseBusError a s).latch = s.latch := rfl
@[simp] theorem raiseBusError_inputs (a : Nat) (s : State) : (raiseBusError a s).inputs = s.inputs := rfl
@[simp] theorem raiseBusError_response (a : Nat) (s : State) : (raiseBusError a s).response = some (.busError a) := rfl
@[simp] theorem raiseBusError_draws (a : Nat) (s : State) : (raiseBusError a s).draws = s.draws := rfl

/-! ### respondDraw -/

@[simp] theorem respondDraw_errCode (s : State) : (respondDraw s).errCode = s.errCode := rfl
@[simp] theorem respondDraw_tagMatch (s : State) : (respondDraw s).tagMatch = s.tagMatch := rfl
@[simp] theorem respondDraw_irqEn (s : State) : (respondDraw s).irqEn = s.irqEn := rfl
@[simp] theorem respondDraw_irqStatus (s : State) : (respondDraw s).irqStatus = s.irqStatus := rfl
@[simp] theorem respondDraw_iter (s : State) : (respondDraw s).iter = s.iter := rfl
@[simp] theorem respondDraw_msgLen (s : State) : (respondDraw s).msgLen = s.msgLen := rfl
@[simp] theorem respondDraw_keyLen (s : State) : (respondDraw s).keyLen = s.keyLen := rfl
@[simp] theorem respondDraw_data (s : State) : (respondDraw s).data = s.data := rfl
@[simp] theorem respondDraw_mkey (s : State) : (respondDraw s).mkey = s.mkey := rfl
@[simp] theorem respondDraw_tag (s : State) : (respondDraw s).tag = s.tag := rfl
@[simp] theorem respondDraw_exptag (s : State) : (respondDraw s).exptag = s.exptag := rfl
@[simp] theorem respondDraw_rk (s : State) : (respondDraw s).rk = s.rk := rfl
@[simp] theorem respondDraw_msgbuf (s : State) : (respondDraw s).msgbuf = s.msgbuf := rfl
@[simp] theorem respondDraw_seq (s : State) : (respondDraw s).seq = s.seq := rfl
@[simp] theorem respondDraw_latch (s : State) : (respondDraw s).latch = s.latch := rfl
@[simp] theorem respondDraw_inputs (s : State) : (respondDraw s).inputs = s.inputs := rfl
@[simp] theorem respondDraw_response (s : State) : (respondDraw s).response = some (.value (Config.draw s.draws)) := rfl
@[simp] theorem respondDraw_draws (s : State) : (respondDraw s).draws = s.draws + 1 := rfl

/-! ### clearBuffers -/

@[simp] theorem clearBuffers_errCode (s : State) : (clearBuffers s).errCode = s.errCode := rfl
@[simp] theorem clearBuffers_tagMatch (s : State) : (clearBuffers s).tagMatch = s.tagMatch := rfl
@[simp] theorem clearBuffers_irqEn (s : State) : (clearBuffers s).irqEn = s.irqEn := rfl
@[simp] theorem clearBuffers_irqStatus (s : State) : (clearBuffers s).irqStatus = s.irqStatus := rfl
@[simp] theorem clearBuffers_iter (s : State) : (clearBuffers s).iter = s.iter := rfl
@[simp] theorem clearBuffers_msgLen (s : State) : (clearBuffers s).msgLen = s.msgLen := rfl
@[simp] theorem clearBuffers_keyLen (s : State) : (clearBuffers s).keyLen = s.keyLen := rfl
@[simp] theorem clearBuffers_data (s : State) : (clearBuffers s).data = Vector.replicate 64 0 := rfl
@[simp] theorem clearBuffers_mkey (s : State) : (clearBuffers s).mkey = Vector.replicate 64 0 := rfl
@[simp] theorem clearBuffers_tag (s : State) : (clearBuffers s).tag = Vector.replicate 32 0 := rfl
@[simp] theorem clearBuffers_exptag (s : State) : (clearBuffers s).exptag = Vector.replicate 32 0 := rfl
@[simp] theorem clearBuffers_rk (s : State) : (clearBuffers s).rk = Vector.replicate 16 (Vector.replicate 32 0) := rfl
@[simp] theorem clearBuffers_msgbuf (s : State) : (clearBuffers s).msgbuf = [] := rfl
@[simp] theorem clearBuffers_seq (s : State) : (clearBuffers s).seq = s.seq := rfl
@[simp] theorem clearBuffers_latch (s : State) : (clearBuffers s).latch = s.latch := rfl
@[simp] theorem clearBuffers_inputs (s : State) : (clearBuffers s).inputs = s.inputs := rfl
@[simp] theorem clearBuffers_response (s : State) : (clearBuffers s).response = s.response := rfl
@[simp] theorem clearBuffers_draws (s : State) : (clearBuffers s).draws = s.draws := rfl

/-! ### writeIrqStatus -/

@[simp] theorem writeIrqStatus_errCode (v : Word) (s : State) : (writeIrqStatus v s).errCode = s.errCode := rfl
@[simp] theorem writeIrqStatus_tagMatch (v : Word) (s : State) : (writeIrqStatus v s).tagMatch = s.tagMatch := rfl
@[simp] theorem writeIrqStatus_irqEn (v : Word) (s : State) : (writeIrqStatus v s).irqEn = s.irqEn := rfl
@[simp] theorem writeIrqStatus_irqStatus (v : Word) (s : State) : (writeIrqStatus v s).irqStatus = s.irqStatus &&& ~~~(v.setWidth 2) := rfl
@[simp] theorem writeIrqStatus_iter (v : Word) (s : State) : (writeIrqStatus v s).iter = s.iter := rfl
@[simp] theorem writeIrqStatus_msgLen (v : Word) (s : State) : (writeIrqStatus v s).msgLen = s.msgLen := rfl
@[simp] theorem writeIrqStatus_keyLen (v : Word) (s : State) : (writeIrqStatus v s).keyLen = s.keyLen := rfl
@[simp] theorem writeIrqStatus_data (v : Word) (s : State) : (writeIrqStatus v s).data = s.data := rfl
@[simp] theorem writeIrqStatus_mkey (v : Word) (s : State) : (writeIrqStatus v s).mkey = s.mkey := rfl
@[simp] theorem writeIrqStatus_tag (v : Word) (s : State) : (writeIrqStatus v s).tag = s.tag := rfl
@[simp] theorem writeIrqStatus_exptag (v : Word) (s : State) : (writeIrqStatus v s).exptag = s.exptag := rfl
@[simp] theorem writeIrqStatus_rk (v : Word) (s : State) : (writeIrqStatus v s).rk = s.rk := rfl
@[simp] theorem writeIrqStatus_msgbuf (v : Word) (s : State) : (writeIrqStatus v s).msgbuf = s.msgbuf := rfl
@[simp] theorem writeIrqStatus_seq (v : Word) (s : State) : (writeIrqStatus v s).seq = s.seq := rfl
@[simp] theorem writeIrqStatus_latch (v : Word) (s : State) : (writeIrqStatus v s).latch = s.latch := rfl
@[simp] theorem writeIrqStatus_inputs (v : Word) (s : State) : (writeIrqStatus v s).inputs = s.inputs := rfl
@[simp] theorem writeIrqStatus_response (v : Word) (s : State) : (writeIrqStatus v s).response = s.response := rfl
@[simp] theorem writeIrqStatus_draws (v : Word) (s : State) : (writeIrqStatus v s).draws = s.draws := rfl

/-! ### latchCommand -/

@[simp] theorem latchCommand_errCode (v : Word) (s : State) : (latchCommand v s).errCode = s.errCode := rfl
@[simp] theorem latchCommand_tagMatch (v : Word) (s : State) : (latchCommand v s).tagMatch = false := rfl
@[simp] theorem latchCommand_irqEn (v : Word) (s : State) : (latchCommand v s).irqEn = s.irqEn := rfl
@[simp] theorem latchCommand_irqStatus (v : Word) (s : State) : (latchCommand v s).irqStatus = s.irqStatus := rfl
@[simp] theorem latchCommand_iter (v : Word) (s : State) : (latchCommand v s).iter = s.iter := rfl
@[simp] theorem latchCommand_msgLen (v : Word) (s : State) : (latchCommand v s).msgLen = s.msgLen := rfl
@[simp] theorem latchCommand_keyLen (v : Word) (s : State) : (latchCommand v s).keyLen = s.keyLen := rfl
@[simp] theorem latchCommand_data (v : Word) (s : State) : (latchCommand v s).data = s.data := rfl
@[simp] theorem latchCommand_mkey (v : Word) (s : State) : (latchCommand v s).mkey = s.mkey := rfl
@[simp] theorem latchCommand_tag (v : Word) (s : State) : (latchCommand v s).tag = s.tag := rfl
@[simp] theorem latchCommand_exptag (v : Word) (s : State) : (latchCommand v s).exptag = s.exptag := rfl
@[simp] theorem latchCommand_rk (v : Word) (s : State) : (latchCommand v s).rk = s.rk := rfl
@[simp] theorem latchCommand_msgbuf (v : Word) (s : State) : (latchCommand v s).msgbuf = s.msgbuf := rfl
@[simp] theorem latchCommand_seq (v : Word) (s : State) : (latchCommand v s).seq = .busy := rfl
@[simp] theorem latchCommand_latch (v : Word) (s : State) : (latchCommand v s).latch = v := rfl
@[simp] theorem latchCommand_inputs (v : Word) (s : State) : (latchCommand v s).inputs = yieldTurn s.inputs := rfl
@[simp] theorem latchCommand_response (v : Word) (s : State) : (latchCommand v s).response = s.response := rfl
@[simp] theorem latchCommand_draws (v : Word) (s : State) : (latchCommand v s).draws = s.draws := rfl

/-! ### applyReset -/

@[simp] theorem applyReset_errCode (s : State) : (applyReset s).errCode = State.reset.errCode := rfl
@[simp] theorem applyReset_tagMatch (s : State) : (applyReset s).tagMatch = State.reset.tagMatch := rfl
@[simp] theorem applyReset_irqEn (s : State) : (applyReset s).irqEn = State.reset.irqEn := rfl
@[simp] theorem applyReset_irqStatus (s : State) : (applyReset s).irqStatus = State.reset.irqStatus := rfl
@[simp] theorem applyReset_iter (s : State) : (applyReset s).iter = State.reset.iter := rfl
@[simp] theorem applyReset_msgLen (s : State) : (applyReset s).msgLen = State.reset.msgLen := rfl
@[simp] theorem applyReset_keyLen (s : State) : (applyReset s).keyLen = State.reset.keyLen := rfl
@[simp] theorem applyReset_data (s : State) : (applyReset s).data = State.reset.data := rfl
@[simp] theorem applyReset_mkey (s : State) : (applyReset s).mkey = State.reset.mkey := rfl
@[simp] theorem applyReset_tag (s : State) : (applyReset s).tag = State.reset.tag := rfl
@[simp] theorem applyReset_exptag (s : State) : (applyReset s).exptag = State.reset.exptag := rfl
@[simp] theorem applyReset_rk (s : State) : (applyReset s).rk = State.reset.rk := rfl
@[simp] theorem applyReset_msgbuf (s : State) : (applyReset s).msgbuf = State.reset.msgbuf := rfl
@[simp] theorem applyReset_seq (s : State) : (applyReset s).seq = State.reset.seq := rfl
@[simp] theorem applyReset_latch (s : State) : (applyReset s).latch = State.reset.latch := rfl
@[simp] theorem applyReset_inputs (s : State) : (applyReset s).inputs = s.inputs := rfl
@[simp] theorem applyReset_response (s : State) : (applyReset s).response = State.reset.response := rfl
@[simp] theorem applyReset_draws (s : State) : (applyReset s).draws = s.draws := rfl

/-! ### writeStatus -/

@[simp] theorem writeStatus_errCode (v : Word) (s : State) :
    (writeStatus v s).errCode = if v.getLsbD 1 then .none else s.errCode := by
  unfold writeStatus; split <;> rfl
@[simp] theorem writeStatus_tagMatch (v : Word) (s : State) : (writeStatus v s).tagMatch = s.tagMatch := by
  unfold writeStatus; split <;> rfl
@[simp] theorem writeStatus_irqEn (v : Word) (s : State) : (writeStatus v s).irqEn = s.irqEn := by
  unfold writeStatus; split <;> rfl
@[simp] theorem writeStatus_irqStatus (v : Word) (s : State) : (writeStatus v s).irqStatus = s.irqStatus := by
  unfold writeStatus; split <;> rfl
@[simp] theorem writeStatus_iter (v : Word) (s : State) : (writeStatus v s).iter = s.iter := by
  unfold writeStatus; split <;> rfl
@[simp] theorem writeStatus_msgLen (v : Word) (s : State) : (writeStatus v s).msgLen = s.msgLen := by
  unfold writeStatus; split <;> rfl
@[simp] theorem writeStatus_keyLen (v : Word) (s : State) : (writeStatus v s).keyLen = s.keyLen := by
  unfold writeStatus; split <;> rfl
@[simp] theorem writeStatus_data (v : Word) (s : State) : (writeStatus v s).data = s.data := by
  unfold writeStatus; split <;> rfl
@[simp] theorem writeStatus_mkey (v : Word) (s : State) : (writeStatus v s).mkey = s.mkey := by
  unfold writeStatus; split <;> rfl
@[simp] theorem writeStatus_tag (v : Word) (s : State) : (writeStatus v s).tag = s.tag := by
  unfold writeStatus; split <;> rfl
@[simp] theorem writeStatus_exptag (v : Word) (s : State) : (writeStatus v s).exptag = s.exptag := by
  unfold writeStatus; split <;> rfl
@[simp] theorem writeStatus_rk (v : Word) (s : State) : (writeStatus v s).rk = s.rk := by
  unfold writeStatus; split <;> rfl
@[simp] theorem writeStatus_msgbuf (v : Word) (s : State) : (writeStatus v s).msgbuf = s.msgbuf := by
  unfold writeStatus; split <;> rfl
@[simp] theorem writeStatus_seq (v : Word) (s : State) : (writeStatus v s).seq = s.seq := by
  unfold writeStatus; split <;> rfl
@[simp] theorem writeStatus_latch (v : Word) (s : State) : (writeStatus v s).latch = s.latch := by
  unfold writeStatus; split <;> rfl
@[simp] theorem writeStatus_inputs (v : Word) (s : State) : (writeStatus v s).inputs = s.inputs := by
  unfold writeStatus; split <;> rfl
@[simp] theorem writeStatus_response (v : Word) (s : State) : (writeStatus v s).response = s.response := by
  unfold writeStatus; split <;> rfl
@[simp] theorem writeStatus_draws (v : Word) (s : State) : (writeStatus v s).draws = s.draws := by
  unfold writeStatus; split <;> rfl

/-! ### writeByte and writeWord keep every field that is no buffer -/

@[simp] theorem writeByte_errCode (b : Buffer) (i : Nat) (v : Byte) (s : State) : (writeByte b i v s).errCode = s.errCode := by
  cases b <;> rfl
@[simp] theorem writeWord_errCode (b : Buffer) (i : Nat) (v : Word) (s : State) : (writeWord b i v s).errCode = s.errCode := by
  simp [writeWord]
@[simp] theorem writeByte_tagMatch (b : Buffer) (i : Nat) (v : Byte) (s : State) : (writeByte b i v s).tagMatch = s.tagMatch := by
  cases b <;> rfl
@[simp] theorem writeWord_tagMatch (b : Buffer) (i : Nat) (v : Word) (s : State) : (writeWord b i v s).tagMatch = s.tagMatch := by
  simp [writeWord]
@[simp] theorem writeByte_irqEn (b : Buffer) (i : Nat) (v : Byte) (s : State) : (writeByte b i v s).irqEn = s.irqEn := by
  cases b <;> rfl
@[simp] theorem writeWord_irqEn (b : Buffer) (i : Nat) (v : Word) (s : State) : (writeWord b i v s).irqEn = s.irqEn := by
  simp [writeWord]
@[simp] theorem writeByte_irqStatus (b : Buffer) (i : Nat) (v : Byte) (s : State) : (writeByte b i v s).irqStatus = s.irqStatus := by
  cases b <;> rfl
@[simp] theorem writeWord_irqStatus (b : Buffer) (i : Nat) (v : Word) (s : State) : (writeWord b i v s).irqStatus = s.irqStatus := by
  simp [writeWord]
@[simp] theorem writeByte_iter (b : Buffer) (i : Nat) (v : Byte) (s : State) : (writeByte b i v s).iter = s.iter := by
  cases b <;> rfl
@[simp] theorem writeWord_iter (b : Buffer) (i : Nat) (v : Word) (s : State) : (writeWord b i v s).iter = s.iter := by
  simp [writeWord]
@[simp] theorem writeByte_msgLen (b : Buffer) (i : Nat) (v : Byte) (s : State) : (writeByte b i v s).msgLen = s.msgLen := by
  cases b <;> rfl
@[simp] theorem writeWord_msgLen (b : Buffer) (i : Nat) (v : Word) (s : State) : (writeWord b i v s).msgLen = s.msgLen := by
  simp [writeWord]
@[simp] theorem writeByte_keyLen (b : Buffer) (i : Nat) (v : Byte) (s : State) : (writeByte b i v s).keyLen = s.keyLen := by
  cases b <;> rfl
@[simp] theorem writeWord_keyLen (b : Buffer) (i : Nat) (v : Word) (s : State) : (writeWord b i v s).keyLen = s.keyLen := by
  simp [writeWord]
@[simp] theorem writeByte_seq (b : Buffer) (i : Nat) (v : Byte) (s : State) : (writeByte b i v s).seq = s.seq := by
  cases b <;> rfl
@[simp] theorem writeWord_seq (b : Buffer) (i : Nat) (v : Word) (s : State) : (writeWord b i v s).seq = s.seq := by
  simp [writeWord]
@[simp] theorem writeByte_latch (b : Buffer) (i : Nat) (v : Byte) (s : State) : (writeByte b i v s).latch = s.latch := by
  cases b <;> rfl
@[simp] theorem writeWord_latch (b : Buffer) (i : Nat) (v : Word) (s : State) : (writeWord b i v s).latch = s.latch := by
  simp [writeWord]
@[simp] theorem writeByte_inputs (b : Buffer) (i : Nat) (v : Byte) (s : State) : (writeByte b i v s).inputs = s.inputs := by
  cases b <;> rfl
@[simp] theorem writeWord_inputs (b : Buffer) (i : Nat) (v : Word) (s : State) : (writeWord b i v s).inputs = s.inputs := by
  simp [writeWord]
@[simp] theorem writeByte_response (b : Buffer) (i : Nat) (v : Byte) (s : State) : (writeByte b i v s).response = s.response := by
  cases b <;> rfl
@[simp] theorem writeWord_response (b : Buffer) (i : Nat) (v : Word) (s : State) : (writeWord b i v s).response = s.response := by
  simp [writeWord]
@[simp] theorem writeByte_draws (b : Buffer) (i : Nat) (v : Byte) (s : State) : (writeByte b i v s).draws = s.draws := by
  cases b <;> rfl
@[simp] theorem writeWord_draws (b : Buffer) (i : Nat) (v : Word) (s : State) : (writeWord b i v s).draws = s.draws := by
  simp [writeWord]

end Sys2Proof.Machine
end

