-- ==== Sys2Proof/Laws/Ops.lean ====
section
/-! SUPPORT. One lemma per shared operation that says what it can do: the big-endian view, one byte of a buffer read
after a write, a word written and read, and the length check. -/

namespace Sys2Proof.Machine

/-! ### The big-endian view -/

/-- The bytes of a word are its four 8-bit fields, the most significant first. -/
theorem bytesBe_getElem (w : Word) (k : Nat) (h : k < 4) : (bytesBe w)[k] = w.extractLsb' (24 - 8 * k) 8 := by
  match k, h with
  | 0, _ => rfl
  | 1, _ => rfl
  | 2, _ => rfl
  | 3, _ => rfl

/-- The value of a word put together from four bytes: nothing is lost to the width. -/
theorem be32_toNat (b0 b1 b2 b3 : Byte) :
    (be32 b0 b1 b2 b3).toNat = b0.toNat * 16777216 + b1.toNat * 65536 + b2.toNat * 256 + b3.toNat := by
  have h0 := b0.isLt
  have h1 := b1.isLt
  have h2 := b2.isLt
  have h3 := b3.isLt
  rw [be32, BitVec.toNat_ofNat]
  simp only [Nat.reducePow] at *
  exact Nat.mod_eq_of_lt (by omega)

/-- A word put together from four bytes has them as its 8-bit fields. -/
theorem be32_extract (b0 b1 b2 b3 : Byte) :
    (be32 b0 b1 b2 b3).extractLsb' 24 8 = b0 ∧ (be32 b0 b1 b2 b3).extractLsb' 16 8 = b1 ∧
    (be32 b0 b1 b2 b3).extractLsb' 8 8 = b2 ∧ (be32 b0 b1 b2 b3).extractLsb' 0 8 = b3 := by
  have h0 := b0.isLt
  have h1 := b1.isLt
  have h2 := b2.isLt
  have h3 := b3.isLt
  simp only [Nat.reducePow] at *
  refine ⟨?_, ?_, ?_, ?_⟩ <;> apply BitVec.eq_of_toNat_eq <;>
    rw [BitVec.extractLsb'_toNat, be32_toNat, Nat.shiftRight_eq_div_pow] <;>
    simp only [Nat.reducePow] <;> omega

/-- Taking a word apart and putting it together again gives the word. -/
theorem be32_bytesBe (w : Word) :
    be32 (w.extractLsb' 24 8) (w.extractLsb' 16 8) (w.extractLsb' 8 8) (w.extractLsb' 0 8) = w := by
  have hw := w.isLt
  apply BitVec.eq_of_toNat_eq
  simp only [be32, BitVec.extractLsb'_toNat, BitVec.toNat_ofNat, Nat.shiftRight_eq_div_pow, Nat.reducePow]
  omega

/-! ### One byte of a buffer -/

/-- Inside a fixed buffer, `byteOf` is the byte there. -/
theorem byteOf_lt {n : Nat} (v : Vector Byte n) (i : Nat) (h : i < n) : byteOf v i = v[i] := by
  simp [byteOf, h]

/-- Past a fixed buffer's end there is no byte, and `byteOf` gives 0. -/
theorem byteOf_ge {n : Nat} (v : Vector Byte n) (i : Nat) (h : n ≤ i) : byteOf v i = 0 := by
  simp [byteOf, h]

/-- Every byte of a zero buffer is 0. -/
@[simp] theorem byteOf_replicate_zero (n i : Nat) : byteOf (Vector.replicate n 0#8) i = 0#8 := by
  by_cases h : i < n
  · simp [byteOf_lt _ _ h]
  · exact byteOf_ge _ _ (Nat.le_of_not_lt h)

/-- Two fixed buffers with the same bytes are equal. -/
theorem eq_of_byteOf {n : Nat} (v w : Vector Byte n) (h : ∀ i, byteOf v i = byteOf w i) : v = w := by
  refine Vector.ext fun i hi => ?_
  have := h i
  rwa [byteOf_lt _ _ hi, byteOf_lt _ _ hi] at this

/-- One byte of a fixed buffer after another was set. -/
theorem byteOf_setIfInBounds {n : Nat} (v : Vector Byte n) (i j : Nat) (x : Byte) :
    byteOf (v.setIfInBounds i x) j = if i = j ∧ i < n then x else byteOf v j := by
  by_cases hj : j < n
  · rw [byteOf_lt _ _ hj, byteOf_lt _ _ hj, Vector.getElem_setIfInBounds]
    by_cases h : i = j
    · subst h; simp [hj]
    · simp [h]
  · rw [byteOf_ge _ _ (Nat.le_of_not_lt hj), byteOf_ge _ _ (Nat.le_of_not_lt hj), if_neg (by omega)]

/-- A byte of a buffer does not depend on any other field of the state. -/
theorem readByte_congr (s t : State) (h : t.data = s.data ∧ t.mkey = s.mkey ∧ t.tag = s.tag ∧ t.exptag = s.exptag ∧
    t.rk = s.rk ∧ t.msgbuf = s.msgbuf) (b : Buffer) (i : Nat) : readByte b i t = readByte b i s := by
  obtain ⟨h1, h2, h3, h4, h5, h6⟩ := h
  cases b <;> simp [readByte, *]

/-- One byte of a buffer after another was written, inside the buffer. -/
theorem readByte_writeByte (b c : Buffer) (i j : Nat) (v : Byte) (s : State) (hwf : Memory.wf s.msgbuf)
    (hi : i < bufferSize b) :
    readByte c j (writeByte b i v s) = if c = b ∧ j = i then v else readByte c j s := by
  cases b <;> cases c <;> simp only [readByte, writeByte, reduceCtorEq, false_and, if_false, true_and]
  case data.data => simp only [bufferSize] at hi; rw [byteOf_setIfInBounds]; grind
  case mkey.mkey => simp only [bufferSize] at hi; rw [byteOf_setIfInBounds]; grind
  case tag.tag => simp only [bufferSize] at hi; rw [byteOf_setIfInBounds]; grind
  case exptag.exptag => simp only [bufferSize] at hi; rw [byteOf_setIfInBounds]; grind
  case msgbuf.msgbuf => exact Memory.read_write _ _ _ _ hwf
  case rk.rk =>
    simp only [bufferSize] at hi
    have hi16 : i / 32 < 16 := by omega
    by_cases hj : j / 32 < 16
    · rw [Vector.getElem?_eq_getElem hj, Vector.getElem?_eq_getElem hj, Vector.getElem?_eq_getElem hi16]
      simp only [Option.map_some, Option.getD_some, Vector.getElem_setIfInBounds]
      by_cases hij : i / 32 = j / 32
      · simp only [hij, if_true, byteOf_setIfInBounds]
        have : (i % 32 = j % 32 ∧ i % 32 < 32) ↔ j = i := by omega
        simp only [this]
      · have hne : j ≠ i := by rintro rfl; exact hij rfl
        simp [hij, hne]
    · have hne : j ≠ i := by rintro rfl; exact hj hi16
      rw [Vector.getElem?_eq_none (Nat.le_of_not_lt hj), Vector.getElem?_eq_none (Nat.le_of_not_lt hj)]
      simp [hne]

/-- Writing a byte keeps MSGBUF's memory canonical. -/
theorem writeByte_wf (b : Buffer) (i : Nat) (v : Byte) (s : State) (h : Memory.wf s.msgbuf) :
    Memory.wf (writeByte b i v s).msgbuf := by
  cases b <;> first | exact h | exact Memory.write_wf _ _ _ h

/-- Writing a byte inside MSGBUF adds no cell outside it. -/
theorem writeByte_inside (b : Buffer) (i : Nat) (v : Byte) (s : State) (hi : i < bufferSize b)
    (h : ∀ c ∈ s.msgbuf, c.1 < Config.msgBufBytes) : ∀ c ∈ (writeByte b i v s).msgbuf, c.1 < Config.msgBufBytes := by
  cases b <;> try exact h
  intro c hc
  rcases Memory.mem_write _ _ _ _ hc with ⟨rfl, -⟩ | hc
  · exact hi
  · exact h c hc

/-- Every byte of every buffer is 0 once the buffers are cleared. -/
theorem readByte_clearBuffers (b : Buffer) (i : Nat) (s : State) : readByte b i (clearBuffers s) = 0 := by
  cases b <;> simp [readByte, clearBuffers, Memory.read, Memory.unlisted]
  by_cases h : i / 32 < 16
  · rw [Vector.getElem?_eq_getElem h]; simp
  · rw [Vector.getElem?_eq_none (by omega)]; rfl

/-! ### One word of a buffer -/

/-- One byte of a buffer after a word was written: a byte of the word inside it, what was there elsewhere. -/
theorem readByte_writeWord (b c : Buffer) (i j : Nat) (v : Word) (s : State) (hwf : Memory.wf s.msgbuf)
    (hi : i + 3 < bufferSize b) :
    readByte c j (writeWord b i v s) =
      if c = b ∧ i ≤ j ∧ j < i + 4 then v.extractLsb' (24 - 8 * (j - i)) 8 else readByte c j s := by
  have w0 := hwf
  have w1 := writeByte_wf b i (bytesBe v)[0] s w0
  have w2 := writeByte_wf b (i + 1) (bytesBe v)[1] _ w1
  have w3 := writeByte_wf b (i + 2) (bytesBe v)[2] _ w2
  simp only [writeWord]
  rw [readByte_writeByte b c _ j _ _ w3 (by omega), readByte_writeByte b c _ j _ _ w2 (by omega),
    readByte_writeByte b c _ j _ _ w1 (by omega), readByte_writeByte b c _ j _ _ w0 (by omega)]
  by_cases hc : c = b
  · simp only [hc, true_and]
    by_cases h0 : j = i
    · subst h0; simp [bytesBe_getElem]
    by_cases h1 : j = i + 1
    · subst h1; simp [bytesBe_getElem]
    by_cases h2 : j = i + 2
    · subst h2; simp [bytesBe_getElem]
    by_cases h3 : j = i + 3
    · subst h3; simp [bytesBe_getElem]
    simp only [h0, h1, h2, h3, if_false]
    rw [if_neg (by omega)]
  · simp [hc]

/-- Writing a word changes buffers only. -/
theorem writeWord_frame (b : Buffer) (i : Nat) (v : Word) (s : State) :
    writeWord b i v s =
      { s with data := (writeWord b i v s).data, mkey := (writeWord b i v s).mkey, tag := (writeWord b i v s).tag,
               exptag := (writeWord b i v s).exptag, rk := (writeWord b i v s).rk,
               msgbuf := (writeWord b i v s).msgbuf } := by
  cases b <;> simp [writeWord, writeByte]

/-- Writing a word keeps MSGBUF's memory canonical. -/
theorem writeWord_wf (b : Buffer) (i : Nat) (v : Word) (s : State) (h : Memory.wf s.msgbuf) :
    Memory.wf (writeWord b i v s).msgbuf := by
  simp only [writeWord]
  exact writeByte_wf _ _ _ _ (writeByte_wf _ _ _ _ (writeByte_wf _ _ _ _ (writeByte_wf _ _ _ _ h)))

/-- Writing a word inside MSGBUF adds no cell outside it. -/
theorem writeWord_inside (b : Buffer) (i : Nat) (v : Word) (s : State) (hi : i + 3 < bufferSize b)
    (h : ∀ c ∈ s.msgbuf, c.1 < Config.msgBufBytes) : ∀ c ∈ (writeWord b i v s).msgbuf, c.1 < Config.msgBufBytes := by
  simp only [writeWord]
  exact writeByte_inside _ _ _ _ (by omega) (writeByte_inside _ _ _ _ (by omega)
    (writeByte_inside _ _ _ _ (by omega) (writeByte_inside _ _ _ _ (by omega) h)))

/-! ### The length check -/

/-- What the length check asks, command by command. -/
theorem lenOk_iff (i : Instr) (s : State) : lenOk i s = true ↔
    (i = .kdf → s.msgLen.toNat ≤ Config.msgBufBytes) ∧
    (i = .tagGen ∨ i = .tagVerify → s.keyLen.toNat + s.msgLen.toNat ≤ Config.msgBufBytes) := by
  cases i <;> simp [lenOk, lenOkWithin]

/-- A guarded completion answers the completion when the lengths fit. -/
theorem completeWithin_ok (i : Instr) (s t : State) (h : lenOk i s = true) :
    completeWithin i s t = .next (complete t) := by
  simp [completeWithin, h]

/-- The length check reads the two length registers only. -/
theorem lenOk_congr (i : Instr) (s t : State) (hm : t.msgLen = s.msgLen) (hk : t.keyLen = s.keyLen) :
    lenOk i t = lenOk i s := by
  simp [lenOk, hm, hk]

end Sys2Proof.Machine
end

