-- ==== Sys2Proof/Laws/Operands.lean ====
section
/-! SUPPORT. The operand forms said once: halves joined and split, byte-wise xor, the bits of a byte string packed and
read again, and the scatter of bits to positions. -/

namespace Sys2Proof.Machine

/-! ### Halves -/

/-- Byte i of the left half is byte i of the block. -/
theorem leftHalf_getElem (b : Block) (i : Nat) (h : i < 32) : (leftHalf b)[i] = b[i] := by
  simp [leftHalf]

/-- Byte i of the right half is byte i + 32 of the block. -/
theorem rightHalf_getElem (b : Block) (i : Nat) (h : i < 32) : (rightHalf b)[i] = b[i + 32] := by
  simp [rightHalf]

/-- Byte i of two halves joined. -/
theorem joinHalves_getElem (l r : Half) (i : Nat) (h : i < 64) :
    (joinHalves l r)[i] = if h' : i < 32 then l[i] else r[i - 32] := by
  simp [joinHalves]

/-- The left half of two halves joined. -/
@[simp] theorem leftHalf_joinHalves (l r : Half) : leftHalf (joinHalves l r) = l := by
  refine Vector.ext fun i h => ?_
  rw [leftHalf_getElem _ _ h, joinHalves_getElem _ _ _ (by omega), dif_pos h]

/-- The right half of two halves joined. -/
@[simp] theorem rightHalf_joinHalves (l r : Half) : rightHalf (joinHalves l r) = r := by
  refine Vector.ext fun i h => ?_
  rw [rightHalf_getElem _ _ h, joinHalves_getElem _ _ _ (by omega), dif_neg (by omega)]
  simp

/-- A block is its two halves joined. -/
@[simp] theorem joinHalves_halves (b : Block) : joinHalves (leftHalf b) (rightHalf b) = b := by
  refine Vector.ext fun i h => ?_
  rw [joinHalves_getElem _ _ _ h]
  split
  · rw [leftHalf_getElem]
  · rw [rightHalf_getElem _ _ (by omega)]
    congr 1
    omega

/-! ### Byte-wise xor -/

/-- Byte i of a byte-wise xor. -/
theorem xorBytes_getElem {n : Nat} (a b : Vector Byte n) (i : Nat) (h : i < n) :
    (xorBytes a b)[i] = a[i] ^^^ b[i] := by
  simp [xorBytes]

/-- Xoring the same bytes in twice changes nothing. -/
@[simp] theorem xorBytes_cancel {n : Nat} (a b : Vector Byte n) : xorBytes (xorBytes a b) b = a := by
  refine Vector.ext fun i h => ?_
  rw [xorBytes_getElem _ _ _ h, xorBytes_getElem _ _ _ h, BitVec.xor_assoc, BitVec.xor_self, BitVec.xor_zero]

/-! ### Bits -/

/-- Bit t, from the most significant, of a byte given by its bits. -/
theorem byteOfBits_getLsbD (f : Nat → Bool) (t : Nat) (h : t < 8) : (byteOfBits f).getLsbD (7 - t) = f t := by
  have e : 7 - (7 - t) = t := by omega
  rw [byteOfBits, BitVec.getLsbD_eq_getElem (by omega)]
  simp [BitVec.getElem_ofFnLE, e]

/-- Bit k of packed bits is the k-th of them. -/
theorem bitOf_packBits {n : Nat} (bits : Vector Bool (8 * n)) (k : Nat) (h : k < 8 * n) :
    bitOf (packBits bits) k = bits[k] := by
  have hk : k / 8 < n := by omega
  have e : 8 * (k / 8) + k % 8 = k := by omega
  rw [bitOf, byteOf_lt _ _ hk, packBits, Vector.getElem_ofFn, byteOfBits_getLsbD _ _ (Nat.mod_lt _ (by decide))]
  simp only [e]
  simp [h]

/-- Two byte strings with the same bits are equal. -/
theorem eq_of_bitOf {n : Nat} (a b : Vector Byte n) (h : ∀ k < 8 * n, bitOf a k = bitOf b k) : a = b := by
  refine Vector.ext fun i hi => BitVec.eq_of_getLsbD_eq fun j hj => ?_
  have := h (8 * i + (7 - j)) (by omega)
  rw [bitOf, bitOf, show (8 * i + (7 - j)) / 8 = i by omega, show (8 * i + (7 - j)) % 8 = 7 - j by omega,
    show 7 - (7 - j) = j by omega, byteOf_lt _ _ hi, byteOf_lt _ _ hi] at this
  exact this

/-! ### The scatter -/

/-- A position of a vector after a list of indexed writes: what it held, where none of them goes there. -/
theorem foldl_set_miss {m : Nat} (dest : Fin m → Nat) (bit : Fin m → Bool) (j : Nat) (hj : j < m) (ks : List (Fin m))
    (o : Vector Bool m) (h : ∀ k ∈ ks, dest k ≠ j) :
    (ks.foldl (fun o k => o.setIfInBounds (dest k) (bit k)) o)[j] = o[j] := by
  induction ks generalizing o with
  | nil => rfl
  | cons k ks ih =>
    rw [List.foldl_cons, ih _ fun k' hk' => h k' (by simp [hk']), Vector.getElem_setIfInBounds]
    simp [h k (by simp)]

/-- A position no bit is sent to is 0. -/
theorem scatterBits_miss {m : Nat} (dest : Fin m → Nat) (bit : Fin m → Bool) (j : Nat) (hj : j < m)
    (h : ∀ k, dest k ≠ j) : (scatterBits dest bit)[j] = false := by
  rw [scatterBits, foldl_set_miss dest bit j hj _ _ fun k _ => h k]
  simp

/-- A position exactly one bit is sent to holds that bit. -/
theorem scatterBits_hit {m : Nat} (dest : Fin m → Nat) (bit : Fin m → Bool) (k : Fin m) (hj : dest k < m)
    (h : ∀ k', dest k' = dest k → k' = k) : (scatterBits dest bit)[dest k] = bit k := by
  obtain ⟨l₁, l₂, hl⟩ := List.append_of_mem (List.mem_finRange k)
  have hnd := List.nodup_finRange m
  rw [hl] at hnd
  have hnot : k ∉ l₂ := (List.nodup_cons.1 (List.nodup_append.1 hnd).2.1).1
  have hmiss : ∀ k' ∈ l₂, dest k' ≠ dest k := fun k' hk' he => hnot (h k' he ▸ hk')
  rw [scatterBits, hl, List.foldl_append, List.foldl_cons, foldl_set_miss dest bit _ hj _ _ hmiss,
    Vector.getElem_setIfInBounds]
  simp

/-! ### The rounds -/

/-- A round of decryption undoes the same round of encryption. -/
@[simp] theorem decRound_encRound (T : Tables) (rk : Vector Half 16) (lr : Half × Half) (r : Fin 16) :
    (decRound T rk (encRound T rk lr r) r) = lr := by
  simp [decRound, encRound]

/-- A round of encryption undoes the same round of decryption. -/
@[simp] theorem encRound_decRound (T : Tables) (rk : Vector Half 16) (lr : Half × Half) (r : Fin 16) :
    (encRound T rk (decRound T rk lr r) r) = lr := by
  simp [decRound, encRound]

end Sys2Proof.Machine
end

