-- ==== Sys2Proof/Laws/Algorithms.lean ====
section
/-! SUPPORT. What each shared operation of the algorithms does, byte by byte, said once. -/

namespace Sys2Proof.Machine

/-- A byte after substitution. -/
theorem substAll_getElem {n : Nat} (f : Byte → Byte) (b : Vector Byte n) (i : Nat) (h : i < n) :
    (substAll f b)[i] = f b[i] := by
  simp [substAll]

/-- A byte after substitution by position: box i mod 8. -/
theorem substPositional_getElem (T : Tables) (b : Block) (i : Nat) (h : i < 64) :
    (substPositional T b)[i] = T.sbox ⟨i % 8, Nat.mod_lt _ (by decide)⟩ b[i] := by
  simp only [substPositional, Vector.getElem_ofFn]
  rfl

/-- A byte after the neighbour mix: both neighbours as they were before it. -/
theorem neighbourMix_getElem (t : Half) (i : Nat) (h : i < 32) :
    (neighbourMix t)[i] =
      t[i] ^^^ ((t[(i + 31) % 32]'(Nat.mod_lt _ (by decide)) >>> 3) |||
        (t[(i + 1) % 32]'(Nat.mod_lt _ (by decide)) <<< 5)) := by
  have h1 : ((⟨i, h⟩ : Fin 32) - 1).val = (i + 31) % 32 := by
    rw [Fin.val_sub]; show (32 - 1 + i) % 32 = _; omega
  have h2 : ((⟨i, h⟩ : Fin 32) + 1).val = (i + 1) % 32 := by rw [Fin.val_add]; rfl
  simp only [neighbourMix, Vector.getElem_ofFn, Fin.getElem_fin, h1, h2]

/-- A byte of a round key. -/
theorem roundKey_getElem (T : Tables) (r : Fin 16) (key : Block) (i : Nat) (h : i < 32) :
    (roundKey T r key)[i] = roundSbox T r (key[i] ^^^ (T.mixc r (Fin.ofNat 4 i)).setWidth 8) := by
  simp [roundKey]

/-- A byte of the next running key. -/
theorem nextKey_getElem (key : Block) (rk : Half) (i : Nat) (h : i < 64) :
    (nextKey key rk)[i] =
      key[(i + 3) % 64]'(Nat.mod_lt _ (by decide)) ^^^ rk[i % 32]'(Nat.mod_lt _ (by decide)) := by
  simp [nextKey]

/-- Folding the differences in with or gives 0 exactly when there is none. -/
theorem foldl_or_eq_zero (l : List (Fin 32)) (t e : Half) (a : Byte) :
    l.foldl (fun acc i => acc ||| (t[i] ^^^ e[i])) a = 0 ↔ a = 0 ∧ ∀ i ∈ l, t[i] = e[i] := by
  induction l generalizing a with
  | nil => simp
  | cons x l ih =>
    rw [List.foldl_cons, ih]
    simp only [List.forall_mem_cons]
    have hx : (a ||| (t[x] ^^^ e[x]) = 0#8) ↔ a = 0#8 ∧ t[x] = e[x] := by
      rw [BitVec.or_eq_zero_iff, BitVec.xor_eq_zero_iff]
    exact (and_congr_left' hx).trans and_assoc

/-- The comparison's result is 1 exactly when the tags are equal. -/
theorem tagMatches_iff (t e : Half) : tagMatches t e = true ↔ t = e := by
  simp only [tagMatches, decide_eq_true_eq]
  rw [tagDifference, foldl_or_eq_zero]
  constructor
  · rintro ⟨-, h⟩
    exact Vector.ext fun i hi => h ⟨i, hi⟩ (List.mem_finRange _)
  · rintro rfl
    exact ⟨rfl, fun _ _ => rfl⟩

end Sys2Proof.Machine
end

