-- ==== Sys2Proof/Laws/Bus.lean ====
section
/-! SUPPORT. The register window said once: which offsets hold what, and the cases of a read, a write and an
acceptance. -/

namespace Sys2Proof.Machine

open Sys2Proof.Safety

/-! ### Offsets -/

/-- An address written as the base and an offset has that offset. -/
@[simp] theorem offsetOf_base_add (off : Nat) : offsetOf (Config.coreBase + off) = some off := by
  simp [offsetOf]

/-- An offset is the distance from the base. -/
theorem offsetOf_some (a off : Nat) (h : offsetOf a = some off) : a = Config.coreBase + off := by
  unfold offsetOf at h
  split at h
  · simp only [Option.some.injEq] at h; omega
  · cases h

/-- MSGBUF's size is a multiple of 4, so its words are whole. -/
theorem msgBufBytes_mod : Config.msgBufBytes % 4 = 0 := by
  unfold Config.msgBufBytes; omega

/-- The word of a buffer that begins inside it ends inside it. -/
theorem word_inside (b : Buffer) (m : Nat) (h : 4 * m < bufferSize b) : 4 * m + 3 < bufferSize b := by
  have := msgBufBytes_mod
  cases b <;> simp only [bufferSize] at * <;> omega

/-- The offset of a register holds it. -/
@[simp] theorem accessPlace_reg (r : Reg) : accessPlace (regOffset r) 4 = some (.reg r) := by
  cases r <;> simp [accessPlace, placeAt, placeWithin, regOffset]

/-- The offset of a word of a buffer holds it. -/
theorem accessPlace_word (b : Buffer) (m : Nat) (h : 4 * m < bufferSize b) :
    accessPlace (bufferBase b + 4 * m) 4 = some (.word b (4 * m)) := by
  cases b <;> simp only [bufferSize, bufferBase] at * <;>
    (rw [accessPlace, if_pos ⟨rfl, by omega⟩, placeAt, placeWithin]; repeat rw [if_neg (by omega)]) <;>
    rw [if_pos (by omega)] <;> simp

/-- What an access can reach: a register at its offset, or an aligned word of a buffer, inside it. -/
theorem accessPlace_some (o n : Nat) (p : Place) (h : accessPlace o n = some p) : n = 4 ∧
    ((∃ r, p = .reg r ∧ o = regOffset r) ∨
      ∃ b m, p = .word b (4 * m) ∧ o = bufferBase b + 4 * m ∧ 4 * m < bufferSize b) := by
  unfold accessPlace at h
  split at h
  case isFalse => cases h
  case isTrue hn =>
    refine ⟨hn.1, ?_⟩
    have ho := hn.2
    unfold placeAt placeWithin at h
    split at h
    · rename_i hlt
      left
      obtain ⟨k, rfl⟩ : ∃ k, o = 4 * k := ⟨o / 4, by omega⟩
      have hk : k < 9 := by omega
      rw [Nat.mul_div_cancel_left _ (by omega)] at h
      match k, hk with
      | 0, _ | 1, _ | 2, _ | 3, _ | 4, _ | 5, _ | 6, _ | 7, _ | 8, _ => cases h; exact ⟨_, rfl, rfl⟩
    · right
      have pick : ∀ (b : Buffer), bufferBase b ≤ o → bufferBase b % 4 = 0 → o < bufferBase b + bufferSize b →
          p = .word b (o - bufferBase b) →
          ∃ b m, p = .word b (4 * m) ∧ o = bufferBase b + 4 * m ∧ 4 * m < bufferSize b := by
        intro b h1 h2 h3 h4
        refine ⟨b, (o - bufferBase b) / 4, ?_, ?_, ?_⟩
        · rw [h4]; congr 1; omega
        · omega
        · omega
      split at h
      · cases h
      split at h
      · exact pick .data (by simp only [bufferBase]; omega) rfl (by simp only [bufferBase, bufferSize]; omega)
          (by simpa [bufferBase] using h.symm)
      split at h
      · exact pick .mkey (by simp only [bufferBase]; omega) rfl (by simp only [bufferBase, bufferSize]; omega)
          (by simpa [bufferBase] using h.symm)
      split at h
      · exact pick .tag (by simp only [bufferBase]; omega) rfl (by simp only [bufferBase, bufferSize]; omega)
          (by simpa [bufferBase] using h.symm)
      split at h
      · exact pick .exptag (by simp only [bufferBase]; omega) rfl (by simp only [bufferBase, bufferSize]; omega)
          (by simpa [bufferBase] using h.symm)
      split at h
      · exact pick .rk (by simp only [bufferBase]; omega) rfl (by simp only [bufferBase, bufferSize]; omega)
          (by simpa [bufferBase] using h.symm)
      split at h
      · cases h
      split at h
      · exact pick .msgbuf (by simp only [bufferBase]; omega) rfl (by simp only [bufferBase, bufferSize]; omega)
          (by simpa [bufferBase] using h.symm)
      · cases h

/-! ### Acceptance, writes and reads -/

/-- What a write to CMD can do while idle: record one error, or latch a command whose lengths fit. -/
theorem accept_cases (v : Word) (s : State) :
    (∃ e, decode v = .error e ∧ accept v s = recordError .illegalCmd s) ∨
    (∃ i, decode v = .ok i ∧ lenOk i s = false ∧ accept v s = recordError .lenErr s) ∨
    (∃ i, decode v = .ok i ∧ lenOk i s = true ∧
      accept v s = { s with tagMatch := false, latch := v, seq := .busy }) := by
  unfold accept
  rcases hd : decode v with e | i
  · exact .inl ⟨e, rfl, rfl⟩
  · cases hl : lenOk i s
    · exact .inr (.inl ⟨i, rfl, hl, by simp [hl]⟩)
    · exact .inr (.inr ⟨i, rfl, hl, by simp [hl]⟩)

/-- What a write that reaches a place can do: record a busy error, be accepted or refused as a command, change one
control field, or write one word of a buffer that is not TAG; or nothing. -/
theorem storeAt_cases (p : Place) (v : Word) (s : State) :
    (∃ code, s.seq = .busy ∧ busyWriteError p = some code ∧ storeAt p v s = recordError code s) ∨
    (s.seq = .idle ∧ p = .reg .cmd ∧ storeAt p v s = accept v s) ∨
    (p = .reg .status ∧ storeAt p v s = writeStatus v s) ∨
    (p = .reg .irqStatus ∧ storeAt p v s = writeIrqStatus v s) ∨
    (p = .reg .irqEn ∧ storeAt p v s = { s with irqEn := v.setWidth 2 }) ∨
    (s.seq = .idle ∧ p = .reg .iter ∧ storeAt p v s = { s with iter := v }) ∨
    (s.seq = .idle ∧ p = .reg .msgLen ∧ storeAt p v s = { s with msgLen := v }) ∨
    (s.seq = .idle ∧ p = .reg .keyLen ∧ storeAt p v s = { s with keyLen := v }) ∨
    (∃ b i, s.seq = .idle ∧ p = .word b i ∧ b ≠ .tag ∧ storeAt p v s = writeWord b i v s) ∨
    ((p = .reg .id ∨ p = .reg .version ∨ ∃ i, p = .word .tag i) ∧ storeAt p v s = s) := by
  rcases p with r | ⟨b, i⟩
  · cases r <;> cases hs : s.seq <;> simp [storeAt, hs, busyWriteError, writePlace, writeReg]
  · cases b <;> cases hs : s.seq <;> simp [storeAt, hs, busyWriteError, writePlace]

/-- What a read that reaches a place can do: answer a value, or answer a draw. -/
theorem loadFrom_cases (p : Place) (s : State) :
    (∃ w, loadFrom p s = respond (.value w) s) ∨ loadFrom p s = respondDraw s := by
  rcases p with r | ⟨b, i⟩
  · exact .inl ⟨_, rfl⟩
  · cases hs : s.seq
    · exact .inl ⟨readWord b i s, by simp [loadFrom, hs]⟩
    · exact .inr (by simp [loadFrom, hs])

/-- What a host access that answers can be: a bus error, a read that reaches a place, or a write that does. -/
theorem hostAccess_cases (x : Access) (s t : State) (h : hostAccess x s = .next t) :
    ReachesCore x ∧
    (t = raiseBusError (accessAddr x) s ∨
      (∃ a n o p, x = .read a n ∧ a = Config.coreBase + o ∧ accessPlace o n = some p ∧ t = loadFrom p s) ∨
      (∃ a n v o p, x = .write a n v ∧ a = Config.coreBase + o ∧ accessPlace o n = some p ∧
        t = respond .done (storeAt p v s))) := by
  cases x with
  | read a n =>
    simp only [hostAccess] at h
    split at h
    · cases h
    · rename_i o ho
      have ha := offsetOf_some a o ho
      refine ⟨by simp only [ReachesCore, accessAddr]; omega, ?_⟩
      cases h
      rcases hp : accessPlace o n with _ | p
      · exact .inl (by simp [readAt, hp, accessAddr])
      · exact .inr (.inl ⟨a, n, o, p, rfl, ha, hp, by simp [readAt, hp]⟩)
  | write a n v =>
    simp only [hostAccess] at h
    split at h
    · cases h
    · rename_i o ho
      have ha := offsetOf_some a o ho
      refine ⟨by simp only [ReachesCore, accessAddr]; omega, ?_⟩
      cases h
      rcases hp : accessPlace o n with _ | p
      · exact .inl (by simp [writeAt, hp, accessAddr])
      · exact .inr (.inr ⟨a, n, v, o, p, rfl, ha, hp, by simp [writeAt, hp]⟩)

/-- An access answers exactly when it reaches the core; otherwise it is refused by name. -/
theorem hostAccess_answers (x : Access) (s : State) :
    (ReachesCore x ∧ ∃ t, hostAccess x s = .next t) ∨
    (¬ ReachesCore x ∧ hostAccess x s = .refused (.outsideWindow (accessAddr x))) := by
  cases x <;> (
    simp only [hostAccess, ReachesCore, accessAddr, offsetOf]
    split
    · rename_i h; split at h <;> simp_all
    · rename_i h; split at h <;> simp_all)

/-- What a write that reaches a place can change while busy: ERRCODE and the two interrupt registers. -/
theorem storeAt_busy_frame (p : Place) (v : Word) (s : State) (hs : s.seq = .busy) :
    storeAt p v s = { s with errCode := (storeAt p v s).errCode, irqEn := (storeAt p v s).irqEn,
                             irqStatus := (storeAt p v s).irqStatus } := by
  rcases storeAt_cases p v s with ⟨c, -, -, e⟩ | ⟨hi, -, e⟩ | ⟨-, e⟩ | ⟨-, e⟩ | ⟨-, e⟩ | ⟨hi, -, e⟩ | ⟨hi, -, e⟩ |
    ⟨hi, -, e⟩ | ⟨b, i, hi, -, -, e⟩ | ⟨-, e⟩ <;> rw [e] <;> try (rw [hs] at hi; cases hi)
  · rfl
  · unfold writeStatus; split <;> rfl
  · rfl

/-- What a host access can change while busy: those, and the model's own response and count of draws. -/
theorem hostAccess_busy_frame (x : Access) (s t : State) (hs : s.seq = .busy) (ht : hostAccess x s = .next t) :
    t = { s with errCode := t.errCode, irqEn := t.irqEn, irqStatus := t.irqStatus, response := t.response,
                 draws := t.draws } := by
  obtain ⟨-, rfl | ⟨a, n, o, p, -, -, -, rfl⟩ | ⟨a, n, v, o, p, -, -, -, rfl⟩⟩ := hostAccess_cases x s t ht
  · rfl
  · rcases loadFrom_cases p s with ⟨w, hw⟩ | hw <;> rw [hw] <;> rfl
  · rw [storeAt_busy_frame p v s hs]; rfl

end Sys2Proof.Machine
end

