-- ==== Sys2Proof/Laws/Exec.lean ====
section
/-! SUPPORT. What a completion can do, said once for all commands: when it answers, what it leaves alone, and what every
completed state has in common. -/

namespace Sys2Proof.Machine

open Sys2Proof.Safety

/-- A command whose lengths fit answers a next state. -/
theorem exec_completes (i : Instr) (s : State) (h : lenOk i s = true) : ∃ t, exec i s = .next t := by
  cases i <;> first | exact ⟨_, rfl⟩ | exact ⟨_, completeWithin_ok _ _ _ h⟩

/-- A guarded completion that answers: the lengths fit, and the answer is the completion. -/
theorem completeWithin_next (i : Instr) (s t u : State) (h : completeWithin i s t = .next u) :
    lenOk i s = true ∧ u = complete t := by
  unfold completeWithin at h
  split at h
  · exact ⟨by assumption, by simpa using h.symm⟩
  · cases h

/-- A command that answered had lengths that fit. -/
theorem exec_lenOk (i : Instr) (s t : State) (h : exec i s = .next t) : lenOk i s = true := by
  cases i <;> first | rfl | exact (completeWithin_next _ _ _ _ h).1

/-- A completion's answer is `complete` of a state that differs from s in buffers and TAG_MATCH only, in the ways the
commands' rules list. -/
theorem exec_shape (i : Instr) (s t : State) (h : exec i s = .next t) : ∃ u : State, t = complete u ∧
    u = { s with data := u.data, mkey := u.mkey, tag := u.tag, exptag := u.exptag, rk := u.rk, msgbuf := u.msgbuf,
                 tagMatch := u.tagMatch } ∧
    (u.msgbuf = s.msgbuf ∨ u.msgbuf = []) ∧ (i ≠ .tagVerify → u.tagMatch = s.tagMatch) ∧
    (i ∉ [Instr.tagGen, .tagVerify, .zeroize] → u.tag = s.tag) := by
  cases i with
  | nop => exact ⟨s, (Host.Outcome.next.inj h).symm, rfl, .inl rfl, fun _ => rfl, fun _ => rfl⟩
  | zeroize =>
    exact ⟨clearBuffers s, (Host.Outcome.next.inj h).symm, rfl, .inr rfl, fun _ => rfl, fun hn => absurd (by simp) hn⟩
  | sboxSub sel => exact ⟨_, (Host.Outcome.next.inj h).symm, rfl, .inl rfl, fun _ => rfl, fun _ => rfl⟩
  | sboxSubp => exact ⟨_, (Host.Outcome.next.inj h).symm, rfl, .inl rfl, fun _ => rfl, fun _ => rfl⟩
  | bitperm512 => exact ⟨_, (Host.Outcome.next.inj h).symm, rfl, .inl rfl, fun _ => rfl, fun _ => rfl⟩
  | bitperm256 => exact ⟨_, (Host.Outcome.next.inj h).symm, rfl, .inl rfl, fun _ => rfl, fun _ => rfl⟩
  | ffunc r => exact ⟨_, (Host.Outcome.next.inj h).symm, rfl, .inl rfl, fun _ => rfl, fun _ => rfl⟩
  | enc => exact ⟨_, (Host.Outcome.next.inj h).symm, rfl, .inl rfl, fun _ => rfl, fun _ => rfl⟩
  | dec => exact ⟨_, (Host.Outcome.next.inj h).symm, rfl, .inl rfl, fun _ => rfl, fun _ => rfl⟩
  | ksched => exact ⟨_, (Host.Outcome.next.inj h).symm, rfl, .inl rfl, fun _ => rfl, fun _ => rfl⟩
  | kdf => exact ⟨_, (completeWithin_next _ _ _ _ h).2, rfl, .inl rfl, fun _ => rfl, fun _ => rfl⟩
  | tagGen =>
    exact ⟨_, (completeWithin_next _ _ _ _ h).2, rfl, .inl rfl, fun _ => rfl, fun hn => absurd (by simp) hn⟩
  | tagVerify =>
    exact ⟨_, (completeWithin_next _ _ _ _ h).2, rfl, .inl rfl, fun hn => absurd rfl hn, fun hn => absurd (by simp) hn⟩

/-- Everything a completion leaves alone, whichever command it is: only the six buffers, TAG_MATCH, SEQ and
IRQ_STATUS may differ, and the last two are as every completion leaves them. -/
theorem exec_frame (i : Instr) (s t : State) (h : exec i s = .next t) :
    t = { s with data := t.data, mkey := t.mkey, tag := t.tag, exptag := t.exptag, rk := t.rk, msgbuf := t.msgbuf,
                 tagMatch := t.tagMatch, seq := .idle, irqStatus := s.irqStatus ||| doneBit } := by
  obtain ⟨u, rfl, hu, -⟩ := exec_shape i s t h
  rw [hu]
  rfl

/-- MSGBUF after a completion: as it was, or empty after ZEROIZE. -/
theorem exec_msgbuf (i : Instr) (s t : State) (h : exec i s = .next t) : t.msgbuf = s.msgbuf ∨ t.msgbuf = [] := by
  obtain ⟨u, rfl, -, hm, -⟩ := exec_shape i s t h
  exact hm

/-- TAG_MATCH after a completion: as it was, but for TAG_VERIFY. -/
theorem exec_tagMatch (i : Instr) (s t : State) (h : exec i s = .next t) (hi : i ≠ .tagVerify) :
    t.tagMatch = s.tagMatch := by
  obtain ⟨u, rfl, -, -, hm, -⟩ := exec_shape i s t h
  exact hm hi

/-- TAG after a completion: as it was, but for its three commands. -/
theorem exec_tag (i : Instr) (s t : State) (h : exec i s = .next t) (hi : i ∉ [Instr.tagGen, .tagVerify, .zeroize]) :
    t.tag = s.tag := by
  obtain ⟨u, rfl, -, -, -, hm⟩ := exec_shape i s t h
  exact hm hi

/-- The frame as the statements put it. -/
theorem exec_completed (i : Instr) (s t : State) (h : exec i s = .next t) : Completed s t := by
  have hf := exec_frame i s t h
  rw [hf]
  refine ⟨rfl, ?_, ?_, ⟨rfl, rfl, rfl, rfl, rfl, rfl, rfl, rfl, rfl⟩⟩ <;> simp [doneBit]

/-- A completion of a state that differs only in buffers: the frame as the statements put it. -/
theorem completed_complete (s u : State) (h : ControlKept s u) (hi : u.irqStatus = s.irqStatus) :
    Completed s (complete u) := by
  refine ⟨rfl, ?_, ?_, ⟨h.1, h.2, h.3, h.4, h.5, h.6, h.7, h.8, h.9⟩⟩ <;> simp [doneBit, hi]

end Sys2Proof.Machine
end

