-- ==== Sys2Proof/Laws/Step.lean ====
section
/-! SUPPORT. What one step can do, said once: the cases every statement about a step splits on, and how the run of a list
of inputs is put together. -/

namespace Sys2Proof.Machine

open Sys2Proof.Safety

/-- The state the core's own turn is taken in: the state itself where no input is pending, or the state less the input
that gives the core its turn. -/
def CoreTurn (s u : State) : Prop :=
  (s.inputs = [] ∧ u = s) ∨ ∃ rest, s.inputs = .coreTurn :: rest ∧ u = { s with inputs := rest }

/-- The cases of a step that answers. -/
theorem step_cases (s t : State) (h : step s = .next t) :
    (∃ u i, CoreTurn s u ∧ s.seq = .busy ∧ decode s.latch = .ok i ∧ exec i u = .next t) ∨
    (CoreTurn s t ∧ s.seq = .idle) ∨
    (∃ x rest, s.inputs = .access x :: rest ∧ hostAccess x { s with inputs := rest } = .next t) ∨
    (∃ rest, s.inputs = .reset :: rest ∧ t = applyReset { s with inputs := rest }) := by
  unfold step nextEvent at h
  split at h <;> rename_i w u heq
  · -- the core completes
    left
    have hcore : CoreTurn s u ∧ s.seq = .busy ∧ w = s.latch := by
      split at heq
      · rename_i hin
        cases hs : s.seq <;> simp only [coreEvent, hs, Prod.mk.injEq, Event.complete.injEq, reduceCtorEq,
          false_and] at heq
        exact ⟨.inl ⟨hin, heq.2.symm⟩, rfl, heq.1.symm⟩
      · rename_i rest hin
        cases hs : s.seq <;> simp only [coreEvent, hs, Prod.mk.injEq, Event.complete.injEq, reduceCtorEq,
          false_and] at heq
        exact ⟨.inr ⟨rest, hin, by rw [← heq.2, hs]⟩, rfl, heq.1.symm⟩
      · simp at heq
      · simp at heq
    obtain ⟨hu, hs, rfl⟩ := hcore
    split at h
    · rename_i i hd
      exact ⟨u, i, hu, hs, hd, h⟩
    · cases h
  · -- a host access
    right; right; left
    split at heq
    · cases hs : s.seq <;> simp [coreEvent, hs] at heq
    · cases hs : s.seq <;> simp [coreEvent, hs] at heq
    · rename_i a rest hin
      simp only [Prod.mk.injEq, Event.access.injEq] at heq
      exact ⟨a, rest, hin, by rw [heq.2, heq.1]; exact h⟩
    · simp at heq
  · -- reset
    right; right; right
    split at heq
    · cases hs : s.seq <;> simp [coreEvent, hs] at heq
    · cases hs : s.seq <;> simp [coreEvent, hs] at heq
    · simp at heq
    · rename_i rest hin
      simp only [Prod.mk.injEq, true_and] at heq
      exact ⟨rest, hin, by rw [heq]; simpa using h.symm⟩
  · -- waiting
    right; left
    have hu : u = t := by simpa using h
    subst hu
    split at heq
    · rename_i hin
      cases hs : s.seq <;> simp only [coreEvent, hs, Prod.mk.injEq, reduceCtorEq, false_and, true_and] at heq
      exact ⟨.inl ⟨hin, heq.symm⟩, rfl⟩
    · rename_i rest hin
      cases hs : s.seq <;> simp only [coreEvent, hs, Prod.mk.injEq, reduceCtorEq, false_and, true_and] at heq
      exact ⟨.inr ⟨rest, hin, by rw [← heq, hs]⟩, rfl⟩
    · simp at heq
    · simp at heq

/-- A step whose next input is a host access is that access. -/
theorem step_access (s : State) (x : Access) (rest : List Input) (h : s.inputs = .access x :: rest) :
    step s = hostAccess x { s with inputs := rest } := by
  simp [step, nextEvent, h]

/-- A step whose next input is the reset input is a reset. -/
theorem step_reset (s : State) (rest : List Input) (h : s.inputs = .reset :: rest) :
    step s = .next (applyReset { s with inputs := rest }) := by
  simp [step, nextEvent, h]

/-- A write to a register's offset reaches the register. -/
theorem step_wr_reg (s : State) (r : Reg) (v : Word) (rest : List Input) (h : s.inputs = wr (regOffset r) v :: rest) :
    step s = .next (respond .done (storeAt (.reg r) v { s with inputs := rest })) := by
  rw [step_access s _ rest h]
  simp [hostAccess, writeAt]

/-- A read of a register's offset reads the register. -/
theorem step_rd_reg (s : State) (r : Reg) (rest : List Input) (h : s.inputs = rd (regOffset r) :: rest) :
    step s = .next (respond (.value (readReg r { s with inputs := rest })) { s with inputs := rest }) := by
  rw [step_access s _ rest h]
  simp [hostAccess, readAt, loadFrom]

/-- A write to a word of a buffer reaches it. -/
theorem step_wr_word (s : State) (b : Buffer) (m : Nat) (v : Word) (rest : List Input)
    (hm : 4 * m < bufferSize b) (h : s.inputs = wr (bufferBase b + 4 * m) v :: rest) :
    step s = .next (respond .done (storeAt (.word b (4 * m)) v { s with inputs := rest })) := by
  rw [step_access s _ rest h]
  simp [hostAccess, writeAt, accessPlace_word b m hm]

/-- A read of a word of a buffer reads it. -/
theorem step_rd_word (s : State) (b : Buffer) (m : Nat) (rest : List Input)
    (hm : 4 * m < bufferSize b) (h : s.inputs = rd (bufferBase b + 4 * m) :: rest) :
    step s = .next (loadFrom (.word b (4 * m)) { s with inputs := rest }) := by
  rw [step_access s _ rest h]
  simp [hostAccess, readAt, accessPlace_word b m hm]

/-- A list of inputs runs as its first part and then its second. -/
theorem runInputs_append (xs ys : List Input) (s t : State) (h : runInputs xs s = .next t) :
    runInputs (xs ++ ys) s = runInputs ys t := by
  induction xs generalizing s with
  | nil => simp only [runInputs] at h; cases h; rfl
  | cons x xs ih =>
    simp only [runInputs, List.cons_append] at *
    split at h
    · exact ih _ h
    · cases h
    · cases h

/-- The words read by a list of inputs are those of its first part and then those of its second. -/
theorem wordsRead_append (xs ys : List Input) (s t : State) (h : runInputs xs s = .next t) :
    wordsRead (xs ++ ys) s = wordsRead xs s ++ wordsRead ys t := by
  induction xs generalizing s with
  | nil => simp only [runInputs] at h; cases h; simp [wordsRead]
  | cons x xs ih =>
    simp only [runInputs, wordsRead, List.cons_append] at *
    split at h
    · rename_i u hu
      simp only [ih u h]
      split <;> simp
    · cases h
    · cases h

/-- The invariant of an idle state is about MSGBUF's memory only. -/
theorem inv_of_idle (t : State) (hw : Memory.wf t.msgbuf) (hb : ∀ c ∈ t.msgbuf, c.1 < Config.msgBufBytes)
    (hs : t.seq = .idle) : Inv t :=
  ⟨hw, hb, fun h => absurd (h.symm.trans hs) (by decide), fun h => absurd (h.symm.trans hs) (by decide)⟩

/-- The invariant reads MSGBUF, SEQ, LATCH, the two lengths and TAG_MATCH only. -/
theorem inv_congr (s t : State) (h : Inv s) (hm : t.msgbuf = s.msgbuf) (hs : t.seq = s.seq) (hl : t.latch = s.latch)
    (hn : t.msgLen = s.msgLen) (hk : t.keyLen = s.keyLen) (ht : t.tagMatch = s.tagMatch) : Inv t := by
  refine ⟨by rw [hm]; exact h.1, by rw [hm]; exact h.2, fun hb => ?_, fun hb => ?_⟩
  · obtain ⟨i, hd, hi⟩ := h.3 (hs ▸ hb)
    exact ⟨i, by rw [hl]; exact hd, by rw [lenOk_congr i s t hn hk]; exact hi⟩
  · rw [ht]; exact h.4 (hs ▸ hb)

end Sys2Proof.Machine
end

