-- ==== Sys2Proof/Laws/HostLoop.lean ====
section
/-! SUPPORT. Host programs: what one part leaves for the next, and what an access does when the core is idle, when it is
busy without the turn, and when it completes first. -/

namespace Sys2Proof.Machine

/-- A program goes on from the result of its first part. -/
theorem andThen_ok {α β : Type} {p : HostProgram α} {f : α → HostProgram β} {turns : Turns} {w w' : Session} {a : α}
    (h : p turns w = .ok (a, w')) : andThen p f turns w = f a turns w' := by
  simp only [andThen, h]

/-- A program ends where its first part does. -/
theorem andThen_error {α β : Type} {p : HostProgram α} {f : α → HostProgram β} {turns : Turns} {w : Session}
    {r : HostStop} (h : p turns w = .error r) : andThen p f turns w = .error r := by
  simp only [andThen, h]

/-- The state in which an access is made: the core's turn, if it has it, comes first. -/
theorem makeAccess_ok {x : Access} {turns : Turns} {s u t : State} {n : Nat}
    (hu : runInputs (if turns n then [.coreTurn] else []) s = .next u)
    (ht : step { u with inputs := [.access x] } = .next t) :
    makeAccess x turns ⟨s, n⟩ = .ok (t.response, ⟨t, n + 1⟩) := by
  have h : runInputs (accessInputs (turns n) x) s = .next t := by
    have e : accessInputs (turns n) x = (if turns n then [.coreTurn] else []) ++ [.access x] := by
      unfold accessInputs; split <;> rfl
    rw [e, runInputs_append _ _ _ _ hu]
    simp only [runInputs, ht]
  simp only [makeAccess, h]

/-- The core's turn changes nothing of an idle core, with or without it, but the list of inputs. -/
theorem runInputs_turn_idle {s : State} (b : Bool) (hs : s.seq = .idle) :
    ∃ xs, runInputs (if b then [.coreTurn] else []) s = .next { s with inputs := xs } := by
  cases b
  · exact ⟨s.inputs, rfl⟩
  · exact ⟨[], by simp [runInputs, step, nextEvent, coreEvent, hs]⟩

/-- An access to an idle core is one step, whoever has the turn. -/
theorem makeAccess_idle {x : Access} {turns : Turns} {s t : State} {n : Nat} (hs : s.seq = .idle)
    (ht : step { s with inputs := [.access x] } = .next t) :
    makeAccess x turns ⟨s, n⟩ = .ok (t.response, ⟨t, n + 1⟩) := by
  obtain ⟨xs, hx⟩ := runInputs_turn_idle (turns n) hs
  exact makeAccess_ok hx ht

/-- A write to an idle core, answered. -/
theorem hostWrite_idle {off : Nat} {v : Word} {turns : Turns} {s t : State} {n : Nat} (hs : s.seq = .idle)
    (ht : step { s with inputs := [wr off v] } = .next t) (hr : t.response = some .done) :
    hostWrite off v turns ⟨s, n⟩ = .ok ((), ⟨t, n + 1⟩) := by
  rw [hostWrite, andThen_ok (makeAccess_idle hs ht), hr]
  rfl

/-- A read of an idle core, answered. -/
theorem hostRead_idle {off : Nat} {v : Word} {turns : Turns} {s t : State} {n : Nat} (hs : s.seq = .idle)
    (ht : step { s with inputs := [rd off] } = .next t) (hr : t.response = some (.value v)) :
    hostRead off turns ⟨s, n⟩ = .ok (v, ⟨t, n + 1⟩) := by
  rw [hostRead, andThen_ok (makeAccess_idle hs ht), hr]
  rfl

/-- A read of STATUS, after the core's turn if it has it. -/
theorem hostRead_status {turns : Turns} {s u : State} {n : Nat}
    (hu : runInputs (if turns n then [.coreTurn] else []) s = .next u) :
    hostRead (regOffset .status) turns ⟨s, n⟩ =
      .ok (statusWord u, ⟨respond (.value (statusWord u)) { u with inputs := [] }, n + 1⟩) := by
  have ht : step { u with inputs := [.access (rdAccess (regOffset .status))] } =
      .next (respond (.value (statusWord u)) { u with inputs := [] }) :=
    step_rd_reg { u with inputs := [rd (regOffset .status)] } .status [] rfl
  rw [hostRead, andThen_ok (makeAccess_ok hu ht)]
  rfl

end Sys2Proof.Machine
end

