-- ==== Sys2Proof/Laws/PerInstr.lean ====
section
/-! SUPPORT. The statement about commands as syntax that is made command by command: of the rows of
spec/30_encoding.md R73, the word a command assembles to matches exactly its own. -/

namespace Sys2Proof.Laws.OwnRow

/-- The rows the command's word matches are its own row and no other. -/
def Statement (i : Instr) : Prop := matchMaskRows.filter (matchesRow (encode i)) = [rowOf i]

theorem nop : Statement .nop := by rfl
theorem sboxSub (sel : Fin 8) : Statement (.sboxSub sel) := by fin_cases sel <;> rfl
theorem sboxSubp : Statement .sboxSubp := by rfl
theorem bitperm512 : Statement .bitperm512 := by rfl
theorem bitperm256 : Statement .bitperm256 := by rfl
theorem ffunc (rnd : Fin 16) : Statement (.ffunc rnd) := by fin_cases rnd <;> rfl
theorem enc : Statement .enc := by rfl
theorem dec : Statement .dec := by rfl
theorem ksched : Statement .ksched := by rfl
theorem kdf : Statement .kdf := by rfl
theorem tagGen : Statement .tagGen := by rfl
theorem tagVerify : Statement .tagVerify := by rfl
theorem zeroize : Statement .zeroize := by rfl

end Sys2Proof.Laws.OwnRow
end

