-- ==== Sys2Proof/Tests/Slice0.lean ====
section
/-! SUPPORT. The model's own tests: the checks of WellFormed refusing ill-formed terms, words written out from the
spec's encoding, values of spec/95_test_vectors.md that do not depend on the open parameters, and a witness for the
hypotheses of each statement. Expected values come from the spec's tables and vectors. -/

namespace Sys2Proof.Tests

open Sys2Proof Sys2Proof.Machine Sys2Proof.Safety

/-- The idle state after reset with inputs to come. -/
def idleWith (xs : List Input) : State := { State.reset with inputs := xs }

/-- A state with the command word v in flight. -/
def busyWith (v : Word) (xs : List Input) : State := { State.reset with seq := .busy, latch := v, inputs := xs }

/-- The bytes 0, 1, 2, … -/
def counting (n : Nat) : Vector Byte n := Vector.ofFn fun i => BitVec.ofNat 8 i.val

/-- Tables that are the identity everywhere, with a hash of zeros. -/
def plainTables : Tables where
  sbox _ x := x
  perm k := k
  mixc _ _ := 0
  sha512 _ := Vector.replicate 64 0

/-! ### WellFormed refuses -/

theorem test_wf_refuses_reserved : (CommandFields.mk 0x11 0 0 0 1).resOk = false ∧
    (CommandFields.mk 0x11 0 0 0 1).wellFormed = false := by decide
theorem test_wf_refuses_unassigned_op : (CommandFields.mk 0x13 0 0 0 0).opOk = false ∧
    (CommandFields.mk 0x13 0 0 0 0).wellFormed = false := by decide
theorem test_wf_refuses_rnd : (CommandFields.mk 0x01 1 0 0 0).rndOk = false ∧
    (CommandFields.mk 0x01 1 0 0 0).wellFormed = false := by decide
theorem test_wf_refuses_sel : (CommandFields.mk 0x01 0 3 1 0).selOk = false ∧
    (CommandFields.mk 0x01 0 3 1 0).wellFormed = false := by decide
theorem test_wf_refuses_mode : (CommandFields.mk 0x10 0 0 1 0).modeOk = false ∧
    (CommandFields.mk 0x10 0 0 1 0).wellFormed = false := by decide
theorem test_wf_accepts_fields_in_use : (Instr.sboxSub 7).wellFormed = true ∧ (Instr.ffunc 15).wellFormed = true ∧
    Instr.sboxSubp.wellFormed = true := by decide

/-! ### Decoding: one word for each command, RES MODE SEL RND OP written out as R72 lays them -/

theorem test_decode_nop : decode 0b0000000000000000_0_000_0000_00000000 = .ok .nop := by decide
theorem test_decode_sboxSub : decode 0b0000000000000000_0_011_0000_00000001 = .ok (.sboxSub 3) := by decide
theorem test_decode_sboxSub_last : decode 0b0000000000000000_0_111_0000_00000001 = .ok (.sboxSub 7) := by decide
theorem test_decode_sboxSubp : decode 0b0000000000000000_1_000_0000_00000001 = .ok .sboxSubp := by decide
theorem test_decode_bitperm512 : decode 0b0000000000000000_0_000_0000_00000010 = .ok .bitperm512 := by decide
theorem test_decode_bitperm256 : decode 0b0000000000000000_0_000_0000_00000011 = .ok .bitperm256 := by decide
theorem test_decode_ffunc : decode 0b0000000000000000_0_000_0101_00010000 = .ok (.ffunc 5) := by decide
theorem test_decode_ffunc_last : decode 0b0000000000000000_0_000_1111_00010000 = .ok (.ffunc 15) := by decide
theorem test_decode_enc : decode 0b0000000000000000_0_000_0000_00010001 = .ok .enc := by decide
theorem test_decode_dec : decode 0b0000000000000000_0_000_0000_00010010 = .ok .dec := by decide
theorem test_decode_ksched : decode 0b0000000000000000_0_000_0000_00100000 = .ok .ksched := by decide
theorem test_decode_kdf : decode 0b0000000000000000_0_000_0000_00110000 = .ok .kdf := by decide
theorem test_decode_tagGen : decode 0b0000000000000000_0_000_0000_01000000 = .ok .tagGen := by decide
theorem test_decode_tagVerify : decode 0b0000000000000000_0_000_0000_01000001 = .ok .tagVerify := by decide
theorem test_decode_zeroize : decode 0b0000000000000000_0_000_0000_11110000 = .ok .zeroize := by decide

/-- The illegal words of section 2.0 of the vectors, each with the reason of R78. -/
theorem test_decode_illegal :
    decode 0x0000B001 = .error .unusedFieldSet ∧ decode 0x00000101 = .error .unusedFieldSet ∧
    decode 0x00001010 = .error .unusedFieldSet ∧ decode 0x00008010 = .error .unusedFieldSet ∧
    decode 0x00000111 = .error .unusedFieldSet ∧ decode 0x00000013 = .error .unassignedOp ∧
    decode 0x00000104 = .error .unassignedOp ∧ decode 0x000000FF = .error .unassignedOp ∧
    decode 0x00010000 = .error .reservedSet ∧ decode 0x00010011 = .error .reservedSet ∧
    decode 0x80000030 = .error .reservedSet := by decide

theorem test_encode_operands : encode (.sboxSub 3) = 0x00003001 ∧ encode (.ffunc 5) = 0x00000510 ∧
    encode (.ffunc 0) = 0x00000010 := by decide
theorem test_decodeTableWord : decodeTableWord 32 0x00000510 = some (.ffunc 5) ∧ decodeTableWord 8 0x11 = some .enc ∧
    decodeTableWord 16 0x8001 = some .sboxSubp ∧ decodeTableWord 40 0x11 = none := by decide

/-! ### The bus (section 2.1 of the vectors, at MSG_BUF_BYTES 4096) -/

theorem test_map_rk : placeWithin 4096 0x124 = some (.word .rk 36) ∧ placeWithin 4096 0x2FC = some (.word .rk 508) := by
  decide
theorem test_map_msgbuf_end : placeWithin 4096 0x1FFC = some (.word .msgbuf 4092) ∧ placeWithin 4096 0x2000 = none := by
  decide
theorem test_map_holes : placeWithin 4096 0x20 = some (.reg .keyLen) ∧ placeWithin 4096 0x24 = none ∧
    placeWithin 4096 0x3F = none ∧ placeWithin 4096 0x40 = some (.word .data 0) ∧ placeWithin 4096 0x300 = none ∧
    placeWithin 4096 0xFFC = none ∧ placeWithin 4096 0x1000 = some (.word .msgbuf 0) := by decide
theorem test_map_buffers : placeWithin 4096 0x7C = some (.word .data 60) ∧ placeWithin 4096 0x80 = some (.word .mkey 0) ∧
    placeWithin 4096 0xC0 = some (.word .tag 0) ∧ placeWithin 4096 0xE0 = some (.word .exptag 0) ∧
    placeWithin 4096 0xFC = some (.word .exptag 28) ∧ placeWithin 4096 0x100 = some (.word .rk 0) := by decide
theorem test_misaligned : accessPlace 0x41 4 = none ∧ accessPlace 0x42 4 = none ∧ accessPlace 0x40 1 = none ∧
    accessPlace 0x44 2 = none := by decide
theorem test_write_data : (writeWord .data 0 0x11223344 .reset).data.toList.take 4 = [0x11, 0x22, 0x33, 0x44] ∧
    readWord .data 0 (writeWord .data 0 0x11223344 .reset) = 0x11223344 := by decide +kernel
theorem test_write_rk : (writeWord .rk 36 0xAABBCCDD .reset).rk[1].toList.drop 4 =
    [0xAA, 0xBB, 0xCC, 0xDD] ++ List.replicate 24 0 := by decide +kernel
theorem test_write_msgbuf : (writeWord .msgbuf 4092 0xDE00BEEF .reset).msgbuf =
    [(4092, 0xDE), (4094, 0xBE), (4095, 0xEF)] := by decide +kernel
theorem test_write_zero_removes : (writeWord .msgbuf 0 0 (writeWord .msgbuf 0 0x01020304 .reset)).msgbuf = [] := by decide +kernel
theorem test_illegal_from_reset : statusWord (accept 0x0000B001 .reset) = 0x12 ∧
    readReg .irqStatus (accept 0x0000B001 .reset) = 2 := by decide
theorem test_irq_status_w1c : (writeIrqStatus 1 { State.reset with irqStatus := 3 }).irqStatus = 2 := by decide
theorem test_status_clears_error : statusWord { State.reset with errCode := .busyCmd } = 0x32 ∧
    statusWord (writeStatus 2 { State.reset with errCode := .busyCmd }) = 0 ∧
    statusWord (writeStatus 0xFFFFFFFD { State.reset with errCode := .busyCmd }) = 0x32 := by decide
theorem test_irq_en_reserved : readReg .irqEn (writeReg .irqEn 0xFFFFFFFF .reset) = 3 := by decide

/-- The length check at the default buffer size, on both sides of the limit; the sum does not wrap. -/
theorem test_len_ok : lenOkWithin 4096 .kdf 4096 0xFFFFFFFF = true ∧ lenOkWithin 4096 .kdf 4097 0 = false ∧
    lenOkWithin 4096 .tagGen 4064 32 = true ∧ lenOkWithin 4096 .tagVerify 4065 32 = false ∧
    lenOkWithin 4096 .tagGen 1 0xFFFFFFFF = false ∧ lenOkWithin 4096 .enc 0xFFFFFFFF 0xFFFFFFFF = true := by decide

/-! ### The generators and the algorithms (sections 2.2 to 2.9 of the vectors) -/

theorem test_sbox_lcg : sboxLcg 0x1111 = 157327990 ∧ 157327990 % 256 = 118 ∧ sboxLcg 157327990 = 216617079 ∧
    216617079 % 255 = 189 ∧ sboxLcg 0 = 12345 := by decide
theorem test_perm_lcg : permLcg 0x5A5A = 1116508230 ∧ 1116508230 % 512 = 70 ∧ permLcg 1116508230 = 1719165218 ∧
    1719165218 % 511 = 253 ∧ permLcg 0 = 0 := by decide
/-- R91's loop by hand on four entries: the update s + 1 gives j = 1, 2, 1 at i = 3, 2, 1. -/
theorem test_shuffle : (shuffle (· + 1) 3 0 (Vector.ofFn (n := 4) id)).toList = [0, 3, 2, 1] := by decide +kernel
theorem test_idstr : idstr.length = 25 ∧ idstr.map BitVec.toNat = "BLA512_BLAKE_ENCRYPTOR_V4".toList.map Char.toNat := by
  decide

theorem test_sboxSub_each_byte : substAll (fun x => x + 1) (counting 64) = Vector.ofFn (fun i : Fin 64 => BitVec.ofNat 8 (i.val + 1)) := by
  decide +kernel
theorem test_sboxSubp_box_by_position :
    (substPositional { plainTables with sbox := fun n _ => BitVec.ofNat 8 n.val } (counting 64)).toList.take 10 =
      [0, 1, 2, 3, 4, 5, 6, 7, 0, 1] := by decide +kernel
/-- Bit 0 set and sent to 490: byte 61 becomes 0x20. -/
theorem test_bit_490 : (packBits (n := 64) ((Vector.replicate (8 * 64) false).setIfInBounds 490 true)).toList.drop 61 =
    [0x20, 0, 0] ∧ bitOf ((Vector.replicate 64 (0 : Byte)).setIfInBounds 0 0x80) 0 = true := by decide +kernel
theorem test_scatter_drops_outside :
    (scatterBits (m := 4) (fun k => 3 * k.val) (fun _ => true)).toList = [true, false, false, true] := by decide +kernel

theorem test_mix_wraps : (neighbourMix ((Vector.replicate 32 (0 : Byte)).setIfInBounds 31 0xFF)).toList =
    0x1F :: List.replicate 29 0 ++ [0xE0, 0xFF] := by decide +kernel
theorem test_mix_snapshot : (neighbourMix (Vector.ofFn fun i : Fin 32 => BitVec.ofNat 8 (i.val + 1))).toList =
    [0x45, 0x62, 0x83, 0xA4, 0xC5, 0xE6, 0x07, 0x28, 0x48, 0x6B, 0x8A, 0xAD, 0xCC, 0xEF, 0x0E, 0x31,
     0x53, 0x70, 0x91, 0xB6, 0xD7, 0xF4, 0x15, 0x3A, 0x5A, 0x79, 0x98, 0xBF, 0xDE, 0xFD, 0x1C, 0x03] := by decide +kernel
/-- The row r = 15 of section 2.6: S[7][0x20] is 0xDD in the spec's table, and F is 32 × 0x66. -/
theorem test_ffunc_row : feistelF { plainTables with sbox := fun n x => if n = 7 ∧ x = 0x20 then 0xDD else 0 }
    (counting 32) (Vector.ofFn fun i : Fin 32 => BitVec.ofNat 8 (i.val + 0x20)) 15 = Vector.replicate 32 0x66 := by
  decide +kernel
/-- Boxes of zeros. -/
def zeroBoxes : Tables := { plainTables with sbox := fun _ _ => 0 }

/-- With boxes of zeros F is 0. -/
theorem test_f_of_zero_boxes (x k : Half) (r : Fin 16) : feistelF zeroBoxes x k r = Vector.replicate 32 0 := by
  have h : substAll (roundSbox zeroBoxes r) (xorBytes x k) = Vector.replicate 32 0 := by
    ext i hi; simp [substAll, roundSbox, zeroBoxes]
  have hu : neighbourMix (Vector.replicate 32 0) = Vector.replicate 32 0 := by decide +kernel
  have hp : perm256 zeroBoxes (Vector.replicate 32 0) = Vector.replicate 32 0 := by decide +kernel
  simp only [feistelF, h, hu, hp, ite_self]
theorem test_xor_zeros (a : Half) : xorBytes a (Vector.replicate 32 0) = a := by
  ext i hi; simp [xorBytes]
/-- F being 0, sixteen rounds are an even number of swaps, and the halves are put out right half first (R111). -/
theorem test_enc_order (rk : Vector Half 16) (b : Block) :
    feistelEnc zeroBoxes rk b = joinHalves (rightHalf b) (leftHalf b) := by
  simp only [feistelEnc, List.finRange, encRound, test_f_of_zero_boxes, test_xor_zeros, List.ofFn, Fin.foldr,
    Fin.foldr.loop, List.foldl]
/-- The same for decryption, which takes R from the first half and L from the second (R112, conflict C1). -/
theorem test_dec_order (rk : Vector Half 16) (b : Block) :
    feistelDec zeroBoxes rk b = joinHalves (rightHalf b) (leftHalf b) := by
  simp only [feistelDec, List.finRange, decRound, test_f_of_zero_boxes, test_xor_zeros, List.ofFn, Fin.foldr,
    Fin.foldr.loop, List.reverse, List.reverseAux, List.foldl]

/-- The hand check of section 2.7: RK[0][0] = S[0][0x00 xor 0xB9], RK[0][1] = S[0][0x01 xor 0x72]. -/
theorem test_ksched_first_bytes :
    (roundKey { plainTables with mixc := fun _ k => if k = 0 then 0x9E3779B9 else 0x3C6EF372 } 0 (counting 64)).toList.take 2 =
      [0xB9, 0x73] := by decide +kernel
/-- Rotation left by 3 takes byte 3 to index 0, and the round key is xored in. -/
theorem test_ksched_rotates : (nextKey (counting 64) (Vector.replicate 32 0xFF))[0] = 0xFC ∧
    (nextKey (counting 64) (Vector.replicate 32 0xFF))[63] = 0xFD := by decide +kernel

/-- Group 0 of step 3a by hand: BE32(2E B8 CC 5C) xor 0x9E3779B9 = 0xB08FB5E5, and group 4 takes constant 0 again. -/
theorem test_kdf_group :
    (xorConstants (fun k => if k = 0 then 0x9E3779B9 else 0)
      (Vector.ofFn fun i : Fin 64 => [(0x2E : Byte), 0xB8, 0xCC, 0x5C].getD (i.val % 4) 0)).toList.take 20 =
      [0xB0, 0x8F, 0xB5, 0xE5, 0x2E, 0xB8, 0xCC, 0x5C, 0x2E, 0xB8, 0xCC, 0x5C, 0x2E, 0xB8, 0xCC, 0x5C,
       0xB0, 0x8F, 0xB5, 0xE5] := by decide +kernel
/-- Step 3d runs at 1000 and not at 0 (R104). -/
theorem test_kdf_periods : (kdfRehash plainTables 1000 (counting 64))[1] = 0 ∧ (kdfRehash plainTables 0 (counting 64))[1] = 1 ∧
    (kdfRehash plainTables 100 (counting 64))[1] = 1 := by decide +kernel

/-- The last of the five rounds is the one that counts (R118, R119). -/
theorem test_tag_last_box : tagFunction { plainTables with sbox := fun n _ => BitVec.ofNat 8 n.val } [] [] =
    Vector.replicate 32 4 := by decide +kernel
/-- Differences that cancel under xor do not cancel in the or-fold (N15). -/
theorem test_tag_or_fold : tagMatches (((Vector.replicate 32 (0 : Byte)).setIfInBounds 0 1).setIfInBounds 31 1)
    (Vector.replicate 32 0) = false ∧ tagMatches (counting 32) (counting 32) = true := by decide +kernel

/-! ### One step on a small state -/

theorem test_nop_step : exec .nop .reset = .next { State.reset with irqStatus := 1 } := rfl
theorem test_zeroize_step : exec .zeroize { State.reset with mkey := counting 64, iter := 5 } =
    .next { State.reset with iter := 5, irqStatus := 1 } := rfl
theorem test_fetch_runs_first : step (State.reset.withFetchWord 32 0x00000000) =
    .next { State.reset with irqStatus := 1 } := rfl
theorem test_fetch_before_inputs : (({ State.reset with inputs := [.reset] } : State).withFetchWord 32 0x11).inputs =
    [.coreTurn, .reset] := rfl

/-! ### The host contract (sections 2.11 and 2.12 of the vectors) -/

theorem test_padding : addPadding [0x61] = 0x61 :: List.replicate 63 63 ∧ (addPadding []).length = 64 ∧
    (addPadding (List.replicate 64 0)).length = 128 ∧ (addPadding (List.replicate 64 0)).getLast? = some 64 := by decide +kernel
theorem test_unpadding_fails : removePadding [] = .error .invalidPadding ∧ removePadding [0] = .error .invalidPadding ∧
    removePadding (List.replicate 64 65) = .error .invalidPadding ∧ removePadding [2] = .error .invalidPadding ∧
    removePadding [1, 2] = .error .invalidPadding ∧ removePadding [9, 1] = .ok [9] := by decide +kernel
theorem test_decrypt_alignment : decryptMessage plainTables [] "" [] = .error .invalidInput ∧
    decryptMessage plainTables [1] "" [] = .error .invalidInput := ⟨rfl, rfl⟩
theorem test_verifyTag_length : verifyTag plainTables [] (List.replicate 31 0) [] = false ∧
    verifyTag plainTables [] (List.replicate 32 0) [] = true := by decide +kernel
/-- spec/48_host_facade.md R128: a tag of 31 bytes is false without an access. -/
theorem test_hostVerifyTag_length (turns : Turns) (w : Session) :
    hostVerifyTag 0 [] (List.replicate 31 0) [] turns w = .ok (false, w) := rfl
/-- spec/30_encoding.md R82: with the core's turn before the second read, wait reads twice and no more. -/
theorem test_hostWait_stops_at_idle :
    (hostWait 5 (fun n => n == 1) ⟨busyWith 0 [], 0⟩).toOption.map (fun r => r.2.accesses) = some 2 := by
  rw [hostWait, andThen_ok (hostRead_status (u := busyWith 0 []) rfl), if_pos (by decide), hostWait,
    andThen_ok (hostRead_status (u := complete { busyWith 0 [] with response := some (.value 1) }) rfl),
    if_neg (by decide)]
  rfl
/-- R82: the loop runs out of fuel while the core has no turn. -/
theorem test_hostWait_fuel : hostWait 1 (fun _ => false) ⟨busyWith 0 [], 0⟩ = .error .outOfFuel := by
  rw [hostWait, andThen_ok (hostRead_status (u := busyWith 0 []) rfl), if_pos (by decide)]
  rfl

/-! ### Witnesses: for each statement with hypotheses, states and operands that meet them, clause by clause

A statement that is not here has no hypothesis. -/

/-- MSGBUF holds at least the two 32-byte slices the witnesses use (R11). -/
theorem test_cap : 64 ≤ Config.msgBufBytes := Nat.le_add_left _ _
/-- The window reaches past the first words of MSGBUF (R51). -/
theorem test_win : 0x1040 ≤ Config.winBytes := by have := test_cap; unfold Config.winBytes; omega
theorem test_inv_idleWith (xs : List Input) : Inv (idleWith xs) :=
  inv_of_idle _ ⟨List.Pairwise.nil, by simp [idleWith, State.reset]⟩ (by simp [idleWith, State.reset]) rfl
theorem test_inv_busyWith (v : Word) (i : Instr) (xs : List Input) (hd : decode v = .ok i)
    (hl : lenOk i State.reset = true) : Inv (busyWith v xs) :=
  ⟨⟨List.Pairwise.nil, by simp [busyWith, State.reset]⟩, by simp [busyWith, State.reset], fun _ => ⟨i, hd, hl⟩,
    fun _ => rfl⟩

theorem witness_DecodedWordsAreTheTablesRows : decode 0x00003001 = .ok (.sboxSub 3) ∧ ∃ row ∈ matchMaskRows,
    matchesRow 0x00003001 row = true := ⟨rfl, rowOf (.sboxSub 3), by decide, by decide⟩
theorem witness_FieldChecksNameTheDecodableWords : decode 0x00000510 = .ok (.ffunc 5) := rfl
theorem witness_StepCompletesTheLatchedCommand : decode (busyWith 0x11 []).latch = .ok .enc ∧
    (busyWith 0x11 []).seq = .busy ∧ (busyWith 0x11 []).inputs = [] ∧
    decode (busyWith 0x41 [.coreTurn, .reset]).latch = .ok .tagVerify ∧ (busyWith 0x41 [.coreTurn, .reset]).seq = .busy ∧
    (busyWith 0x41 [.coreTurn, .reset]).inputs = .coreTurn :: [.reset] := ⟨rfl, rfl, rfl, rfl, rfl, rfl⟩
/-- A CMD write while busy, an illegal one and an accepted one; the length error wherever MSGBUF is smaller than the
lengths can name. -/
theorem witness_CommandWriteIsAcceptedOrRecorded :
    ((busyWith 0x11 [wr (regOffset .cmd) 0]).inputs = [wr (regOffset .cmd) 0] ∧
      (busyWith 0x11 [wr (regOffset .cmd) 0]).seq = .busy) ∧
    ((idleWith [wr (regOffset .cmd) 0xB001]).inputs = [wr (regOffset .cmd) 0xB001] ∧
      decode 0xB001 = .error .unusedFieldSet) ∧
    ((idleWith [wr (regOffset .cmd) 0x30]).inputs = [wr (regOffset .cmd) 0x30] ∧ decode 0x30 = .ok .kdf ∧
      (idleWith [wr (regOffset .cmd) 0x30]).msgLen.toNat ≤ Config.msgBufBytes) ∧
    (Config.msgBufBytes < 2 ^ 33 - 2 → ¬ (0xFFFFFFFF#32).toNat + (0xFFFFFFFF#32).toNat ≤ Config.msgBufBytes) := by
  refine ⟨⟨rfl, rfl⟩, ⟨rfl, rfl⟩, ⟨rfl, rfl, Nat.zero_le _⟩, fun h => ?_⟩
  rw [show (0xFFFFFFFF#32).toNat = 2 ^ 32 - 1 from rfl]; omega
theorem witness_WordMatchingNoRowStartsNothing : (idleWith [wr (regOffset .cmd) 0xB001]).seq = .idle ∧
    (idleWith [wr (regOffset .cmd) 0xB001]).inputs = [wr (regOffset .cmd) 0xB001] ∧
    ∀ row ∈ matchMaskRows, matchesRow 0xB001 row = false := by
  have h : matchMaskRows.all (fun row => !matchesRow 0xB001 row) = true := by decide
  exact ⟨rfl, rfl, fun row hr => by simpa using List.all_eq_true.mp h row hr⟩
theorem witness_AcceptedCommandCompletes : Inv (busyWith 0x11 []) ∧ (busyWith 0x11 []).seq = .busy ∧
    (busyWith 0x11 []).inputs = [] := ⟨test_inv_busyWith _ .enc _ rfl rfl, rfl, rfl⟩
theorem witness_BusyEndsOnlyByCompletionOrReset :
    (∃ t, step (busyWith 0 [.reset]) = .next t ∧ t.seq = .idle) ∧ (∃ t, step (busyWith 0 []) = .next t ∧ t.seq = .idle) ∧
    (∃ t, step (busyWith 0 [.coreTurn]) = .next t ∧ t.seq = .idle) ∧ (busyWith 0 []).seq = .busy :=
  ⟨⟨_, rfl, rfl⟩, ⟨_, rfl, rfl⟩, ⟨_, rfl, rfl⟩, rfl⟩
theorem witness_HostCannotDisturbARunningCommand : Inv (busyWith 0x11 []) ∧ (busyWith 0x11 []).seq = .busy ∧
    decode (busyWith 0x11 []).latch = .ok .enc ∧
    ∀ x ∈ [Access.write (Config.coreBase + 0x40) 4 7, .read (Config.coreBase + 0x7C) 4, .write Config.coreBase 1 0],
      ReachesCore x := by
  refine ⟨test_inv_busyWith _ .enc _ rfl rfl, rfl, rfl, ?_⟩
  simp [ReachesCore, accessAddr]
theorem witness_RegisterReadsReturnTheirValues (r : Reg) :
    (idleWith [rd (regOffset r)]).inputs = [rd (regOffset r)] ∧ (busyWith 0 [rd (regOffset r)]).inputs = [rd (regOffset r)] :=
  ⟨rfl, rfl⟩
/-- Any offset: among them the nine of the statement, with TAG's first and last word. -/
theorem witness_RegisterWritesWhileIdle (off : Nat) (v : Word) : (idleWith [wr off v]).seq = .idle ∧
    (idleWith [wr off v]).inputs = [wr off v] ∧ 0 < 8 ∧ 7 < 8 := ⟨rfl, rfl, by decide, by decide⟩
/-- Both ends of every buffer, read and written. -/
theorem witness_BufferWordsAreBigEndian (b : Buffer) (m : Nat) (v : Word) (hm : m = 0 ∨ m = bufferSize b / 4 - 1) :
    (idleWith [rd (bufferBase b + 4 * m)]).seq = .idle ∧ Memory.wf (idleWith [rd (bufferBase b + 4 * m)]).msgbuf ∧
    4 * m < bufferSize b ∧ (idleWith [rd (bufferBase b + 4 * m)]).inputs = [rd (bufferBase b + 4 * m)] ∧
    (idleWith [wr (bufferBase b + 4 * m) v]).seq = .idle ∧ Memory.wf (idleWith [wr (bufferBase b + 4 * m) v]).msgbuf ∧
    (idleWith [wr (bufferBase b + 4 * m) v]).inputs = [wr (bufferBase b + 4 * m) v] := by
  refine ⟨rfl, (test_inv_idleWith _).1, ?_, rfl, rfl, (test_inv_idleWith _).1, rfl⟩
  have := test_cap
  cases b <;> simp only [bufferSize] at * <;> omega
/-- A narrow access, a misaligned one, and both ends of both holes. -/
theorem witness_BadAccessIsABusError :
    (∀ off ∈ [0x24, 0x3C, 0x300, 0xFFC], off < Config.winBytes ∧
      ((0x24 ≤ off ∧ off < 0x40) ∨ (0x300 ≤ off ∧ off < 0x1000)) ∧
      (idleWith [rd off]).inputs = [rd off] ∧ accessAddr (.read (Config.coreBase + off) 4) = Config.coreBase + off) ∧
    (0x40 < Config.winBytes ∧ accessBytes (.write (Config.coreBase + 0x40) 2 9) ≠ 4 ∧
      accessAddr (.write (Config.coreBase + 0x40) 2 9) = Config.coreBase + 0x40) ∧
    (0x41 < Config.winBytes ∧ 0x41 % 4 ≠ 0 ∧ accessAddr (.read (Config.coreBase + 0x41) 4) = Config.coreBase + 0x41) := by
  have := test_win
  refine ⟨?_, ⟨by omega, by decide, rfl⟩, by omega, by decide, rfl⟩
  intro off ho
  simp only [List.mem_cons, List.not_mem_nil, or_false] at ho
  refine ⟨by omega, by omega, rfl, rfl⟩
theorem witness_AccessOutsideTheWindow : (idleWith [rd Config.winBytes]).inputs = [rd Config.winBytes] ∧
    Config.coreBase + Config.winBytes ≤ accessAddr (.read (Config.coreBase + Config.winBytes) 4) := ⟨rfl, Nat.le_refl _⟩
theorem witness_BusyBufferReadIsADraw (b : Buffer) (m : Nat) (hm : m = 0 ∨ m = bufferSize b / 4 - 1) :
    (busyWith 0x11 [rd (bufferBase b + 4 * m)]).seq = .busy ∧ 4 * m < bufferSize b ∧
    (busyWith 0x11 [rd (bufferBase b + 4 * m)]).inputs = [rd (bufferBase b + 4 * m)] := by
  refine ⟨rfl, ?_, rfl⟩
  have := test_cap
  cases b <;> simp only [bufferSize] at * <;> omega
/-- Any offset of the statement's lists: the last word of each buffer is inside it. -/
theorem witness_BusyWritesToInputsAreDropped (off : Nat) (v : Word) : (busyWith 0x11 [wr off v]).seq = .busy ∧
    (busyWith 0x11 [wr off v]).inputs = [wr off v] ∧ ∀ b, 4 * (bufferSize b / 4 - 1) < bufferSize b := by
  refine ⟨rfl, rfl, fun b => ?_⟩
  have := test_cap
  cases b <;> simp only [bufferSize] at * <;> omega
theorem witness_BusyControlWritesActAsWhenIdle (off : Nat) (v : Word) : (busyWith 0x11 [wr off v]).seq = .busy ∧
    (busyWith 0x11 [wr off v]).inputs = [wr off v] ∧ 0 < 8 ∧ 7 < 8 := ⟨rfl, rfl, by decide, by decide⟩
/-- A read of a register, a draw, and a read of a hole. -/
theorem witness_ReadsNeverChangeTheCore :
    (∃ t, step (idleWith [rd (regOffset .status)]) = .next t) ∧ (∃ t, step (busyWith 0 [rd 0x40]) = .next t) ∧
    (∃ t, step (idleWith [rd 0x24]) = .next t) := by
  refine ⟨⟨_, step_rd_reg _ .status [] rfl⟩, ⟨_, step_rd_word _ .data 0 [] (by decide) rfl⟩,
    ⟨raiseBusError (Config.coreBase + 0x24) (idleWith []), ?_⟩⟩
  · rw [step_access _ _ [] rfl]; simp [hostAccess, readAt, accessPlace, placeAt, placeWithin, idleWith]
theorem witness_FirstErrorIsKeptUntilCleared :
    (∃ t, step { idleWith [wr (regOffset .status) 2] with errCode := .busyCmd } = .next t ∧ t.errCode = .none) ∧
    (∃ t, step { idleWith [.reset] with errCode := .busyCmd } = .next t ∧ t.errCode = .none) :=
  ⟨⟨_, step_wr_reg _ .status 2 [] rfl, rfl⟩, ⟨_, rfl, rfl⟩⟩
/-- Both bits, cleared by the host and by reset. -/
theorem witness_PendingBitsFallOnlyByHostOrReset (b : Nat) (hb : b < 2) :
    (∃ t, step { idleWith [wr (regOffset .irqStatus) 3] with irqStatus := 3 } = .next t ∧ t.irqStatus.getLsbD b = false) ∧
    (∃ t, step { idleWith [.reset] with irqStatus := 3 } = .next t ∧ t.irqStatus.getLsbD b = false) ∧
    (3#2).getLsbD b = true := by
  match b, hb with
  | 0, _ | 1, _ => exact ⟨⟨_, step_wr_reg _ .irqStatus 3 [] rfl, rfl⟩, ⟨_, rfl, rfl⟩, rfl⟩
theorem witness_ResetSetsEveryRegisterAndBuffer : (busyWith 0x11 [.reset, .coreTurn]).inputs = .reset :: [.coreTurn] := rfl
/-- Reset, an acceptance after a match, and a TAG_VERIFY that finds one. -/
theorem witness_TagMatchChangesOnlyAsListed :
    (∃ t, step { idleWith [.reset] with tagMatch := true } = .next t ∧ t.tagMatch = false) ∧
    (∃ t, step { idleWith [wr (regOffset .cmd) 0] with tagMatch := true } = .next t ∧ t.tagMatch = false) ∧
    (∃ t, step { busyWith 0x41 [] with exptag := computedTag tables (busyWith 0x41 []) } = .next t ∧ t.tagMatch = true) := by
  refine ⟨⟨_, rfl, rfl⟩, ⟨_, step_wr_reg _ .cmd 0 [] rfl, rfl⟩, ?_⟩
  have hm (t : Half) : tagMatches t t = true := by
    simp only [tagMatches, tagDifference, BitVec.xor_self, BitVec.or_zero, List.foldl_fixed, decide_true]
  have h : step { busyWith 0x41 [] with exptag := computedTag tables (busyWith 0x41 []) } =
      execTagVerify { busyWith 0x41 [] with exptag := computedTag tables (busyWith 0x41 []) } := rfl
  rw [h]
  have hl : lenOk .tagVerify { busyWith 0x41 [] with exptag := computedTag tables (busyWith 0x41 []) } = true := rfl
  refine ⟨_, by rw [execTagVerify, completeWithin, if_pos hl], ?_⟩
  have hc : computedTag tables { busyWith 0x41 [] with exptag := computedTag tables (busyWith 0x41 []) } =
      computedTag tables (busyWith 0x41 []) := by simp only [computedTag, tagData, tagKey, msgSlice]
  simp only [complete, hc, hm]
/-- Reset, and ZEROIZE, over a TAG that is not zero. -/
theorem witness_TagChangesOnlyByItsCommands :
    (∃ t, step { idleWith [.reset] with tag := Vector.replicate 32 1 } = .next t ∧ t.tag ≠ Vector.replicate 32 1) ∧
    (∃ t, step { busyWith 0xF0 [] with tag := Vector.replicate 32 1 } = .next t ∧ t.tag ≠ Vector.replicate 32 1) ∧
    decode 0xF0 = .ok .zeroize := by
  refine ⟨⟨_, rfl, ?_⟩, ⟨_, rfl, ?_⟩, rfl⟩ <;> decide +kernel
theorem witness_StepKeepsTheInvariant : Inv (idleWith [wr (regOffset .cmd) 0x11]) ∧
    ∃ t, step (idleWith [wr (regOffset .cmd) 0x11]) = .next t := ⟨test_inv_idleWith _, _, step_wr_reg _ .cmd 0x11 [] rfl⟩
/-- An idle state with an access to come, and a busy one. -/
theorem witness_SoundStatesNeverFault : Inv (idleWith [.access (.read 0 4)]) ∧ Inv (busyWith 0x40 []) :=
  ⟨test_inv_idleWith _, test_inv_busyWith _ .tagGen _ rfl rfl⟩
/-- Some bit of the low half comes from somewhere, wherever P reaches every position (TablesAreBijections). -/
theorem witness_Bitperm256MovesTheHalfBlocksBits (h : Function.Surjective tables.perm) :
    ∃ k : Fin 512, (tables.perm k).val < 256 := by
  obtain ⟨k, hk⟩ := h 0
  exact ⟨k, by rw [hk]; decide⟩
theorem witness_KdfIteratesFromTheHash : ({ State.reset with msgLen := 64 } : State).msgLen.toNat ≤ Config.msgBufBytes :=
  test_cap
theorem witness_TagGenWritesTheTag : ({ State.reset with keyLen := 32, msgLen := 32 } : State).keyLen.toNat +
    ({ State.reset with keyLen := 32, msgLen := 32 } : State).msgLen.toNat ≤ Config.msgBufBytes := test_cap
theorem witness_TagVerifyDecidesEquality : ({ State.reset with keyLen := 0, msgLen := 64 } : State).keyLen.toNat +
    ({ State.reset with keyLen := 0, msgLen := 64 } : State).msgLen.toNat ≤ Config.msgBufBytes := test_cap
theorem witness_ScheduleUsesLowBytesOnly : ({ plainTables with mixc := fun _ _ => 0x9E3779B9 } : Tables).sbox =
    ({ plainTables with mixc := fun _ _ => 0xB9 } : Tables).sbox ∧
    ∀ (r : Fin 16) (k : Fin 4), (({ plainTables with mixc := fun _ _ => 0x9E3779B9 } : Tables).mixc r k).extractLsb' 0 8 =
      (({ plainTables with mixc := fun _ _ => 0xB9 } : Tables).mixc r k).extractLsb' 0 8 :=
  ⟨rfl, fun _ _ => (by decide : (0x9E3779B9 : Word).extractLsb' 0 8 = (0xB9 : Word).extractLsb' 0 8)⟩
/-- Two states that differ in MKEY and in MSGBUF past MSG_LEN. -/
theorem witness_KdfReadsOnlyItsInputs :
    let s : State := { State.reset with msgLen := 4 }
    let s' : State := { s with mkey := counting 64, msgbuf := [(4, 9)] }
    s'.msgLen = s.msgLen ∧ s'.iter = s.iter ∧
    (∀ i < s.msgLen.toNat, readByte .msgbuf i s' = readByte .msgbuf i s) ∧
    (∃ t, exec .kdf s = .next t) ∧ (∃ t', exec .kdf s' = .next t') := by
  have h : lenOk .kdf { State.reset with msgLen := 4 } = true := by
    have := test_cap
    simp only [lenOk, lenOkWithin, decide_eq_true_eq]
    exact Nat.le_trans (by decide) this
  refine ⟨rfl, rfl, fun i hi => ?_, exec_completes .kdf _ h, exec_completes .kdf _ h⟩
  have hi : i < 4 := hi
  simp [readByte, Memory.read, State.reset, Nat.ne_of_lt hi]
/-- A version-2 envelope of zeros with a body of n bytes: the tag of `plainTables` is 32 zeros. -/
def zeroEnvelope (n : Nat) : List Byte := envelopeMark ++ List.replicate (64 + n) 0
/-- A short envelope, the version-1 mark, an unknown mark, and a version-2 envelope with a wrong tag, each at the least
length its clause admits; then version-2 envelopes whose tag verifies with no body, a byte, and a block. -/
theorem witness_EnvelopeDispatchFollowsTheMark :
    (List.replicate 68 (0 : Byte)).length < 69 ∧
    (69 ≤ (legacyMark ++ List.replicate 64 (0 : Byte)).length ∧
      (legacyMark ++ List.replicate 64 (0 : Byte)).take 5 = [0x01, 0x42, 0x4C, 0x4B, 0x45]) ∧
    (69 ≤ (List.replicate 69 (0 : Byte)).length ∧ (List.replicate 69 (0 : Byte)).take 5 ≠ [0x02, 0x42, 0x4C, 0x41, 0x35] ∧
      (List.replicate 69 (0 : Byte)).take 5 ≠ [0x01, 0x42, 0x4C, 0x4B, 0x45]) ∧
    (69 ≤ (envelopeMark ++ List.replicate 64 (1 : Byte)).length ∧
      (envelopeMark ++ List.replicate 64 (1 : Byte)).take 5 = [0x02, 0x42, 0x4C, 0x41, 0x35] ∧
      verifyTag plainTables ((envelopeMark ++ List.replicate 64 (1 : Byte)).take 37 ++
          (envelopeMark ++ List.replicate 64 (1 : Byte)).drop 69)
        (((envelopeMark ++ List.replicate 64 (1 : Byte)).drop 37).take 32)
        (((envelopeMark ++ List.replicate 64 (1 : Byte)).drop 5).take 32) = false) ∧
    [0, 1, 64].all (fun n => (zeroEnvelope n).length == 69 + n && (zeroEnvelope n).take 5 == envelopeMark &&
      verifyTag plainTables ((zeroEnvelope n).take 37 ++ (zeroEnvelope n).drop 69) (((zeroEnvelope n).drop 37).take 32)
        (((zeroEnvelope n).drop 5).take 32)) = true := by decide +kernel
/-- The core at reset, idle; one busy without the turn; and turns under which no wait runs out. -/
theorem witness_WaitPollsUntilCompletion :
    (Inv State.reset ∧ State.reset.seq = .idle ∧ lenOk .tagVerify State.reset = true) ∧
    ((busyWith 0x11 []).seq = .busy ∧ (fun _ => false : Turns) 0 = false) ∧ PromptTurns 1 (fun _ => true) :=
  ⟨⟨test_inv_idleWith [], rfl, rfl⟩, ⟨rfl, rfl⟩, fun _ => ⟨0, by decide, rfl⟩⟩
theorem witness_HostSequenceEncryptsABlock : Inv State.reset ∧ State.reset.seq = .idle := ⟨test_inv_idleWith [], rfl⟩
/-- The empty password with the longest salt every core's MSGBUF has room for. -/
theorem witness_HostSequenceDerivesTheRoundKeys : Inv State.reset ∧ State.reset.seq = .idle ∧
    (utf8 "" ++ List.replicate 64 (1 : Byte)).length ≤ Config.msgBufBytes ∧
    (utf8 "" ++ List.replicate 64 (1 : Byte)).length < 2 ^ 32 :=
  ⟨test_inv_idleWith [], rfl, test_cap, by decide⟩
/-- A signed part that fills MSGBUF exactly on the smallest core. -/
theorem witness_HostSequenceComputesTheTag : Inv State.reset ∧ State.reset.seq = .idle ∧
    32 + (List.replicate 32 (1 : Byte)).length ≤ Config.msgBufBytes ∧ (List.replicate 32 (1 : Byte)).length < 2 ^ 32 :=
  ⟨test_inv_idleWith [], rfl, test_cap, by decide⟩
/-- The empty password: with the longest salt every core has room for, ERRCODE clear and set; with one byte too many on
any core; and a seal of one padding block, which fits a core of 133 bytes or more and overruns every other. -/
theorem witness_HostSealsAMessageOnTheCore :
    (Inv State.reset ∧ State.reset.seq = .idle ∧ State.reset.errCode = .none) ∧
    (Inv { State.reset with errCode := .illegalCmd } ∧ ({ State.reset with errCode := .illegalCmd } : State).errCode ≠ .none) ∧
    (utf8 "" ++ List.replicate 64 (1 : Byte)).length ≤ Config.msgBufBytes ∧
    (utf8 "" ++ List.replicate 64 (1 : Byte)).length < 2 ^ 32 ∧
    Config.msgBufBytes < (utf8 "" ++ List.replicate (Config.msgBufBytes + 1) (1 : Byte)).length ∧
    (∀ salt : Half, (utf8 "" ++ salt.toList).length ≤ Config.msgBufBytes ∧
      (133 ≤ Config.msgBufBytes → 69 + (encryptMessage tables [] "" salt.toList).length ≤ Config.msgBufBytes ∧
        69 + (encryptMessage tables [] "" salt.toList).length < 2 ^ 32) ∧
      (Config.msgBufBytes < 133 → Config.msgBufBytes < 69 + (encryptMessage tables [] "" salt.toList).length)) := by
  have size (salt : Half) : 69 + (encryptMessage tables [] "" salt.toList).length = 133 := by
    simp [encryptMessage, mapBlocks, blocksOf, addPadding]
  refine ⟨⟨test_inv_idleWith [], rfl, rfl⟩, ⟨inv_of_idle _ (test_inv_idleWith []).msgbufCanonical
    (test_inv_idleWith []).msgbufInside rfl, by decide⟩, test_cap, by decide, by simp [utf8],
    fun salt => ⟨?_, fun h => by rw [size]; exact ⟨h, by decide⟩, fun h => by rw [size]; exact h⟩⟩
  have := test_cap
  simp [utf8]; omega
/-- A tag of 31 bytes; one of 32 with a key and data that fill MSGBUF exactly on the smallest core; and data one byte
too long for any core. -/
theorem witness_HostVerifiesATagOnTheCore : Inv State.reset ∧ State.reset.seq = .idle ∧
    (List.replicate 31 (0 : Byte)).length ≠ 32 ∧ (List.replicate 32 (0 : Byte)).length = 32 ∧
    (List.replicate 32 (1 : Byte)).length + (List.replicate 32 (2 : Byte)).length ≤ Config.msgBufBytes ∧
    (List.replicate 32 (1 : Byte)).length < 2 ^ 32 ∧
    Config.msgBufBytes < ([] : List Byte).length + (List.replicate (Config.msgBufBytes + 1) (1 : Byte)).length :=
  ⟨test_inv_idleWith [], rfl, by decide, by decide, test_cap, by decide, by simp⟩

end Sys2Proof.Tests
end

/-! PROOFS. The two bit permutations (spec/41_sbox_perm.md R96 to R99): P sends no two positions to one, so a scatter along
P moves every bit to a place of its own; then the two commands that expose it. -/

namespace Sys2Proof.Machine

open Sys2Proof.Safety

/-! ### The permutation table -/

/-- A swap, in range or not, only reorders a vector. -/
theorem swapIfInBounds_perm {α : Type} {n : Nat} (a : Vector α n) (i j : Nat) : (a.swapIfInBounds i j).Perm a := by
  constructor
  change (a.toArray.swapIfInBounds i j).Perm a.toArray
  rw [Array.swapIfInBounds_def]
  split
  · split
    · exact Array.swap_perm _ _
    · exact Array.Perm.rfl
  · exact Array.Perm.rfl

/-- The shuffle only reorders the vector it starts from, whatever its update and its seed (R91, R92). -/
theorem shuffle_perm {n : Nat} (update : Nat → Nat) (i s : Nat) (a : Vector (Fin n) n) :
    (shuffle update i s a).Perm a := by
  induction i generalizing s a with
  | zero => exact Vector.Perm.rfl
  | succ i ih => exact (ih _ _).trans (swapIfInBounds_perm _ _ _)

/-- A reordering of all n values takes no value twice. -/
theorem getElem_injective_of_perm_ofFn_id {n : Nat} (a : Vector (Fin n) n) (h : a.Perm (Vector.ofFn id)) :
    Function.Injective fun k : Fin n => a[k] := by
  have hnodup : a.toList.Nodup := by
    rw [h.toList.nodup_iff, Vector.toList_ofFn]
    exact List.nodup_ofFn.2 Function.injective_id
  intro j k hjk
  have hval : a.toList[j.val]'(by simp) = a.toList[k.val]'(by simp) := by simpa using hjk
  exact Fin.ext (hnodup.getElem_inj_iff.1 hval)

/-- P sends no two positions to one, for every PERM_SEED (R44, R93(a)). -/
theorem tablesOf_perm_injective (c : CipherContext) : Function.Injective (tablesOf c).perm :=
  getElem_injective_of_perm_ofFn_id _ (shuffle_perm _ _ _ _)

/-- This core's P sends no two positions to one. -/
theorem tables_perm_injective : Function.Injective tables.perm := tablesOf_perm_injective Config.context

/-! ### The scatter along an injective P -/

/-- Bit P[k] after `perm512` is bit k before it (R96). -/
theorem bitOf_perm512 (T : Tables) (hP : Function.Injective T.perm) (b : Block) (k : Fin 512) :
    bitOf (perm512 T b) (T.perm k).val = bitOf b k.val := by
  rw [perm512, bitOf_packBits _ _ (T.perm k).isLt]
  exact scatterBits_hit (fun k => (T.perm k).val) _ k (T.perm k).isLt fun k' he => hP (Fin.ext he)

/-- Bit P[k] after `perm256`, where that is a position of the half: bit k before it, or 0 where the half has no bit k
(R97). -/
theorem bitOf_perm256 (T : Tables) (hP : Function.Injective T.perm) (h : Half) (k : Fin 512)
    (hk : (T.perm k).val < 256) :
    bitOf (perm256 T h) (T.perm k).val = (decide (k.val < 256) && bitOf h k.val) := by
  rw [perm256, bitOf_packBits _ _ hk]
  by_cases hlt : k.val < 256
  · rw [decide_eq_true hlt, Bool.true_and]
    refine scatterBits_hit (fun k : Fin 256 => (T.perm (k.castLE (by decide))).val) _ ⟨k.val, hlt⟩ hk fun k' he => ?_
    exact Fin.castLE_injective _ (hP (Fin.ext he))
  · rw [decide_eq_false hlt, Bool.false_and]
    refine scatterBits_miss _ _ _ hk fun k' he => hlt ?_
    rw [← hP (Fin.ext he)]
    exact k'.isLt

/-! ### Bits of the left half -/

/-- The first 256 bits of two halves joined are the left half's. -/
theorem bitOf_joinHalves_left (l r : Half) (k : Nat) (hk : k < 256) : bitOf (joinHalves l r) k = bitOf l k := by
  rw [bitOf, bitOf, byteOf_lt _ _ (by omega), byteOf_lt _ _ (by omega), joinHalves_getElem _ _ _ (by omega),
    dif_pos (by omega)]

/-- The bits of the left half are the block's first 256. -/
theorem bitOf_leftHalf (b : Block) (k : Nat) (hk : k < 256) : bitOf (leftHalf b) k = bitOf b k := by
  rw [← bitOf_joinHalves_left (leftHalf b) (rightHalf b) k hk, joinHalves_halves]

/-- The right half of two halves joined lies at bytes 32 to 63. -/
theorem joinHalves_rightHalf_getElem (l : Half) (b : Block) (j : Nat) (hj : j < 64) (h32 : 32 ≤ j) :
    (joinHalves l (rightHalf b))[j] = b[j] := by
  rw [joinHalves_getElem _ _ _ hj, dif_neg (by omega), rightHalf_getElem _ _ (by omega)]
  simp only [Nat.sub_add_cancel h32]

/-! ### The commands -/

/-- A command that completes with a new DATA leaves every byte of the other buffers. -/
theorem buffersKept_complete_data (s : State) (d : Block) :
    BuffersKept [.data] s (complete { s with data := d }) := by
  intro b hb i
  cases b with
  | data => exact absurd (List.mem_singleton.2 rfl) hb
  | mkey | tag | exptag | rk | msgbuf => rfl

/-- BITPERM512 answers the completion with DATA permuted (R98). -/
theorem exec_bitperm512 (s : State) :
    exec .bitperm512 s = .next (complete { s with data := perm512 tables s.data }) := rfl

/-- BITPERM256 answers the completion with DATA's left half permuted (R99). -/
theorem exec_bitperm256 (s : State) :
    exec .bitperm256 s =
      .next (complete { s with data := joinHalves (perm256 tables (leftHalf s.data)) (rightHalf s.data) }) := rfl

/-- Settles O33: P is injective, so the scatter along it puts each bit in a place no other bit is sent to. -/
theorem bitperm512MovesEveryBit : Obligations.Bitperm512MovesEveryBit := by
  intro s
  have hexec := exec_bitperm512 s
  refine ⟨_, hexec, fun k => ?_, exec_tagMatch _ _ _ hexec (by decide), buffersKept_complete_data _ _,
    exec_completed _ _ _ hexec⟩
  rw [complete_data, bitOf_perm512 _ tables_perm_injective]

/-- Settles O34: a place of the left half is sent one of its bits, or none, and is then 0. -/
theorem bitperm256MovesTheHalfBlocksBits : Obligations.Bitperm256MovesTheHalfBlocksBits := by
  intro s
  have hexec := exec_bitperm256 s
  refine ⟨_, hexec, fun k hk => ?_, fun j hj => ?_, exec_tagMatch _ _ _ hexec (by decide),
    buffersKept_complete_data _ _, exec_completed _ _ _ hexec⟩
  · rw [complete_data, bitOf_joinHalves_left _ _ _ hk, bitOf_perm256 _ tables_perm_injective _ _ hk]
    by_cases hlt : k.val < 256
    · rw [bitOf_leftHalf _ _ hlt]
    · rw [decide_eq_false hlt, Bool.false_and, Bool.false_and]
  · exact joinHalves_rightHalf_getElem _ _ _ j.isLt hj

end Sys2Proof.Machine

/-! PROOFS. The interrupt output (spec/10_state.md R33) and the state after reset (R49). -/

namespace Sys2Proof.Machine

/-! ### The interrupt output -/

/-- irq is the disjunction of its two sources, each pending and enabled (R33). -/
theorem irq_eq_true_iff (s : State) :
    irq s = true ↔
      (s.irqStatus.getLsbD 0 = true ∧ s.irqEn.getLsbD 0 = true) ∨
      (s.irqStatus.getLsbD 1 = true ∧ s.irqEn.getLsbD 1 = true) := by
  rw [irq, Bool.or_eq_true, Bool.and_eq_true, Bool.and_eq_true]

/-- While nothing is pending irq is 0, whatever is enabled. -/
theorem irq_eq_false_of_irqStatus_eq_zero (s : State) (h : s.irqStatus = 0) : irq s = false := by
  rw [Bool.eq_false_iff, ne_eq, irq_eq_true_iff, h]
  rintro (⟨hpending, -⟩ | ⟨hpending, -⟩)
  · exact absurd hpending (by decide)
  · exact absurd hpending (by decide)

/-! ### The state after reset -/

/-- Reset leaves nothing pending, so irq is 0. -/
theorem irq_reset : irq State.reset = false := irq_eq_false_of_irqStatus_eq_zero _ rfl

/-- The buffers after reset are what ZEROIZE leaves (R88), so clearing them again changes nothing. -/
theorem clearBuffers_reset : clearBuffers State.reset = State.reset := rfl

/-- Every byte of every buffer is 0 after reset (R49). -/
theorem readByte_reset (b : Buffer) (j : Nat) : readByte b j State.reset = 0 := by
  rw [← clearBuffers_reset]
  exact readByte_clearBuffers b j State.reset

/-- STATUS reads 0 while no error is recorded, TAG_MATCH is 0 and the sequencer is idle (R57). -/
theorem statusWord_eq_zero (s : State) (herr : s.errCode = .none) (htag : s.tagMatch = false) (hseq : s.seq = .idle) :
    statusWord s = 0 := by
  rw [statusWord, statusErr, statusBusy, herr, htag, hseq]
  decide

/-- Settles O22: irq's two sources are each the conjunction of a pending and an enabling bit, and none is pending after
reset. -/
theorem irqIsTheEnabledPendingLevel : Obligations.IrqIsTheEnabledPendingLevel :=
  ⟨irq_eq_true_iff, irq_reset⟩

/-- Settles O24: the registers and constants are as listed by definition; STATUS, the buffers and irq by the lemmas
about their reads. -/
theorem stateAfterResetIsAsListed : Obligations.StateAfterResetIsAsListed := by
  have hstatus : statusWord State.reset = 0 := statusWord_eq_zero _ rfl rfl rfl
  exact ⟨hstatus, rfl, rfl, rfl, rfl, rfl, readByte_reset, rfl, rfl, irq_reset, rfl, rfl⟩

end Sys2Proof.Machine

/-! PROOFS. The big-endian words of the buffers (spec/20_memory.md R56), and the accesses that reach no place of the window
(R53 to R55). -/

namespace Sys2Proof.Machine

open Sys2Proof.Safety

/-! ### The bytes of a word -/

/-- The 8-bit fields of a buffer's word, the most significant first, are its bytes in order (R56). -/
theorem readWord_extract (b : Buffer) (i : Nat) (s : State) (k : Nat) (hk : k < 4) :
    (readWord b i s).extractLsb' (24 - 8 * k) 8 = readByte b (i + k) s := by
  obtain ⟨h0, h1, h2, h3⟩ :=
    be32_extract (readByte b i s) (readByte b (i + 1) s) (readByte b (i + 2) s) (readByte b (i + 3) s)
  match k, hk with
  | 0, _ => exact h0
  | 1, _ => exact h1
  | 2, _ => exact h2
  | 3, _ => exact h3

/-- An answer of the bus changes no byte of a buffer. -/
@[simp] theorem readByte_respond (b : Buffer) (i : Nat) (r : BusResponse) (s : State) :
    readByte b i (respond r s) = readByte b i s :=
  readByte_congr s _ ⟨rfl, rfl, rfl, rfl, rfl, rfl⟩ b i

/-- The inputs still to come are in no buffer. -/
@[simp] theorem readByte_inputs (b : Buffer) (i : Nat) (s : State) (xs : List Input) :
    readByte b i { s with inputs := xs } = readByte b i s :=
  readByte_congr s _ ⟨rfl, rfl, rfl, rfl, rfl, rfl⟩ b i

/-- The inputs still to come are in no word of a buffer. -/
@[simp] theorem readWord_inputs (b : Buffer) (i : Nat) (s : State) (xs : List Input) :
    readWord b i { s with inputs := xs } = readWord b i s := by
  simp only [readWord, readByte_inputs]

/-! ### TAG under the writes to the other buffers -/

/-- A byte written to another buffer leaves TAG. -/
theorem writeByte_tag (b : Buffer) (i : Nat) (v : Byte) (s : State) (hb : b ≠ .tag) :
    (writeByte b i v s).tag = s.tag := by
  cases b with
  | tag => exact absurd rfl hb
  | data | mkey | exptag | rk | msgbuf => rfl

/-- A word written to another buffer leaves TAG. -/
theorem writeWord_tag (b : Buffer) (i : Nat) (v : Word) (s : State) (hb : b ≠ .tag) :
    (writeWord b i v s).tag = s.tag := by
  simp only [writeWord, writeByte_tag b _ _ _ hb]

/-- A word written to a buffer but TAG changes the five buffers that are not TAG only. -/
theorem writeWord_frame_of_ne_tag (b : Buffer) (i : Nat) (v : Word) (s : State) (hb : b ≠ .tag) :
    writeWord b i v s =
      { s with data := (writeWord b i v s).data, mkey := (writeWord b i v s).mkey,
               exptag := (writeWord b i v s).exptag, rk := (writeWord b i v s).rk,
               msgbuf := (writeWord b i v s).msgbuf } := by
  have hframe := writeWord_frame b i v s
  rwa [writeWord_tag b i v s hb] at hframe

/-! ### Buffer words while idle -/

/-- A read of a buffer's word while idle answers the word (R57, R58). -/
theorem loadFrom_word_idle (b : Buffer) (i : Nat) (s : State) (hs : s.seq = .idle) :
    loadFrom (.word b i) s = respond (.value (readWord b i s)) s := by
  simp only [loadFrom, hs]

/-- A write to a word of a buffer but TAG is made while idle (R57, R59). -/
theorem storeAt_word_idle (b : Buffer) (i : Nat) (v : Word) (s : State) (hs : s.seq = .idle) (hb : b ≠ .tag) :
    storeAt (.word b i) v s = writeWord b i v s := by
  simp only [storeAt, hs]
  cases b with
  | tag => exact absurd rfl hb
  | data | mkey | exptag | rk | msgbuf => rfl

/-- The step of a read of a buffer's word while idle. -/
theorem step_rd_word_idle (s : State) (b : Buffer) (m : Nat) (rest : List Input) (hs : s.seq = .idle)
    (hm : 4 * m < bufferSize b) (hin : s.inputs = rd (bufferBase b + 4 * m) :: rest) :
    step s = .next (respond (.value (readWord b (4 * m) s)) { s with inputs := rest }) := by
  rw [step_rd_word s b m rest hm hin, loadFrom_word_idle b (4 * m) { s with inputs := rest } hs, readWord_inputs]

/-- The step of a write to a word of a buffer but TAG while idle. -/
theorem step_wr_word_idle (s : State) (b : Buffer) (m : Nat) (v : Word) (rest : List Input) (hs : s.seq = .idle)
    (hb : b ≠ .tag) (hm : 4 * m < bufferSize b) (hin : s.inputs = wr (bufferBase b + 4 * m) v :: rest) :
    step s = .next (respond .done (writeWord b (4 * m) v { s with inputs := rest })) := by
  rw [step_wr_word s b m v rest hm hin, storeAt_word_idle b (4 * m) v { s with inputs := rest } hs hb]

/-- Settles O13: a read answers the word its four bytes make, and a write puts the word's fields into its four bytes,
by the rules of one buffer word read and written. -/
theorem bufferWordsAreBigEndian : Obligations.BufferWordsAreBigEndian := by
  intro s b m rest hs hwf hm
  refine ⟨fun hin => ⟨_, step_rd_word_idle s b m rest hs hm hin, readWord_extract b (4 * m) s⟩, fun v hb hin => ?_⟩
  have hbyte (c : Buffer) (j : Nat) :=
    readByte_writeWord b c (4 * m) j v { s with inputs := rest } hwf (word_inside b m hm)
  refine ⟨_, step_wr_word_idle s b m v rest hs hb hm hin, fun k hk => ?_, fun c j hcj => ?_, ?_, ?_⟩
  · rw [readByte_respond, hbyte, if_pos ⟨rfl, by omega, by omega⟩, Nat.add_sub_cancel_left]
  · have houtside : ¬ (c = b ∧ 4 * m ≤ j ∧ j < 4 * m + 4) := by
      rintro ⟨rfl, hlow, hhigh⟩
      rcases hcj with hne | hbelow | habove
      · exact hne rfl
      · omega
      · omega
    rw [readByte_respond, hbyte, if_neg houtside, readByte_inputs]
  · exact congrArg (respond .done) (writeWord_frame_of_ne_tag b (4 * m) v { s with inputs := rest } hb)
  · exact writeWord_wf b (4 * m) v { s with inputs := rest } hwf

/-! ### Accesses that reach no place -/

/-- The registers lie at aligned offsets below the first hole of the window (R52). -/
theorem regOffset_range (r : Reg) : regOffset r % 4 = 0 ∧ regOffset r < 0x24 := by
  cases r <;> decide

/-- The words of the buffers lie at aligned offsets between the two holes of the window, or past both (R52). -/
theorem bufferWord_range (b : Buffer) (m : Nat) (hm : 4 * m < bufferSize b) :
    (bufferBase b + 4 * m) % 4 = 0 ∧
    (0x40 ≤ bufferBase b + 4 * m ∧ bufferBase b + 4 * m < 0x300 ∨ 0x1000 ≤ bufferBase b + 4 * m) := by
  cases b <;> simp only [bufferBase, bufferSize] at * <;> omega

/-- An access of a wrong width, at a misaligned offset or in a hole of the window reaches no place (R53 to R55). -/
theorem accessPlace_eq_none (off n : Nat)
    (hbad : n ≠ 4 ∨ off % 4 ≠ 0 ∨ (0x24 ≤ off ∧ off < 0x40) ∨ (0x300 ≤ off ∧ off < 0x1000)) :
    accessPlace off n = none := by
  refine Option.eq_none_iff_forall_not_mem.2 fun p hp => ?_
  obtain ⟨hwidth, ⟨r, -, hoff⟩ | ⟨b, m, -, hoff, hm⟩⟩ := accessPlace_some off n p hp
  · have := regOffset_range r
    omega
  · have := bufferWord_range b m hm
    omega

/-- An access at or above the base that reaches no place is a bus error at its address, a read and a write alike. -/
theorem hostAccess_busError (x : Access) (s : State) (off : Nat) (haddr : accessAddr x = Config.coreBase + off)
    (hplace : accessPlace off (accessBytes x) = none) :
    hostAccess x s = .next (raiseBusError (accessAddr x) s) := by
  cases x with
  | read a n =>
    simp only [accessAddr, accessBytes] at haddr hplace
    simp only [hostAccess, haddr, offsetOf_base_add, readAt, hplace, accessAddr]
  | write a n v =>
    simp only [accessAddr, accessBytes] at haddr hplace
    simp only [hostAccess, haddr, offsetOf_base_add, writeAt, hplace, accessAddr]

/-- Settles O14: what stands at no place of the window is answered by a bus error, which changes the response only. -/
theorem badAccessIsABusError : Obligations.BadAccessIsABusError := by
  intro s x rest off hin haddr _ hbad
  rw [step_access s x rest hin, hostAccess_busError x _ off haddr (accessPlace_eq_none off _ hbad)]
  rfl

end Sys2Proof.Machine

/-! PROOFS. The fields of a decodable word (spec/30_encoding.md R72 to R78), and a word to CMD that matches no row of
R73's table. -/

namespace Sys2Proof

/-! ### A word and its fields -/

/-- The word with the given fields, the most significant first (R72). -/
def joinFields (f : CommandFields) : Word := f.res ++ f.mode ++ f.sel ++ f.rnd ++ f.op

/-- The five fields hold all 32 bits of a word (R72). -/
theorem joinFields_splitFields (v : Word) : joinFields (splitFields v) = v := by
  simp only [joinFields, splitFields]
  rw [BitVec.extractLsb'_append_extractLsb'_eq_extractLsb' (by decide : 16 = 15 + 1),
    BitVec.extractLsb'_append_extractLsb'_eq_extractLsb' (by decide : 15 = 12 + 3),
    BitVec.extractLsb'_append_extractLsb'_eq_extractLsb' (by decide : 12 = 8 + 4),
    BitVec.extractLsb'_append_extractLsb'_eq_extractLsb' (by decide : 8 = 0 + 8)]
  exact BitVec.extractLsb'_eq_self

/-- A word built from a command's fields matches the command's row (R73). -/
theorem matchesRow_joinFields (i : Instr) : matchesRow (joinFields i.fields) (rowOf i) = true := by
  cases i with
  | sboxSub sel => revert sel; decide
  | ffunc rnd => revert rnd; decide
  | nop | sboxSubp | bitperm512 | bitperm256 | enc | dec | ksched | kdf | tagGen | tagVerify | zeroize => decide

/-- The row of every command stands in the table, whatever its operand. -/
theorem rowOf_mem_matchMaskRows (i : Instr) : rowOf i ∈ matchMaskRows := by
  cases i with
  | sboxSub sel => exact show rowOf (.sboxSub 0) ∈ matchMaskRows by decide
  | ffunc rnd => exact show rowOf (.ffunc 0) ∈ matchMaskRows by decide
  | nop | sboxSubp | bitperm512 | bitperm256 | enc | dec | ksched | kdf | tagGen | tagVerify | zeroize => decide

/-! ### The fields a decoded word has -/

/-- A command without operands is answered only where RND, SEL and MODE are 0 (R73). -/
theorem plainCommand_ok (c i : Instr) (f : CommandFields) (h : plainCommand c f = .ok i) :
    i = c ∧ f.rnd = 0 ∧ f.sel = 0 ∧ f.mode = 0 := by
  rw [plainCommand] at h
  split at h
  · rename_i hzero
    exact ⟨(Except.ok.inj h).symm, hzero⟩
  · cases h

/-- OP 0x01 answers SBOX_SUB with its SEL where MODE is 0 and SBOX_SUBP where MODE is 1, the other fields 0 (R76). -/
theorem sboxCommand_ok (i : Instr) (f : CommandFields) (h : sboxCommand f = .ok i) :
    f.rnd = 0 ∧ (i = .sboxSub f.sel.toFin ∧ f.mode = 0 ∨ i = .sboxSubp ∧ f.sel = 0 ∧ f.mode = 1) := by
  rw [sboxCommand] at h
  split at h
  · cases h
  · rename_i hrnd
    refine ⟨not_not.1 hrnd, ?_⟩
    split at h
    · rename_i hmode
      exact .inl ⟨(Except.ok.inj h).symm, hmode⟩
    · rename_i hmode
      split at h
      · rename_i hsel
        exact .inr ⟨(Except.ok.inj h).symm, hsel, by bv_omega⟩
      · cases h

/-- OP 0x10 answers FFUNC with its RND, where SEL and MODE are 0 (R74). -/
theorem ffuncCommand_ok (i : Instr) (f : CommandFields) (h : ffuncCommand f = .ok i) :
    i = .ffunc f.rnd.toFin ∧ f.sel = 0 ∧ f.mode = 0 := by
  rw [ffuncCommand] at h
  split at h
  · rename_i hzero
    exact ⟨(Except.ok.inj h).symm, hzero⟩
  · cases h

/-- The fields of a word that decodes to a command without operands. -/
theorem fields_of_plainCommand (c i : Instr) (f : CommandFields) (h : plainCommand c f = .ok i) (hres : f.res = 0)
    (hop : f.op.toNat = c.fields.op.toNat) (hc : c.fields = ⟨c.fields.op, 0, 0, 0, 0⟩) : f = i.fields := by
  obtain ⟨rfl, hrnd, hsel, hmode⟩ := plainCommand_ok c i f h
  rw [hc, ← BitVec.eq_of_toNat_eq hop, ← hrnd, ← hsel, ← hmode, ← hres]

/-- The fields of a word that decodes to SBOX_SUB or SBOX_SUBP. -/
theorem fields_of_sboxCommand (i : Instr) (f : CommandFields) (h : sboxCommand f = .ok i) (hres : f.res = 0)
    (hop : f.op.toNat = 0x01) : f = i.fields := by
  have hop : f.op = 0x01 := BitVec.eq_of_toNat_eq hop
  obtain ⟨hrnd, ⟨rfl, hmode⟩ | ⟨rfl, hsel, hmode⟩⟩ := sboxCommand_ok i f h
  · rw [Instr.fields, BitVec.val_toFin, BitVec.ofNat_toNat, BitVec.setWidth_eq, ← hop, ← hrnd, ← hmode, ← hres]
  · rw [Instr.fields, ← hop, ← hrnd, ← hsel, ← hmode, ← hres]

/-- The fields of a word that decodes to FFUNC. -/
theorem fields_of_ffuncCommand (i : Instr) (f : CommandFields) (h : ffuncCommand f = .ok i) (hres : f.res = 0)
    (hop : f.op.toNat = 0x10) : f = i.fields := by
  have hop : f.op = 0x10 := BitVec.eq_of_toNat_eq hop
  obtain ⟨rfl, hsel, hmode⟩ := ffuncCommand_ok i f h
  rw [Instr.fields, BitVec.val_toFin, BitVec.ofNat_toNat, BitVec.setWidth_eq, ← hop, ← hsel, ← hmode, ← hres]

/-- A word that decodes has the fields of the command it decodes to (R73). -/
theorem splitFields_of_decode (v : Word) (i : Instr) (h : decode v = .ok i) : splitFields v = i.fields := by
  simp only [decode] at h
  split at h
  · cases h
  · rename_i hne
    have hres : (splitFields v).res = 0 := not_not.1 hne
    split at h
    case h_2 hop => exact fields_of_sboxCommand i _ h hres hop
    case h_5 hop => exact fields_of_ffuncCommand i _ h hres hop
    case h_13 => cases h
    all_goals rename_i hop; exact fields_of_plainCommand _ i _ h hres hop rfl

/-- A word that decodes to a command matches the command's row (R73). -/
theorem matchesRow_of_decode (v : Word) (i : Instr) (h : decode v = .ok i) : matchesRow v (rowOf i) = true := by
  rw [← joinFields_splitFields v, splitFields_of_decode v i h]
  exact matchesRow_joinFields i

/-- A word that matches no row of the table decodes to nothing (R78). -/
theorem decode_error_of_no_row (v : Word) (h : ∀ row ∈ matchMaskRows, matchesRow v row = false) :
    ∃ e, decode v = .error e := by
  rcases hd : decode v with e | i
  · exact ⟨e, rfl⟩
  · have hmatch := matchesRow_of_decode v i hd
    rw [h _ (rowOf_mem_matchMaskRows i)] at hmatch
    cases hmatch

end Sys2Proof

namespace Sys2Proof.Machine

/-! ### An illegal word written to CMD -/

/-- An idle core that is offered a word which does not decode records ILLEGAL_CMD (R83, R84). -/
theorem storeAt_cmd_illegal (v : Word) (s : State) (e : DecodeError) (hs : s.seq = .idle) (hd : decode v = .error e) :
    storeAt (.reg .cmd) v s = recordError .illegalCmd s := by
  simp only [storeAt, hs, writePlace, writeReg, accept, hd]

/-- Settles O7: a decodable word matches the row of its command, so this one does not decode, and acceptance records
that. -/
theorem wordMatchingNoRowStartsNothing : Obligations.WordMatchingNoRowStartsNothing := by
  intro s v rest hs hin hrow
  obtain ⟨e, hd⟩ := decode_error_of_no_row v hrow
  rw [step_wr_reg s .cmd v rest hin, storeAt_cmd_illegal v { s with inputs := rest } e hs hd]
  rfl

end Sys2Proof.Machine

/-! PROOFS. The four answers to a word written to CMD (spec/40_control.md R83, R84). -/

namespace Sys2Proof.Machine

/-! ### The branches of acceptance -/

/-- A busy core records BUSY_CMD for whatever is written to CMD, and drops it (R83). -/
theorem storeAt_cmd_busy (v : Word) (s : State) (hs : s.seq = .busy) :
    storeAt (.reg .cmd) v s = recordError .busyCmd s := by
  simp only [storeAt, hs, busyWriteError]

/-- An idle core decides a write to CMD by acceptance (R83). -/
theorem storeAt_cmd_idle (v : Word) (s : State) (hs : s.seq = .idle) : storeAt (.reg .cmd) v s = accept v s := by
  simp only [storeAt, hs, writePlace, writeReg]

/-- A command whose lengths fit is latched, with TAG_MATCH cleared and the core busy (R83). -/
theorem accept_of_lenOk (v : Word) (i : Instr) (s : State) (hd : decode v = .ok i) (hlen : lenOk i s = true) :
    accept v s = { s with tagMatch := false, latch := v, seq := .busy } := by
  simp only [accept, hd, hlen, if_true]

/-- A command whose lengths do not fit records LEN_ERR and starts nothing (R84). -/
theorem accept_of_not_lenOk (v : Word) (i : Instr) (s : State) (hd : decode v = .ok i) (hlen : ¬ lenOk i s = true) :
    accept v s = recordError .lenErr s := by
  simp only [accept, hd, if_neg hlen]

/-- The length check names three commands and lets every other through (R84). -/
theorem lenOk_eq (i : Instr) (s : State) :
    lenOk i s = match i with
      | .kdf => decide (s.msgLen.toNat ≤ Config.msgBufBytes)
      | .tagGen => decide (s.keyLen.toNat + s.msgLen.toNat ≤ Config.msgBufBytes)
      | .tagVerify => decide (s.keyLen.toNat + s.msgLen.toNat ≤ Config.msgBufBytes)
      | _ => true := by
  cases i <;> rfl

/-- Settles O6: the write reaches CMD, and each of the four answers is the rule of its branch. The inputs still to come
are in no register the length check reads. -/
theorem commandWriteIsAcceptedOrRecorded : Obligations.CommandWriteIsAcceptedOrRecorded := by
  intro s v rest hin
  rw [step_wr_reg s .cmd v rest hin]
  refine congrArg _ ?_
  cases s.seq with
  | busy => exact congrArg (respond .done) (storeAt_cmd_busy v _ rfl)
  | idle =>
    cases hd : decode v with
    | error e => exact congrArg (respond .done) (storeAt_cmd_illegal v _ e rfl hd)
    | ok i =>
      rw [storeAt_cmd_idle v _ rfl]
      by_cases hlen : lenOk i s = true
      · refine (congrArg (respond .done) (accept_of_lenOk v i _ hd ?_)).trans (if_pos ?_).symm
        · exact hlen
        · exact (lenOk_eq i s).symm.trans hlen
      · refine (congrArg (respond .done) (accept_of_not_lenOk v i _ hd ?_)).trans (if_neg ?_).symm
        · exact hlen
        · exact fun h => hlen ((lenOk_eq i s).trans h)

end Sys2Proof.Machine

/-! PROOFS. Encryption and decryption undo each other (spec/44_feistel.md R116), as functions and as commands. -/

namespace Sys2Proof.Machine

/-! ### The sixteen rounds -/

/-- Steps undone one by one, the last first: the fold over the reversed list takes back the fold over the list. -/
theorem foldl_reverse_foldl_cancel {α β : Type} (f g : β → α → β) (h : ∀ b a, g (f b a) a = b) (l : List α) (b : β) :
    l.reverse.foldl g (l.foldl f b) = b := by
  induction l generalizing b with
  | nil => rfl
  | cons a l ih => rw [List.foldl_cons, List.reverse_cons, List.foldl_append, ih, List.foldl_cons, List.foldl_nil, h]

/-- The rounds of decryption, downward, undo the rounds of encryption. -/
theorem decRounds_encRounds (T : Tables) (rk : Vector Half 16) (lr : Half × Half) :
    (List.finRange 16).reverse.foldl (decRound T rk) ((List.finRange 16).foldl (encRound T rk) lr) = lr :=
  foldl_reverse_foldl_cancel _ _ (decRound_encRound T rk) _ _

/-- The rounds of encryption undo the rounds of decryption. -/
theorem encRounds_decRounds (T : Tables) (rk : Vector Half 16) (lr : Half × Half) :
    (List.finRange 16).foldl (encRound T rk) ((List.finRange 16).reverse.foldl (decRound T rk) lr) = lr := by
  have h := foldl_reverse_foldl_cancel _ _ (encRound_decRound T rk) (List.finRange 16).reverse lr
  rwa [List.reverse_reverse] at h

/-! ### The block cipher -/

/-- Decryption takes encryption back: it reads the halves in the order encryption leaves them (R112, conflict C1). -/
@[simp] theorem feistelDec_feistelEnc (T : Tables) (rk : Vector Half 16) (b : Block) :
    feistelDec T rk (feistelEnc T rk b) = b := by
  simp only [feistelDec, feistelEnc, rightHalf_joinHalves, leftHalf_joinHalves, Prod.mk.eta, decRounds_encRounds,
    joinHalves_halves]

/-- Encryption takes decryption back. -/
@[simp] theorem feistelEnc_feistelDec (T : Tables) (rk : Vector Half 16) (c : Block) :
    feistelEnc T rk (feistelDec T rk c) = c := by
  simp only [feistelDec, feistelEnc, rightHalf_joinHalves, leftHalf_joinHalves, Prod.mk.eta, encRounds_decRounds,
    joinHalves_halves]

/-! ### The commands -/

/-- ENC answers the completion with DATA encrypted (R114). -/
theorem exec_enc (s : State) : exec .enc s = .next (complete { s with data := feistelEnc tables s.rk s.data }) := rfl

/-- DEC answers the completion with DATA decrypted (R115). -/
theorem exec_dec (s : State) : exec .dec s = .next (complete { s with data := feistelDec tables s.rk s.data }) := rfl

/-- Settles O47: each round undoes its counterpart, so the cipher does; and neither command changes RK, so the second
runs with the first one's round keys. -/
theorem feistelRoundTrip : Obligations.FeistelRoundTrip := by
  refine ⟨fun T rk b => ⟨feistelDec_feistelEnc T rk b, feistelEnc_feistelDec T rk b⟩, fun s => ⟨?_, ?_⟩⟩
  · refine ⟨_, _, exec_enc s, exec_dec _, ?_⟩
    rw [complete_data, complete_rk, complete_data, feistelDec_feistelEnc]
  · refine ⟨_, _, exec_dec s, exec_enc _, ?_⟩
    rw [complete_data, complete_rk, complete_data, feistelEnc_feistelDec]

end Sys2Proof.Machine

/-! PROOFS. The closed form of the tag (spec/45_tag.md R119). -/

namespace Sys2Proof.Machine

/-- Of n + 1 rounds only the last one's hash survives, whatever stood before: every round hashes the same cat. -/
theorem tagRounds_succ (T : Tables) (cat : List Byte) (h : Block) (n : Nat) :
    (List.range (n + 1)).foldl (fun _ rnd => tagRound T cat rnd) h = tagRound T cat n := by
  rw [List.range_succ, List.foldl_append, List.foldl_cons, List.foldl_nil]

/-- The tag is the left half of round 4, the last of the five that R118 counts from 0. -/
theorem tagFunction_eq_last_round (T : Tables) (d kt : List Byte) :
    tagFunction T d kt = leftHalf (tagRound T ((T.sha512 (kt ++ idstr)).toList ++ d) 4) :=
  congrArg leftHalf (tagRounds_succ T _ _ 4)

/-- A byte of the tag: one hash of cat, substituted once through `S[4]`. -/
theorem tagFunction_getElem (T : Tables) (d kt : List Byte) (i : Nat) (hi : i < 32) :
    (tagFunction T d kt)[i] = T.sbox 4 (T.sha512 ((T.sha512 (kt ++ idstr)).toList ++ d))[i] := by
  rw [tagFunction_eq_last_round, leftHalf_getElem _ _ hi, tagRound, substAll_getElem]
  rfl

/-- Settles O52: only round 4 is left of the five, and it substitutes each byte of the hash through `S[4]`. -/
theorem tagHasItsClosedForm : Obligations.TagHasItsClosedForm :=
  fun T d kt i => tagFunction_getElem T d kt i.val i.isLt

end Sys2Proof.Machine

/-! PROOFS. The reset input (spec/70_reset_and_hazards.md R150). -/

namespace Sys2Proof.Machine

/-- A buffer byte after the reset input is the one of the state after reset. -/
@[simp] theorem readByte_applyReset (b : Buffer) (j : Nat) (s : State) :
    readByte b j (applyReset s) = readByte b j State.reset := by
  cases b with
  | data | mkey | tag | exptag | rk | msgbuf => rfl

/-- Settles O23: the step applies reset whatever SEQ was, which leaves each register as R49 lists it; the buffers, irq and
STATUS follow by the lemmas about their reads. -/
theorem resetSetsEveryRegisterAndBuffer : Obligations.ResetSetsEveryRegisterAndBuffer := by
  intro s rest hin
  have hirq : irq (applyReset { s with inputs := rest }) = false := irq_eq_false_of_irqStatus_eq_zero _ rfl
  have hstatus : statusWord (applyReset { s with inputs := rest }) = 0 := statusWord_eq_zero _ rfl rfl rfl
  have hbuffers (b : Buffer) (j : Nat) : readByte b j (applyReset { s with inputs := rest }) = 0 :=
    (readByte_applyReset b j _).trans (readByte_reset b j)
  exact ⟨_, step_reset s rest hin, rfl, rfl, rfl, rfl, rfl, rfl, rfl, rfl, rfl, hirq, hstatus, hbuffers⟩

end Sys2Proof.Machine

/-! PROOFS. Decoding, encoding, the field checks and the match and mask table name the same words
(spec/30_encoding.md R72 to R78, R81). -/

namespace Sys2Proof

/-! ### A command, its fields and its word -/

/-- The fields of every command pass the checks: its operand stands in the one field its row leaves open (R73). -/
theorem wellFormed_of_instr (i : Instr) : i.wellFormed = true := by
  cases i with
  | sboxSub sel => revert sel; decide
  | ffunc rnd => revert rnd; decide
  | nop | sboxSubp | bitperm512 | bitperm256 | enc | dec | ksched | kdf | tagGen | tagVerify | zeroize => decide

/-- A command's fields put together are the word it assembles to (R81). -/
theorem joinFields_fields (i : Instr) : joinFields i.fields = encode i := by
  cases i with
  | sboxSub sel => revert sel; decide
  | ffunc rnd => revert rnd; decide
  | nop | sboxSubp | bitperm512 | bitperm256 | enc | dec | ksched | kdf | tagGen | tagVerify | zeroize => decide

/-- The word a command assembles to decodes to the command. -/
@[simp] theorem decode_encode (i : Instr) : decode (encode i) = .ok i := by
  cases i with
  | sboxSub sel => revert sel; decide
  | ffunc rnd => revert rnd; decide
  | nop | sboxSubp | bitperm512 | bitperm256 | enc | dec | ksched | kdf | tagGen | tagVerify | zeroize => decide

/-- A word whose fields are a command's is the word the command assembles to. -/
theorem eq_encode_of_splitFields (v : Word) (i : Instr) (h : splitFields v = i.fields) : v = encode i := by
  rw [← joinFields_splitFields v, h, joinFields_fields]

/-- A word decodes to a command exactly when it is the command's word. -/
theorem decode_eq_ok_iff (v : Word) (i : Instr) : decode v = .ok i ↔ v = encode i :=
  ⟨fun h => eq_encode_of_splitFields v i (splitFields_of_decode v i h), fun h => h ▸ decode_encode i⟩

/-- Settles O1: the fields of a decoded word are its command's, and a word is determined by its fields. -/
theorem everyCommandHasExactlyOneWord : Obligations.EveryCommandHasExactlyOneWord :=
  fun i v => ⟨wellFormed_of_instr i, decode_eq_ok_iff v i⟩

/-! ### The field checks -/

/-- The five checks, one conjunct each (R73, R78). -/
theorem CommandFields.wellFormed_iff (f : CommandFields) :
    f.wellFormed = true ↔ f.res = 0 ∧ f.op ∈ assignedOps ∧ (f.rnd = 0 ∨ f.op = 0x10) ∧
      (f.sel = 0 ∨ (f.op = 0x01 ∧ f.mode = 0)) ∧ (f.mode = 0 ∨ f.op = 0x01) := by
  simp only [wellFormed, resOk, opOk, rndOk, selOk, modeOk, Bool.and_eq_true, decide_eq_true_eq, and_assoc]

/-- The command an OP stands for where the word uses none of RND, SEL and MODE (R73). -/
def plainInstrs : List Instr :=
  [.nop, .sboxSub 0, .bitperm512, .bitperm256, .ffunc 0, .enc, .dec, .ksched, .kdf, .tagGen, .tagVerify, .zeroize]

/-- Every assigned OP is that of a command all of whose other fields are 0. -/
theorem exists_plain_of_assignedOp : ∀ op ∈ assignedOps, ∃ i ∈ plainInstrs, i.fields = ⟨op, 0, 0, 0, 0⟩ := by
  decide

/-- Fields that pass the checks are those of some command: OP 0x01 takes SEL or MODE, OP 0x10 takes RND, and every
other OP leaves all three 0 (R73 to R76). -/
theorem exists_instr_of_wellFormed (f : CommandFields) (h : f.wellFormed = true) : ∃ i : Instr, i.fields = f := by
  obtain ⟨op, rnd, sel, mode, res⟩ := f
  obtain ⟨hres, hop, hrnd, hsel, hmode⟩ := (CommandFields.wellFormed_iff _).1 h
  simp only at hres hop hrnd hsel hmode
  subst hres
  by_cases hsbox : op = 0x01
  · subst hsbox
    obtain rfl := hrnd.resolve_right (by decide)
    by_cases hm : mode = 0
    · exact ⟨.sboxSub sel.toFin, by simp [Instr.fields, hm]⟩
    · obtain rfl := hsel.resolve_right fun hs => hm hs.2
      have hone : mode = 1 := by bv_omega
      exact ⟨.sboxSubp, by simp [Instr.fields, hone]⟩
  · obtain rfl := hmode.resolve_right hsbox
    obtain rfl := hsel.resolve_right fun hs => hsbox hs.1
    by_cases hffunc : op = 0x10
    · exact ⟨.ffunc rnd.toFin, by simp [Instr.fields, hffunc]⟩
    · obtain rfl := hrnd.resolve_right hffunc
      obtain ⟨i, -, hi⟩ := exists_plain_of_assignedOp op hop
      exact ⟨i, hi⟩

/-- The checks pass exactly on the words that decode. -/
theorem wellFormed_splitFields_iff (v : Word) : (splitFields v).wellFormed = true ↔ ∃ i, decode v = .ok i := by
  constructor
  · intro h
    obtain ⟨i, hi⟩ := exists_instr_of_wellFormed _ h
    exact ⟨i, (decode_eq_ok_iff v i).2 (eq_encode_of_splitFields v i hi.symm)⟩
  · rintro ⟨i, hi⟩
    rw [splitFields_of_decode v i hi]
    exact wellFormed_of_instr i

/-- Settles O3: fields that pass the checks are a command's, and the word with a command's fields is the command's
word. -/
theorem fieldChecksNameTheDecodableWords : Obligations.FieldChecksNameTheDecodableWords :=
  fun v => ⟨wellFormed_splitFields_iff v, splitFields_of_decode v⟩

/-! ### The match and mask table -/

/-- What it is to match a row (R73). -/
theorem matchesRow_iff (v m mask : Word) : matchesRow v (m, mask) = true ↔ v &&& mask = m := decide_eq_true_iff

/-- A word is its masked value with the bits of the field put back, where the mask leaves out one field. -/
theorem eq_or_field_of_masked (v m mask : Word) (off len : Nat) (h : v &&& mask = m)
    (hmask : ∀ j < 32, mask.getLsbD j = !(decide (off ≤ j) && decide (j - off < len))) :
    v = m ||| ((v.extractLsb' off len).setWidth 32 <<< off) := by
  refine BitVec.eq_of_getLsbD_eq fun j hj => ?_
  rw [← h, BitVec.getLsbD_or, BitVec.getLsbD_and, hmask j hj, BitVec.getLsbD_shiftLeft, BitVec.getLsbD_setWidth,
    BitVec.getLsbD_extractLsb']
  by_cases hoff : off ≤ j
  · by_cases hlen : j - off < len
    · simp [hoff, hlen, hj, Nat.add_sub_cancel' hoff, show j - off < 32 by omega, Nat.not_lt.2 hoff]
    · simp [hoff, hlen]
  · simp [hoff, Nat.lt_of_not_le hoff]

/-- Under a mask of ones a word matches the word of the row's one command only. -/
theorem exists_encode_of_ones (v : Word) (i : Instr) (hrow : rowOf i = (encode i, 0xFFFFFFFF))
    (h : matchesRow v (rowOf i) = true) : ∃ j, v = encode j ∧ rowOf j = rowOf i := by
  rw [hrow, matchesRow_iff, show (0xFFFFFFFF : Word) = BitVec.allOnes 32 by decide, BitVec.and_allOnes] at h
  exact ⟨i, h, rfl⟩

/-- A word that matches a command's row is the word of a command of that row: SEL, bits 14:12, and RND, bits 11:8, are
left out of the masks of SBOX_SUB and FFUNC (R74, R75). -/
theorem exists_encode_of_matchesRow (v : Word) (i : Instr) (h : matchesRow v (rowOf i) = true) :
    ∃ j, v = encode j ∧ rowOf j = rowOf i := by
  cases i with
  | sboxSub sel =>
    refine ⟨.sboxSub (v.extractLsb' 12 3).toFin, ?_, rfl⟩
    rw [encode, BitVec.val_toFin, BitVec.ofNat_toNat]
    exact eq_or_field_of_masked v _ _ 12 3 ((matchesRow_iff ..).1 h) (by decide)
  | ffunc rnd =>
    refine ⟨.ffunc (v.extractLsb' 8 4).toFin, ?_, rfl⟩
    rw [encode, BitVec.val_toFin, BitVec.ofNat_toNat]
    exact eq_or_field_of_masked v _ _ 8 4 ((matchesRow_iff ..).1 h) (by decide)
  | nop | sboxSubp | bitperm512 | bitperm256 | enc | dec | ksched | kdf | tagGen | tagVerify | zeroize =>
    exact exists_encode_of_ones v _ rfl h

/-- A word that matches a row of the table decodes to a command of that row (R73). -/
theorem decode_of_matchesRow (v : Word) (row : Word × Word) (hrow : row ∈ matchMaskRows)
    (h : matchesRow v row = true) : ∃ i, decode v = .ok i ∧ rowOf i = row := by
  obtain ⟨i, -, rfl⟩ := List.mem_map.1 hrow
  obtain ⟨j, hj, hrow'⟩ := exists_encode_of_matchesRow v i h
  exact ⟨j, (decode_eq_ok_iff v j).2 hj, hrow'⟩

/-- Settles O2: a word that matches a row is the word of a command of that row, so two rows it matches are both the row of
the one command it decodes to. -/
theorem decodedWordsAreTheTablesRows : Obligations.DecodedWordsAreTheTablesRows := by
  refine ⟨matchesRow_of_decode, decode_of_matchesRow, fun v a b ha hb hva hvb => ?_⟩
  obtain ⟨i, hi, rfl⟩ := decode_of_matchesRow v a ha hva
  obtain ⟨j, hj, rfl⟩ := decode_of_matchesRow v b hb hvb
  rw [Except.ok.inj (hi.symm.trans hj)]

/-- A word that is a command's decodes to that command only, and one that fails the field checks to none. -/
theorem decode_ne_ok_of_not_wellFormed (v : Word) (h : (splitFields v).wellFormed = false) (i : Instr) :
    decode v ≠ .ok i := fun hi => by
  rw [(wellFormed_splitFields_iff v).2 ⟨i, hi⟩] at h
  cases h

/-- Settles O4: each legal word is its command's word, and each illegal one fails a field check. -/
theorem specWordsDecodeAsListed : Obligations.SpecWordsDecodeAsListed := by
  refine ⟨decode_encode .nop, decode_encode (.sboxSub 3), decode_encode .sboxSubp, decode_encode (.ffunc 5),
    decode_encode .dec, decode_encode .tagVerify, decode_encode .zeroize, fun v hv => ?_⟩
  have hbad : [(0x0000B001 : Word), 0x00000101, 0x00001010, 0x80000030].all
      (fun v => !(splitFields v).wellFormed) = true := by decide
  exact decode_ne_ok_of_not_wellFormed v (by simpa using List.all_eq_true.1 hbad v hv)

end Sys2Proof

/-! PROOFS. One step of the machine: the invariant it keeps (spec/10_state.md R29, R42, R47), the core's own turn
(spec/40_control.md R85), and what a host access can change while busy and while idle (spec/20_memory.md R57 to R60). -/

namespace Sys2Proof.Machine

open Sys2Proof.Safety

/-! ### The core's own turn -/

/-- The core's turn is taken in the same state but for the list of inputs. -/
theorem CoreTurn.eq_inputs {s u : State} (h : CoreTurn s u) : u = { s with inputs := u.inputs } := by
  rcases h with ⟨-, rfl⟩ | ⟨rest, -, rfl⟩ <;> rfl

/-- The core has its turn where no input is pending or the next one gives it the turn. -/
theorem CoreTurn.inputs {s u : State} (h : CoreTurn s u) : s.inputs = [] ∨ ∃ rest, s.inputs = .coreTurn :: rest := by
  rcases h with ⟨hin, -⟩ | ⟨rest, hin, -⟩
  · exact .inl hin
  · exact .inr ⟨rest, hin⟩

/-- A busy core that has its turn completes the command in LATCH (R85). -/
theorem step_coreTurn_busy {s u : State} {i : Instr} (h : CoreTurn s u) (hs : s.seq = .busy)
    (hd : decode s.latch = .ok i) : step s = exec i u := by
  rcases h with ⟨hin, rfl⟩ | ⟨rest, hin, rfl⟩ <;> simp only [step, nextEvent, coreEvent, hin, hs, hd]

/-- An idle core that has its turn does nothing. -/
theorem step_coreTurn_idle {s u : State} (h : CoreTurn s u) (hs : s.seq = .idle) : step s = .next u := by
  rcases h with ⟨hin, rfl⟩ | ⟨rest, hin, rfl⟩ <;> simp only [step, nextEvent, coreEvent, hin, hs]

/-- Settles O5: both forms of the core's turn are the completion of the command in LATCH. -/
theorem stepCompletesTheLatchedCommand : Obligations.StepCompletesTheLatchedCommand := fun _ _ hs hd =>
  ⟨fun hin => step_coreTurn_busy (.inl ⟨hin, rfl⟩) hs hd,
    fun rest hin => step_coreTurn_busy (.inr ⟨rest, hin, rfl⟩) hs hd⟩

/-- The core's turn in a sound state answers: idle, nothing happens; busy, the accepted command completes. -/
theorem step_coreTurn_answers {s u : State} (h : CoreTurn s u) (hinv : Inv s) : ∃ t, step s = .next t := by
  cases hs : s.seq with
  | idle => exact ⟨u, step_coreTurn_idle h hs⟩
  | busy =>
    obtain ⟨i, hd, hlen⟩ := hinv.latchAccepted hs
    rw [step_coreTurn_busy h hs hd]
    rw [← lenOk_congr i s u (by rw [h.eq_inputs]) (by rw [h.eq_inputs])] at hlen
    exact exec_completes i u hlen

/-- Settles O8: the invariant says that LATCH holds a command whose lengths fit, and such a command completes. -/
theorem acceptedCommandCompletes : Obligations.AcceptedCommandCompletes := by
  intro s hinv hs hin
  obtain ⟨i, hd, hlen⟩ := hinv.latchAccepted hs
  obtain ⟨t, ht⟩ := exec_completes i s hlen
  have hdone := exec_completed i s t ht
  exact ⟨t, (step_coreTurn_busy (.inl ⟨hin, rfl⟩) hs hd).trans ht, hdone.idle, hdone.doneSet⟩

/-! ### What a host access can do -/

/-- The place of a register is reached at its offset, by a whole word. -/
theorem accessPlace_eq_reg {o n : Nat} {r : Reg} (h : accessPlace o n = some (.reg r)) : n = 4 ∧ o = regOffset r := by
  obtain ⟨hn, ⟨r', hr, ho⟩ | ⟨b, m, hw, -⟩⟩ := accessPlace_some o n _ h
  · cases hr; exact ⟨hn, ho⟩
  · cases hw

/-- The word of a buffer that an access reaches lies inside the buffer. -/
theorem accessPlace_word_inside {o n : Nat} {b : Buffer} {i : Nat} (h : accessPlace o n = some (.word b i)) :
    i + 3 < bufferSize b := by
  obtain ⟨-, ⟨r, hr, -⟩ | ⟨b', m, hw, -, hm⟩⟩ := accessPlace_some o n _ h
  · cases hr
  · cases hw; exact word_inside b m hm

/-- An access that answers changes the response and the count of draws only, or it is a write of a word to a place. -/
theorem hostAccess_effect {x : Access} {s t : State} (h : hostAccess x s = .next t) :
    t = { s with response := t.response, draws := t.draws } ∨
    ∃ o v p, x = wrAccess o v ∧ accessPlace o 4 = some p ∧ t = respond .done (storeAt p v s) := by
  obtain ⟨-, rfl | ⟨a, n, o, p, -, -, -, rfl⟩ | ⟨a, n, v, o, p, rfl, rfl, hp, rfl⟩⟩ := hostAccess_cases x s t h
  · exact .inl rfl
  · left
    rcases loadFrom_cases p s with ⟨w, hw⟩ | hw <;> rw [hw] <;> rfl
  · obtain ⟨rfl, -⟩ := accessPlace_some o n p hp
    exact .inr ⟨o, v, p, rfl, hp, rfl⟩

/-- A read that answers changes the response and the count of draws only (R58). -/
theorem hostAccess_read_frame {a n : Nat} {s t : State} (h : hostAccess (.read a n) s = .next t) :
    t = { s with response := t.response, draws := t.draws } := by
  rcases hostAccess_effect h with hframe | ⟨o, v, p, hx, -⟩
  · exact hframe
  · cases hx

/-- Settles O19: a read that answers is one of the accesses that change the response and the draws only. -/
theorem readsNeverChangeTheCore : Obligations.ReadsNeverChangeTheCore := by
  intro s t a n rest hin ht
  rw [step_access s _ rest hin] at ht
  exact hostAccess_read_frame ht

/-! ### The invariant -/

/-- Acceptance keeps the invariant: what it latches decodes and its lengths fit, and TAG_MATCH is cleared (R83, R84). -/
theorem accept_inv (v : Word) (s : State) (h : Inv s) : Inv (accept v s) := by
  rcases accept_cases v s with ⟨e, -, he⟩ | ⟨i, -, -, he⟩ | ⟨i, hd, hlen, he⟩ <;> rw [he]
  · exact inv_congr s _ h rfl rfl rfl rfl rfl rfl
  · exact inv_congr s _ h rfl rfl rfl rfl rfl rfl
  · exact ⟨h.msgbufCanonical, h.msgbufInside, fun _ => ⟨i, hd, hlen⟩, fun _ => rfl⟩

/-- A write that reaches a place keeps the invariant: a length changes only while idle, and a word of MSGBUF is written
inside it. -/
theorem storeAt_inv (p : Place) (v : Word) (s : State) (h : Inv s)
    (hp : ∀ b i, p = .word b i → i + 3 < bufferSize b) : Inv (storeAt p v s) := by
  have idle (hs : s.seq = .idle) (t : State) (hm : t.msgbuf = s.msgbuf) (ht : t.seq = s.seq) : Inv t :=
    inv_of_idle t (hm ▸ h.msgbufCanonical) (hm ▸ h.msgbufInside) (ht.trans hs)
  rcases storeAt_cases p v s with ⟨c, -, -, e⟩ | ⟨-, -, e⟩ | ⟨-, e⟩ | ⟨-, e⟩ | ⟨-, e⟩ | ⟨hs, -, e⟩ | ⟨hs, -, e⟩ |
    ⟨hs, -, e⟩ | ⟨b, i, hs, hw, -, e⟩ | ⟨-, e⟩ <;> rw [e]
  · exact inv_congr s _ h rfl rfl rfl rfl rfl rfl
  · exact accept_inv v s h
  · exact inv_congr s _ h (by simp) (by simp) (by simp) (by simp) (by simp) (by simp)
  · exact inv_congr s _ h rfl rfl rfl rfl rfl rfl
  · exact inv_congr s _ h rfl rfl rfl rfl rfl rfl
  · exact idle hs _ rfl rfl
  · exact idle hs _ rfl rfl
  · exact idle hs _ rfl rfl
  · exact inv_of_idle _ (writeWord_wf b i v s h.msgbufCanonical)
      (writeWord_inside b i v s (hp b i hw) h.msgbufInside) ((writeWord_seq b i v s).trans hs)
  · exact h

/-- A host access that answers keeps the invariant. -/
theorem hostAccess_inv {x : Access} {s t : State} (h : Inv s) (ht : hostAccess x s = .next t) : Inv t := by
  rcases hostAccess_effect ht with hframe | ⟨o, v, p, -, hp, rfl⟩
  · rw [hframe]; exact inv_congr s _ h rfl rfl rfl rfl rfl rfl
  · have hstore : Inv (storeAt p v s) := storeAt_inv p v s h fun b i hw => accessPlace_word_inside (hw ▸ hp)
    exact inv_congr _ _ hstore rfl rfl rfl rfl rfl rfl

/-- A completion ends idle with MSGBUF as it was or empty, so it keeps the invariant. -/
theorem exec_inv {i : Instr} {s t : State} (h : Inv s) (ht : exec i s = .next t) : Inv t := by
  refine inv_of_idle t ?_ ?_ (exec_completed i s t ht).idle <;> rcases exec_msgbuf i s t ht with hm | hm <;> rw [hm]
  · exact h.msgbufCanonical
  · exact Memory.nil_wf
  · exact h.msgbufInside
  · simp

/-- The inputs still to come are no part of the invariant. -/
theorem inv_inputs {s : State} (h : Inv s) (xs : List Input) : Inv { s with inputs := xs } :=
  inv_congr s _ h rfl rfl rfl rfl rfl rfl

/-- Settles O28: after reset the core is idle and MSGBUF is empty. -/
theorem resetMeetsTheInvariant : Obligations.ResetMeetsTheInvariant :=
  inv_of_idle _ Memory.nil_wf (by simp [State.reset]) rfl

/-- A step keeps the invariant, whichever of its four cases it is. -/
theorem step_inv {s t : State} (h : Inv s) (ht : step s = .next t) : Inv t := by
  rcases step_cases s t ht with ⟨u, i, hturn, -, -, he⟩ | ⟨hturn, -⟩ | ⟨x, rest, -, ha⟩ | ⟨rest, -, rfl⟩
  · rw [hturn.eq_inputs] at he
    exact exec_inv (inv_inputs h _) he
  · rw [hturn.eq_inputs]
    exact inv_inputs h _
  · exact hostAccess_inv (inv_inputs h rest) ha
  · exact inv_congr State.reset _ resetMeetsTheInvariant rfl rfl rfl rfl rfl rfl

/-- Settles O27: a completion and a reset end idle with a sound MSGBUF, and a host access that makes the core busy is an
acceptance, which latches what the invariant asks for. -/
theorem stepKeepsTheInvariant : Obligations.StepKeepsTheInvariant := fun _ _ => step_inv

/-- Settles O29: the core's own turn and a reset always answer, and a host access does where it reaches the core. -/
theorem soundStatesNeverFault : Obligations.SoundStatesNeverFault := by
  intro s hinv
  have next {t : State} (ht : step s = .next t) : SafeOutcome s (step s) := by rw [ht]; trivial
  rcases hin : s.inputs with _ | ⟨x | _ | _, rest⟩
  · obtain ⟨t, ht⟩ := step_coreTurn_answers (.inl ⟨hin, rfl⟩) hinv
    exact next ht
  · have hstep := step_access s x rest hin
    rcases hostAccess_answers x { s with inputs := rest } with ⟨-, t, ht⟩ | ⟨hout, hr⟩
    · exact next (hstep.trans ht)
    · rw [hstep, hr]
      exact ⟨x, rest, hin, hout, rfl⟩
  · obtain ⟨t, ht⟩ := step_coreTurn_answers (.inr ⟨rest, hin, rfl⟩) hinv
    exact next ht
  · exact next (step_reset s rest hin)

/-! ### A command in flight -/

/-- Settles O9: an idle core stays idle on its turn, and no host access makes a busy core idle. -/
theorem busyEndsOnlyByCompletionOrReset : Obligations.BusyEndsOnlyByCompletionOrReset := by
  intro s t ht hbusy hidle
  rcases step_cases s t ht with ⟨u, i, hturn, -⟩ | ⟨-, hs⟩ | ⟨x, rest, -, ha⟩ | ⟨rest, hin, -⟩
  · exact .inr hturn.inputs
  · rw [hbusy] at hs; cases hs
  · rw [hostAccess_busy_frame x { s with inputs := rest } t hbusy ha] at hidle
    exact absurd (hbusy.symm.trans hidle) (by decide)
  · exact .inl ⟨rest, hin⟩

/-- What a completion computes does not depend on ERRCODE, the interrupt registers or the model's own fields. -/
theorem exec_congr {i : Instr} {s u : State} (h : exec i s = .next u) (e : ErrCode) (en ip : BitVec 2)
    (xs : List Input) (r : Option BusResponse) (d : Nat) :
    exec i { s with errCode := e, irqEn := en, irqStatus := ip, inputs := xs, response := r, draws := d } =
      .next { u with errCode := e, irqEn := en, irqStatus := ip ||| doneBit, inputs := xs, response := r, draws := d } := by
  have hlen := exec_lenOk i s u h
  cases i with
  | kdf | tagGen | tagVerify =>
    obtain ⟨-, rfl⟩ := completeWithin_next _ _ _ _ h
    exact completeWithin_ok _ _ _ hlen
  | nop | sboxSub | sboxSubp | bitperm512 | bitperm256 | ffunc | enc | dec | ksched | zeroize =>
    obtain rfl := Host.Outcome.next.inj h
    rfl

/-- A list of inputs runs from the state its first input leads to. -/
theorem runInputs_cons {x : Input} {xs : List Input} {s t : State} (h : step { s with inputs := [x] } = .next t) :
    runInputs (x :: xs) s = runInputs xs t := by
  simp only [runInputs, h]

/-- The core's turn, as a list of inputs, completes the command in LATCH. -/
theorem runInputs_coreTurn_busy {s t : State} {i : Instr} (hs : s.seq = .busy) (hd : decode s.latch = .ok i)
    (he : exec i { s with inputs := [] } = .next t) : runInputs [.coreTurn] s = .next t := by
  have hturn : CoreTurn { s with inputs := [.coreTurn] } { s with inputs := [] } := .inr ⟨[], rfl, rfl⟩
  exact runInputs_cons ((step_coreTurn_busy hturn hs hd).trans he)

/-- Host accesses to a busy core that all reach it leave all but ERRCODE, the interrupt registers and the model's own
fields (R60, R65). -/
theorem runInputs_accesses_busy (xs : List Access) (s : State) (hs : s.seq = .busy) (hx : ∀ x ∈ xs, ReachesCore x) :
    ∃ e en ip ys r d, runInputs (xs.map .access) s =
      .next { s with errCode := e, irqEn := en, irqStatus := ip, inputs := ys, response := r, draws := d } := by
  induction xs generalizing s with
  | nil => exact ⟨_, _, _, _, _, _, rfl⟩
  | cons x xs ih =>
    rcases hostAccess_answers x { s with inputs := [] } with ⟨-, u, hu⟩ | ⟨hout, -⟩
    · have hframe := hostAccess_busy_frame x { s with inputs := [] } u hs hu
      have hub : u.seq = .busy := by rw [hframe]; exact hs
      obtain ⟨e, en, ip, ys, r, d, ht⟩ := ih u hub fun y hy => hx y (List.mem_cons_of_mem _ hy)
      have hstep := step_access { s with inputs := [.access x] } x [] rfl
      refine ⟨e, en, ip, ys, r, d, ?_⟩
      rw [List.map_cons, runInputs_cons (hstep.trans hu), ht, hframe]
    · exact absurd (hx x (by simp)) hout

/-- Settles O10: the accesses leave all that the command in LATCH reads, and its completion does not read the rest. -/
theorem hostCannotDisturbARunningCommand : Obligations.HostCannotDisturbARunningCommand := by
  intro s i xs hinv hs hd hx
  obtain ⟨j, hj, hlen⟩ := hinv.latchAccepted hs
  cases Except.ok.inj (hd.symm.trans hj)
  obtain ⟨u, hu⟩ := exec_completes i s hlen
  obtain ⟨e, en, ip, ys, r, d, hrun⟩ := runInputs_accesses_busy xs s hs hx
  refine ⟨_, u, (runInputs_append _ _ _ _ hrun).trans (runInputs_coreTurn_busy hs hd (exec_congr hu e en ip [] r d)), hu,
    (exec_completed i s u hu).idle, rfl, rfl, rfl, rfl, rfl, rfl, rfl, rfl, rfl, rfl⟩

end Sys2Proof.Machine

/-! PROOFS. The registers and buffers on the bus, idle and busy (spec/20_memory.md R55, R57 to R60), and which events change
ERRCODE, IRQ_STATUS, TAG_MATCH and TAG (spec/10_state.md R28, R29, R32, R39). -/

namespace Sys2Proof.Machine

open Sys2Proof.Safety

/-! ### Reads -/

/-- STATUS as the sum of its fields' values in place (R27 to R30). -/
theorem statusWord_eq (s : State) :
    statusWord s = BitVec.ofNat 32 ((if s.tagMatch = true then 256 else 0)
      + (match s.errCode with
        | .none => 0
        | .illegalCmd => 0x10 + 2
        | .lenErr => 0x20 + 2
        | .busyCmd => 0x30 + 2
        | .busyAccess => 0x40 + 2)
      + (if s.seq = .busy then 1 else 0)) := by
  rw [statusWord, statusErr, statusBusy]
  cases s.tagMatch <;> cases s.seq <;> cases s.errCode <;> rfl

/-- Settles O11: the read answers the register's value, which for STATUS is the sum of its fields. -/
theorem registerReadsReturnTheirValues : Obligations.RegisterReadsReturnTheirValues := by
  intro s r rest hin
  rw [step_rd_reg s r rest hin]
  have hvalue (w : Word) (n : Nat) (h : w = BitVec.ofNat 32 n) :
      respond (.value w) { s with inputs := rest } =
        { s with inputs := rest, response := some (.value (BitVec.ofNat 32 n)) } := by rw [h]; rfl
  cases r with
  | status => exact congrArg _ (hvalue _ _ (statusWord_eq s))
  | id | version | cmd => exact congrArg _ (hvalue _ _ rfl)
  | irqEn => exact congrArg _ (hvalue _ _ (BitVec.ofNat_toNat ..).symm)
  | irqStatus => exact congrArg _ (hvalue _ _ (BitVec.ofNat_toNat ..).symm)
  | iter => exact congrArg _ (hvalue _ _ (by simp [readReg]))
  | msgLen => exact congrArg _ (hvalue _ _ (by simp [readReg]))
  | keyLen => exact congrArg _ (hvalue _ _ (by simp [readReg]))

/-- Settles O16: a buffer's word read while busy is a draw. -/
theorem busyBufferReadIsADraw : Obligations.BusyBufferReadIsADraw := by
  intro s b m rest hs hm hin
  have hdraw : loadFrom (.word b (4 * m)) { s with inputs := rest } = respondDraw { s with inputs := rest } := by
    simp only [loadFrom, hs]
  rw [step_rd_word s b m rest hm hin, hdraw]
  rfl

/-! ### Writes -/

/-- A write to an idle core is made. -/
theorem storeAt_idle (p : Place) (v : Word) (s : State) (hs : s.seq = .idle) : storeAt p v s = writePlace p v s := by
  simp only [storeAt, hs]

/-- A write to a busy core is made where it is none of the dropped ones (R60(d)). -/
theorem storeAt_busy_kept (p : Place) (v : Word) (s : State) (hs : s.seq = .busy) (hp : busyWriteError p = none) :
    storeAt p v s = writePlace p v s := by
  simp only [storeAt, hs, hp]

/-- A write to a busy core is dropped and recorded where it would change an input of a command (R60(b), (c)). -/
theorem storeAt_busy_dropped (p : Place) (v : Word) (s : State) (code : ErrCode) (hs : s.seq = .busy)
    (hp : busyWriteError p = some code) : storeAt p v s = recordError code s := by
  simp only [storeAt, hs, hp]

/-- The step of a write to a register while idle. -/
theorem step_wr_reg_idle (s : State) (r : Reg) (v : Word) (rest : List Input) (hs : s.seq = .idle)
    (hin : s.inputs = wr (regOffset r) v :: rest) :
    step s = .next (respond .done (writeReg r v { s with inputs := rest })) := by
  rw [step_wr_reg s r v rest hin, storeAt_idle _ _ { s with inputs := rest } hs, writePlace]

/-- The step of a write to TAG while idle, which ignores it (R57). -/
theorem step_wr_tag_idle (s : State) (m : Nat) (v : Word) (rest : List Input) (hs : s.seq = .idle) (hm : m < 8)
    (hin : s.inputs = wr (0xC0 + 4 * m) v :: rest) : step s = .next (respond .done { s with inputs := rest }) := by
  have hinside : 4 * m < bufferSize .tag := by simp only [bufferSize]; omega
  rw [step_wr_word s .tag m v rest hinside hin, storeAt_idle _ _ { s with inputs := rest } hs, writePlace]

/-- A write of 1 clears a pending bit, and a write of 0 leaves it (R32). -/
theorem writeIrqStatus_getLsbD (v : Word) (s : State) (b : Nat) (hb : b < 2) :
    (writeIrqStatus v s).irqStatus.getLsbD b = (s.irqStatus.getLsbD b && !v.getLsbD b) := by
  rw [writeIrqStatus_irqStatus, BitVec.getLsbD_and, BitVec.getLsbD_not, BitVec.getLsbD_setWidth]
  simp [hb]

/-- Settles O12: each write reaches its place and does there what the register's line of the table says. -/
theorem registerWritesWhileIdle : Obligations.RegisterWritesWhileIdle := by
  intro s v rest hs u
  refine ⟨step_wr_reg_idle s .id v rest hs, step_wr_reg_idle s .version v rest hs,
    fun m hm => step_wr_tag_idle s m v rest hs hm, fun hin => ?_, step_wr_reg_idle s .irqEn v rest hs,
    fun hin => ⟨_, step_wr_reg_idle s .irqStatus v rest hs hin, rfl, writeIrqStatus_getLsbD v _⟩,
    step_wr_reg_idle s .iter v rest hs, step_wr_reg_idle s .msgLen v rest hs, step_wr_reg_idle s .keyLen v rest hs⟩
  rw [step_wr_reg_idle s .status v rest hs hin, writeReg, writeStatus]
  split <;> rfl

/-- The words of the buffers but TAG, and the registers ITER, MSG_LEN and KEY_LEN, are inputs of commands (R60(c)). -/
theorem busyWriteError_word {b : Buffer} (hb : b ≠ .tag) (i : Nat) :
    busyWriteError (.word b i) = some .busyAccess := by
  cases b with
  | tag => exact absurd rfl hb
  | data | mkey | exptag | rk | msgbuf => rfl

/-- Settles O17: each of these places is an input of a command, so the write is dropped and BUSY_ACCESS recorded. -/
theorem busyWritesToInputsAreDropped : Obligations.BusyWritesToInputsAreDropped := by
  intro s v rest off hs hin hoff
  have dropped (p : Place) (hp : busyWriteError p = some .busyAccess) :=
    congrArg (respond .done) (storeAt_busy_dropped p v { s with inputs := rest } .busyAccess hs hp)
  rcases hoff with rfl | rfl | rfl | ⟨b, m, hb, hm, rfl⟩
  · exact (step_wr_reg s .iter v rest hin).trans (congrArg _ (dropped (.reg .iter) rfl))
  · exact (step_wr_reg s .msgLen v rest hin).trans (congrArg _ (dropped (.reg .msgLen) rfl))
  · exact (step_wr_reg s .keyLen v rest hin).trans (congrArg _ (dropped (.reg .keyLen) rfl))
  · exact (step_wr_word s b m v rest hm hin).trans (congrArg _ (dropped (.word b (4 * m)) (busyWriteError_word hb _)))

/-- A write that is not dropped while busy does not depend on SEQ and leaves it. -/
theorem writePlace_seq (p : Place) (v : Word) (s : State) (q : Seq) (hp : busyWriteError p = none) :
    writePlace p v { s with seq := q } = { writePlace p v s with seq := q } := by
  rcases p with r | ⟨b, i⟩
  · cases r with
    | status => simp only [writePlace, writeReg, writeStatus]; split <;> rfl
    | cmd | iter | msgLen | keyLen => cases hp
    | id | version | irqEn | irqStatus => rfl
  · cases b with
    | tag => rfl
    | data | mkey | exptag | rk | msgbuf => cases hp

/-- The places a busy core takes writes to are reached by one step, which leaves SEQ as it was. -/
theorem step_wr_kept (s : State) (v : Word) (rest : List Input) (off : Nat) (p : Place)
    (hplace : accessPlace off 4 = some p) (hp : busyWriteError p = none) (hs : s.seq = .busy)
    (hin : s.inputs = wr off v :: rest) :
    ∃ t, step { s with seq := .idle } = .next t ∧ step s = .next { t with seq := .busy } := by
  have hwrite (u : State) : hostAccess (wrAccess off v) u = .next (respond .done (storeAt p v u)) := by
    simp [hostAccess, writeAt, hplace]
  have hbusy : writePlace p v { s with inputs := rest } =
      { writePlace p v { s with inputs := rest } with seq := .busy } := by
    rw [← writePlace_seq p v { s with inputs := rest } .busy hp, ← hs]
  refine ⟨_, (step_access { s with seq := .idle } _ rest hin).trans (hwrite _), ?_⟩
  rw [storeAt_idle p v _ rfl, writePlace_seq p v { s with inputs := rest } .idle hp, step_access s _ rest hin, hwrite,
    storeAt_busy_kept p v { s with inputs := rest } hs hp]
  exact congrArg (fun u => Host.Outcome.next (respond .done u)) hbusy

/-- Settles O18: these are the places whose writes a busy core makes. -/
theorem busyControlWritesActAsWhenIdle : Obligations.BusyControlWritesActAsWhenIdle := by
  intro s v rest off hs hin hoff
  rcases hoff with rfl | rfl | rfl | rfl | rfl | ⟨m, hm, rfl⟩
  · exact step_wr_kept s v rest _ _ (accessPlace_reg .id) rfl hs hin
  · exact step_wr_kept s v rest _ _ (accessPlace_reg .version) rfl hs hin
  · exact step_wr_kept s v rest _ _ (accessPlace_reg .status) rfl hs hin
  · exact step_wr_kept s v rest _ _ (accessPlace_reg .irqEn) rfl hs hin
  · exact step_wr_kept s v rest _ _ (accessPlace_reg .irqStatus) rfl hs hin
  · exact step_wr_kept s v rest _ _ (accessPlace_word .tag m (by simp only [bufferSize]; omega)) rfl hs hin

/-! ### Outside the window -/

/-- Nothing stands past the window's end (R51, R55). -/
theorem accessPlace_outside (off n : Nat) (hoff : Config.winBytes ≤ off) : accessPlace off n = none := by
  refine Option.eq_none_iff_forall_not_mem.2 fun p hp => ?_
  have hwin : Config.winBytes = 0x1000 + Config.msgBufBytes := rfl
  obtain ⟨-, ⟨r, -, ho⟩ | ⟨b, m, -, ho, hm⟩⟩ := accessPlace_some off n p hp
  · have := regOffset_range r
    omega
  · cases b <;> simp only [bufferBase, bufferSize] at * <;> omega

/-- Settles O15: an offset past the end holds nothing, and an access is refused exactly where it has no offset. -/
theorem accessOutsideTheWindow : Obligations.AccessOutsideTheWindow := by
  intro s x rest hin
  rw [step_access s x rest hin]
  constructor
  · intro hout
    have haddr : accessAddr x = Config.coreBase + (accessAddr x - Config.coreBase) := by omega
    rw [hostAccess_busError x _ _ haddr (accessPlace_outside _ _ (by omega))]
    rfl
  · rcases hostAccess_answers x { s with inputs := rest } with ⟨hreach, t, ht⟩ | ⟨hout, hr⟩
    · have hge : ¬ accessAddr x < Config.coreBase := Nat.not_lt.2 hreach
      simp only [ht, reduceCtorEq, hge]
    · simp only [hr, Nat.lt_of_not_le hout]

/-! ### Which events change ERRCODE, IRQ_STATUS, TAG_MATCH and TAG -/

/-- What a write to a place can do to ERRCODE, TAG_MATCH, IRQ_STATUS and TAG: record an error, be decided as a command,
end an error's report or a pending interrupt, or leave all four. -/
theorem storeAt_effects (p : Place) (v : Word) (s : State) :
    (∃ code, storeAt p v s = recordError code s) ∨
    (s.seq = .idle ∧ p = .reg .cmd ∧ storeAt p v s = accept v s) ∨
    (p = .reg .status ∧ storeAt p v s = writeStatus v s) ∨
    (p = .reg .irqStatus ∧ storeAt p v s = writeIrqStatus v s) ∨
    ((storeAt p v s).errCode = s.errCode ∧ (storeAt p v s).tagMatch = s.tagMatch ∧
      (storeAt p v s).irqStatus = s.irqStatus ∧ (storeAt p v s).tag = s.tag) := by
  rcases storeAt_cases p v s with ⟨code, -, -, e⟩ | hcmd | hstatus | hirq | ⟨-, e⟩ | ⟨-, -, e⟩ | ⟨-, -, e⟩ |
    ⟨-, -, e⟩ | ⟨b, i, -, -, hb, e⟩ | ⟨-, e⟩
  · exact .inl ⟨code, e⟩
  · exact .inr (.inl hcmd)
  · exact .inr (.inr (.inl hstatus))
  · exact .inr (.inr (.inr (.inl hirq)))
  all_goals refine .inr (.inr (.inr (.inr ?_))); rw [e]
  · exact ⟨rfl, rfl, rfl, rfl⟩
  · exact ⟨rfl, rfl, rfl, rfl⟩
  · exact ⟨rfl, rfl, rfl, rfl⟩
  · exact ⟨rfl, rfl, rfl, rfl⟩
  · exact ⟨writeWord_errCode .., writeWord_tagMatch .., writeWord_irqStatus .., writeWord_tag b i v s hb⟩
  · exact ⟨rfl, rfl, rfl, rfl⟩

/-- A step that changes something beside the model's own fields is a completion, a write that reaches a place, or a
reset. -/
theorem step_changes {α : Type} (f : State → α)
    (hf : ∀ (s : State) xs r d, f { s with inputs := xs, response := r, draws := d } = f s)
    {s t : State} (h : step s = .next t) (hne : f t ≠ f s) :
    (∃ u i, CoreTurn s u ∧ s.seq = .busy ∧ decode s.latch = .ok i ∧ exec i u = .next t ∧ f u = f s) ∨
    (∃ off v p rest, s.inputs = wr off v :: rest ∧ accessPlace off 4 = some p ∧
      t = respond .done (storeAt p v { s with inputs := rest })) ∨
    (∃ rest, s.inputs = .reset :: rest ∧ t = applyReset { s with inputs := rest }) := by
  have hinputs (xs : List Input) : f { s with inputs := xs } = f s := hf s xs s.response s.draws
  rcases step_cases s t h with ⟨u, i, hturn, hs, hd, he⟩ | ⟨hturn, -⟩ | ⟨x, rest, hin, ha⟩ | hreset
  · exact .inl ⟨u, i, hturn, hs, hd, he, by rw [hturn.eq_inputs, hinputs]⟩
  · rw [hturn.eq_inputs, hinputs] at hne
    exact absurd rfl hne
  · rcases hostAccess_effect ha with hframe | ⟨off, v, p, rfl, hp, ht⟩
    · rw [hframe] at hne
      exact absurd (hf s rest _ _) hne
    · exact .inr (.inl ⟨off, v, p, rest, hin, hp, ht⟩)
  · exact .inr (.inr hreset)

/-- A write to the place of a register is a write to its offset. -/
theorem wr_of_accessPlace_reg {s : State} {off : Nat} {v : Word} {r : Reg} {rest : List Input}
    (hin : s.inputs = wr off v :: rest) (hp : accessPlace off 4 = some (.reg r)) :
    s.inputs = wr (regOffset r) v :: rest := by
  obtain ⟨-, rfl⟩ := accessPlace_eq_reg hp
  exact hin

/-- A recorded error is not replaced by another one (R137). -/
theorem recordError_kept {s : State} (code : ErrCode) (hs : s.errCode ≠ .none) :
    (recordError code s).errCode = s.errCode := if_neg hs

/-- A write keeps an error that is recorded, or it is a write of STATUS with bit 1 set (R28, R137). -/
theorem storeAt_errCode (p : Place) (v : Word) (s : State) (hs : s.errCode ≠ .none) :
    (storeAt p v s).errCode = s.errCode ∨
    (p = .reg .status ∧ v.getLsbD 1 = true ∧ (storeAt p v s).errCode = .none) := by
  rcases storeAt_effects p v s with ⟨code, e⟩ | ⟨-, -, e⟩ | ⟨hp, e⟩ | ⟨-, e⟩ | ⟨hkept, -⟩
  · exact .inl (e ▸ recordError_kept code hs)
  · left
    rcases accept_cases v s with ⟨_, -, e'⟩ | ⟨_, -, -, e'⟩ | ⟨_, -, -, e'⟩ <;> rw [e, e']
    · exact recordError_kept _ hs
    · exact recordError_kept _ hs
  · rw [e, writeStatus_errCode]
    by_cases hv : v.getLsbD 1 = true
    · exact .inr ⟨hp, hv, if_pos hv⟩
    · exact .inl (if_neg hv)
  · exact .inl (e ▸ rfl)
  · exact .inl hkept

/-- Settles O20: only a reset and a write of STATUS with bit 1 set touch a recorded error, and both clear it. -/
theorem firstErrorIsKeptUntilCleared : Obligations.FirstErrorIsKeptUntilCleared := by
  intro s t ht hs hne
  rcases step_changes State.errCode (fun _ _ _ _ => rfl) ht hne with ⟨u, i, -, -, -, he, hu⟩ |
    ⟨off, v, p, rest, hin, hp, rfl⟩ | ⟨rest, hin, rfl⟩
  · exact absurd ((exec_completed i u t he).control.errCode.trans hu) hne
  · rcases storeAt_errCode p v { s with inputs := rest } hs with hkept | ⟨rfl, hv, hnone⟩
    · exact absurd hkept hne
    · exact ⟨hnone, .inr ⟨v, rest, wr_of_accessPlace_reg hin hp, hv⟩⟩
  · exact ⟨rfl, .inl ⟨rest, hin⟩⟩

/-- A pending bit stays pending where another one is set. -/
theorem getLsbD_or_of_left {b : Nat} {x : BitVec 2} (y : BitVec 2) (h : x.getLsbD b = true) :
    (x ||| y).getLsbD b = true := by
  rw [BitVec.getLsbD_or, h, Bool.true_or]

/-- A write keeps a pending bit, or it is a write of IRQ_STATUS with that bit set (R32). -/
theorem storeAt_irqStatus (p : Place) (v : Word) (s : State) (b : Nat) (hb : s.irqStatus.getLsbD b = true) :
    (storeAt p v s).irqStatus.getLsbD b = true ∨ (p = .reg .irqStatus ∧ v.getLsbD b = true) := by
  rcases storeAt_effects p v s with ⟨code, e⟩ | ⟨-, -, e⟩ | ⟨-, e⟩ | ⟨hp, e⟩ | ⟨-, -, hkept, -⟩
  · exact .inl (e ▸ getLsbD_or_of_left errBit hb)
  · left
    rcases accept_cases v s with ⟨_, -, e'⟩ | ⟨_, -, -, e'⟩ | ⟨_, -, -, e'⟩ <;> rw [e, e']
    · exact getLsbD_or_of_left errBit hb
    · exact getLsbD_or_of_left errBit hb
    · exact hb
  · exact .inl (by rwa [e, writeStatus_irqStatus])
  · rw [e, writeIrqStatus_getLsbD v s b (BitVec.lt_of_getLsbD hb), hb]
    cases hv : v.getLsbD b
    · exact .inl rfl
    · exact .inr ⟨hp, rfl⟩
  · exact .inl (hkept ▸ hb)

/-- Settles O21: a completion and a recorded error set pending bits only; what is left is W1C and reset. -/
theorem pendingBitsFallOnlyByHostOrReset : Obligations.PendingBitsFallOnlyByHostOrReset := by
  intro s t b ht hset hclear
  have hne : t.irqStatus.getLsbD b ≠ s.irqStatus.getLsbD b := by rw [hset, hclear]; decide
  rcases step_changes (fun s => s.irqStatus.getLsbD b) (fun _ _ _ _ => rfl) ht hne with ⟨u, i, -, -, -, he, hu⟩ |
    ⟨off, v, p, rest, hin, hp, rfl⟩ | ⟨rest, hin, -⟩
  · rw [exec_frame i u t he] at hclear
    exact absurd (getLsbD_or_of_left doneBit (hu.trans hset)) (Bool.eq_false_iff.1 hclear)
  · rcases storeAt_irqStatus p v { s with inputs := rest } b hset with hkept | ⟨rfl, hv⟩
    · exact absurd hkept (Bool.eq_false_iff.1 hclear)
    · exact .inr ⟨v, rest, wr_of_accessPlace_reg hin hp, hv⟩
  · exact .inl ⟨rest, hin⟩

/-- A write keeps TAG_MATCH, or it is an acceptance, which clears it and makes the core busy (R29, R83). -/
theorem storeAt_tagMatch (p : Place) (v : Word) (s : State) :
    (storeAt p v s).tagMatch = s.tagMatch ∨
    (s.seq = .idle ∧ p = .reg .cmd ∧ (storeAt p v s).seq = .busy ∧ (storeAt p v s).tagMatch = false) := by
  rcases storeAt_effects p v s with ⟨code, e⟩ | ⟨hs, hp, e⟩ | ⟨-, e⟩ | ⟨-, e⟩ | ⟨-, hkept, -⟩
  · exact .inl (e ▸ rfl)
  · rcases accept_cases v s with ⟨_, -, e'⟩ | ⟨_, -, -, e'⟩ | ⟨_, -, -, e'⟩ <;> rw [e, e']
    · exact .inl rfl
    · exact .inl rfl
    · exact .inr ⟨hs, hp, rfl, rfl⟩
  · exact .inl (e ▸ writeStatus_tagMatch v s)
  · exact .inl (e ▸ rfl)
  · exact .inl hkept

/-- Settles O25: of the completions only TAG_VERIFY's changes TAG_MATCH, and of the writes only an accepted command. -/
theorem tagMatchChangesOnlyAsListed : Obligations.TagMatchChangesOnlyAsListed := by
  intro s t ht hne
  rcases step_changes State.tagMatch (fun _ _ _ _ => rfl) ht hne with ⟨u, i, hturn, hs, hd, he, hu⟩ |
    ⟨off, v, p, rest, hin, hp, rfl⟩ | ⟨rest, hin, -⟩
  · by_cases hi : i = .tagVerify
    · exact .inr (.inl ⟨hs, hi ▸ hd, hturn.inputs⟩)
    · exact absurd ((exec_tagMatch i u t he hi).trans hu) hne
  · rcases storeAt_tagMatch p v { s with inputs := rest } with hkept | ⟨hs, rfl, hbusy, hclear⟩
    · exact absurd hkept hne
    · exact .inr (.inr ⟨hs, hbusy, hclear, v, rest, wr_of_accessPlace_reg hin hp⟩)
  · exact .inl ⟨rest, hin⟩

/-- No write changes TAG (R39). -/
theorem storeAt_tag (p : Place) (v : Word) (s : State) : (storeAt p v s).tag = s.tag := by
  rcases storeAt_effects p v s with ⟨code, e⟩ | ⟨-, -, e⟩ | ⟨-, e⟩ | ⟨-, e⟩ | ⟨-, -, -, hkept⟩
  · exact e ▸ rfl
  · rcases accept_cases v s with ⟨_, -, e'⟩ | ⟨_, -, -, e'⟩ | ⟨_, -, -, e'⟩ <;> rw [e, e'] <;> rfl
  · exact e ▸ writeStatus_tag v s
  · exact e ▸ rfl
  · exact hkept

/-- Settles O26: no access changes TAG, and a completion that does is one of the three commands'. -/
theorem tagChangesOnlyByItsCommands : Obligations.TagChangesOnlyByItsCommands := by
  intro s t ht hne
  rcases step_changes State.tag (fun _ _ _ _ => rfl) ht hne with ⟨u, i, hturn, hs, hd, he, hu⟩ |
    ⟨off, v, p, rest, -, -, rfl⟩ | ⟨rest, hin, -⟩
  · by_cases hi : i ∈ [Instr.tagGen, .tagVerify, .zeroize]
    · exact .inr ⟨hs, hturn.inputs, i, hi, hd⟩
    · exact absurd ((exec_tag i u t he hi).trans hu) hne
  · exact absurd (storeAt_tag p v { s with inputs := rest }) hne
  · exact .inl ⟨rest, hin⟩

end Sys2Proof.Machine

/-! PROOFS. What each command computes and leaves (spec/40_control.md R87, R88; spec/41_sbox_perm.md R94, R95;
spec/42_kdf.md R102, R103; spec/43_key_schedule.md R105 to R108; spec/44_feistel.md R109 to R115; spec/45_tag.md R119 to
R122). -/

namespace Sys2Proof.Machine

open Sys2Proof.Safety

/-! ### The frame of a completion -/

/-- A completion changes no buffer. -/
@[simp] theorem readByte_complete (b : Buffer) (i : Nat) (s : State) : readByte b i (complete s) = readByte b i s :=
  readByte_congr s _ ⟨rfl, rfl, rfl, rfl, rfl, rfl⟩ b i

/-- A command that completes with a new MKEY leaves every byte of the other buffers. -/
theorem buffersKept_complete_mkey (s : State) (k : Block) : BuffersKept [.mkey] s (complete { s with mkey := k }) := by
  intro b hb i
  cases b with
  | mkey => exact absurd (List.mem_singleton.2 rfl) hb
  | data | tag | exptag | rk | msgbuf => rfl

/-- A command that completes with new round keys leaves every byte of the other buffers. -/
theorem buffersKept_complete_rk (s : State) (k : Vector Half 16) :
    BuffersKept [.rk] s (complete { s with rk := k }) := by
  intro b hb i
  cases b with
  | rk => exact absurd (List.mem_singleton.2 rfl) hb
  | data | mkey | tag | exptag | msgbuf => rfl

/-- A command that completes with a new TAG, whatever it does to TAG_MATCH, leaves every byte of the other buffers. -/
theorem buffersKept_complete_tag (s : State) (t : Half) (m : Bool) :
    BuffersKept [.tag] s (complete { s with tag := t, tagMatch := m }) := by
  intro b hb i
  cases b with
  | tag => exact absurd (List.mem_singleton.2 rfl) hb
  | data | mkey | exptag | rk | msgbuf => rfl

/-! ### NOP, ZEROIZE and the S-box commands -/

/-- Settles O30: NOP is completion alone. -/
theorem nopOnlyCompletes : Obligations.NopOnlyCompletes := fun _ => rfl

/-- ZEROIZE answers the completion with the buffers cleared (R88). -/
theorem exec_zeroize (s : State) : exec .zeroize s = .next (complete (clearBuffers s)) := rfl

/-- Settles O42: the buffers are cleared, and completion changes none of them. -/
theorem zeroizeClearsEveryBuffer : Obligations.ZeroizeClearsEveryBuffer := fun s =>
  ⟨_, exec_zeroize s, fun b j => (readByte_complete b j _).trans (readByte_clearBuffers b j s), rfl,
    exec_completed _ _ _ (exec_zeroize s)⟩

/-- SBOX_SUB answers the completion with DATA substituted (R94). -/
theorem exec_sboxSub (sel : Fin 8) (s : State) :
    exec (.sboxSub sel) s = .next (complete { s with data := substAll (tables.sbox sel) s.data }) := rfl

/-- Settles O31: each byte of DATA goes through the one S-box. -/
theorem sboxSubSubstitutesEveryByte : Obligations.SboxSubSubstitutesEveryByte := fun sel s =>
  ⟨_, exec_sboxSub sel s, fun j => substAll_getElem _ _ _ j.isLt, rfl, buffersKept_complete_data _ _,
    exec_completed _ _ _ (exec_sboxSub sel s)⟩

/-- SBOX_SUBP answers the completion with DATA substituted by position (R95). -/
theorem exec_sboxSubp (s : State) :
    exec .sboxSubp s = .next (complete { s with data := substPositional tables s.data }) := rfl

/-- Settles O32: byte j of DATA goes through S-box j mod 8. -/
theorem sboxSubpSubstitutesByPosition : Obligations.SboxSubpSubstitutesByPosition := fun s =>
  ⟨_, exec_sboxSubp s, fun j => substPositional_getElem _ _ _ j.isLt, rfl, buffersKept_complete_data _ _,
    exec_completed _ _ _ (exec_sboxSubp s)⟩

/-! ### The Feistel commands -/

/-- FFUNC answers the completion with F of the right half in the left half (R113). -/
theorem exec_ffunc (r : Fin 16) (s : State) : exec (.ffunc r) s = .next (complete
    { s with data := joinHalves (feistelF tables (rightHalf s.data) s.rk[r] r) (rightHalf s.data) }) := rfl

/-- Settles O35: the snapshot is the substituted xor of the right half with the round key; F mixes it and, in every
fourth round, permutes it. -/
theorem ffuncEvaluatesOneRound : Obligations.FfuncEvaluatesOneRound := by
  intro r s
  refine ⟨_, exec_ffunc r s, ⟨substAll (roundSbox tables r) (xorBytes (rightHalf s.data) s.rk[r]),
    neighbourMix (substAll (roundSbox tables r) (xorBytes (rightHalf s.data) s.rk[r])), fun i => ?_,
    fun i => neighbourMix_getElem _ _ i.isLt, fun i => ?_⟩, fun j hj => ?_, rfl, buffersKept_complete_data _ _,
    exec_completed _ _ _ (exec_ffunc r s)⟩
  · simp only [Fin.getElem_fin, substAll_getElem _ _ _ i.isLt, xorBytes_getElem _ _ _ i.isLt,
      rightHalf_getElem _ _ i.isLt]
    rfl
  · rw [complete_data, joinHalves_getElem _ _ _ (by omega), dif_pos i.isLt, feistelF]
    split <;> rfl
  · exact joinHalves_rightHalf_getElem _ _ _ j.isLt hj

/-- The halves at the start of round n of encryption (R111). -/
def encHalves (T : Tables) (rk : Vector Half 16) (b : Block) (n : Nat) : Half × Half :=
  ((List.finRange 16).take n).foldl (encRound T rk) (leftHalf b, rightHalf b)

/-- Encryption goes from round to round by `encRound`. -/
theorem encHalves_succ (T : Tables) (rk : Vector Half 16) (b : Block) (n : Fin 16) :
    encHalves T rk b (n.val + 1) = encRound T rk (encHalves T rk b n.val) n := by
  rw [encHalves, List.take_succ_eq_append_getElem (by simp), List.foldl_append, List.getElem_finRange]
  rfl

/-- Encryption puts out the halves after round 15, the right one first. -/
theorem feistelEnc_eq (T : Tables) (rk : Vector Half 16) (b : Block) :
    feistelEnc T rk b = joinHalves (encHalves T rk b 16).2 (encHalves T rk b 16).1 := by
  rw [encHalves, List.take_of_length_le (by simp)]
  rfl

/-- Settles O36: the sequences are the halves before each round. -/
theorem encRunsSixteenRounds : Obligations.EncRunsSixteenRounds := by
  intro s
  refine ⟨_, exec_enc s, ⟨fun n => (encHalves tables s.rk s.data n).1, fun n => (encHalves tables s.rk s.data n).2, rfl,
    rfl, fun n => ?_, ?_, ?_⟩, rfl, buffersKept_complete_data _ _, exec_completed _ _ _ (exec_enc s)⟩
  · simp only [encHalves_succ]
    exact ⟨rfl, rfl⟩
  · rw [complete_data, feistelEnc_eq, leftHalf_joinHalves]
  · rw [complete_data, feistelEnc_eq, rightHalf_joinHalves]

/-- The halves after round n of decryption has run, rounds counted downward from 15; those it starts with at 16 (R112). -/
def decHalves (T : Tables) (rk : Vector Half 16) (c : Block) (n : Nat) : Half × Half :=
  ((List.finRange 16).drop n).reverse.foldl (decRound T rk) (rightHalf c, leftHalf c)

/-- Decryption goes from round to round by `decRound`. -/
theorem decHalves_eq (T : Tables) (rk : Vector Half 16) (c : Block) (n : Fin 16) :
    decHalves T rk c n.val = decRound T rk (decHalves T rk c (n.val + 1)) n := by
  rw [decHalves, List.drop_eq_getElem_cons (by simp), List.reverse_cons, List.foldl_append, List.getElem_finRange]
  rfl

/-- Decryption puts out the halves after round 0, the left one first. -/
theorem feistelDec_eq (T : Tables) (rk : Vector Half 16) (c : Block) :
    feistelDec T rk c = joinHalves (decHalves T rk c 0).1 (decHalves T rk c 0).2 := rfl

/-- Settles O37: the sequences are the halves after each round, from the one before round 15 down. -/
theorem decRunsTheRoundsDownward : Obligations.DecRunsTheRoundsDownward := by
  intro s
  refine ⟨_, exec_dec s, ⟨fun n => (decHalves tables s.rk s.data n).1, fun n => (decHalves tables s.rk s.data n).2, rfl,
    rfl, fun n => ?_, ?_, ?_⟩, rfl, buffersKept_complete_data _ _, exec_completed _ _ _ (exec_dec s)⟩
  · simp only [decHalves_eq]
    exact ⟨rfl, rfl⟩
  · rw [complete_data, feistelDec_eq, leftHalf_joinHalves]
  · rw [complete_data, feistelDec_eq, rightHalf_joinHalves]

/-- Settles O49: both neighbours are b, so each byte is b xored with b shifted right by 3 and left by 5, its rotation. -/
theorem equalBytesMixToEqualBytes : Obligations.EqualBytesMixToEqualBytes := by
  intro b
  refine Vector.ext fun i hi => ?_
  rw [neighbourMix_getElem _ _ hi, Vector.getElem_replicate, Vector.getElem_replicate, Vector.getElem_replicate,
    Vector.getElem_replicate, BitVec.rotateRight_def]

/-! ### The key schedule -/

/-- KSCHED answers the completion with the round keys of MKEY (R108). -/
theorem exec_ksched (s : State) : exec .ksched s = .next (complete { s with rk := schedule tables s.mkey }) := rfl

/-- A round key of the schedule is made from the running key at the start of its round (R105). -/
theorem schedule_getElem (T : Tables) (mk : Block) (r : Fin 16) :
    (schedule T mk)[r] = roundKey T r (runningKey T mk r.val) := by
  simp [schedule]

/-- The running key goes on with the round key just made (R105). -/
theorem runningKey_succ (T : Tables) (mk : Block) (r : Fin 16) :
    runningKey T mk (r.val + 1) = nextKey (runningKey T mk r.val) (schedule T mk)[r] := by
  rw [runningKey, schedule_getElem, Fin.ofNat_val_eq_self]

/-- Settles O38: the running keys are those of the schedule. -/
theorem kschedExpandsTheMasterKey : Obligations.KschedExpandsTheMasterKey := by
  intro s
  refine ⟨_, exec_ksched s, ⟨runningKey tables s.mkey, rfl, fun r => ⟨fun i => ?_, fun i => ?_⟩⟩, rfl,
    buffersKept_complete_rk _ _, exec_completed _ _ _ (exec_ksched s)⟩
  · rw [complete_rk, schedule_getElem]
    exact roundKey_getElem tables r _ i i.isLt
  · rw [complete_rk, runningKey_succ]
    exact nextKey_getElem _ _ i i.isLt

/-- Settles O50: a round key takes the low byte of each constant only, and the running keys take the round keys. -/
theorem scheduleUsesLowBytesOnly : Obligations.ScheduleUsesLowBytesOnly := by
  intro T U hsbox hmixc mk
  have hround (r : Fin 16) (key : Block) : roundKey T r key = roundKey U r key := by
    refine Vector.ext fun i hi => ?_
    rw [roundKey_getElem _ _ _ _ hi, roundKey_getElem _ _ _ _ hi, roundSbox, roundSbox, hsbox]
    exact congrArg (fun w => U.sbox (Fin.ofNat 8 r.val) (key[i] ^^^ w)) (hmixc r (Fin.ofNat 4 i))
  have hrunning (n : Nat) : runningKey T mk n = runningKey U mk n := by
    induction n with
    | zero => rfl
    | succ n ih => rw [runningKey, runningKey, ih, hround]
  refine Vector.ext fun r hr => ?_
  have h := schedule_getElem T mk ⟨r, hr⟩
  rw [hround, hrunning, ← schedule_getElem U mk ⟨r, hr⟩] at h
  exact h

/-! ### Key derivation -/

/-- KDF answers the completion with the derived key in MKEY, where its input fits MSGBUF (R103). -/
theorem exec_kdf (s : State) (h : s.msgLen.toNat ≤ Config.msgBufBytes) : exec .kdf s =
    .next (complete { s with mkey := kdfFunction tables (kdfInput s) s.iter.toNat }) :=
  completeWithin_ok .kdf s _ (by simp [lenOk_iff, h])

/-- A slice of MSGBUF is its bytes in order. -/
theorem msgSlice_eq (start len : Nat) (s : State) :
    msgSlice start len s = (List.range len).map fun i => readByte .msgbuf (start + i) s := rfl

/-- The input of KDF is the first MSG_LEN bytes of MSGBUF (R101). -/
theorem kdfInput_eq (s : State) :
    kdfInput s = (List.range s.msgLen.toNat).map fun i => readByte .msgbuf i s := by
  simp only [kdfInput, msgSlice_eq, Nat.zero_add]

/-- Field k of a word put together from four bytes, the first in bits 31:24, is byte k (R15). -/
theorem be32_extractLsb' (f : Nat → Byte) (k : Nat) (hk : k < 4) :
    (be32 (f 0) (f 1) (f 2) (f 3)).extractLsb' (24 - 8 * k) 8 = f k := by
  obtain ⟨h0, h1, h2, h3⟩ := be32_extract (f 0) (f 1) (f 2) (f 3)
  match k, hk with
  | 0, _ => exact h0
  | 1, _ => exact h1
  | 2, _ => exact h2
  | 3, _ => exact h3

/-- Step 3a byte by byte: byte j is xored with its field of the constant of its 4-byte group (R102). -/
theorem xorConstants_getElem (c : Fin 4 → Word) (st : Block) (j : Nat) (hj : j < 64) :
    (xorConstants c st)[j] =
      st[j] ^^^ (c ⟨j / 4 % 4, Nat.mod_lt _ (by decide)⟩).extractLsb' (24 - 8 * (j % 4)) 8 := by
  have hk : j % 4 < 4 := Nat.mod_lt _ (by decide)
  have hbyte := be32_extractLsb' (fun k => byteOf st (4 * (j / 4) + k)) (j % 4) hk
  simp only [Nat.div_add_mod, byteOf_lt st j hj] at hbyte
  rw [xorConstants, Vector.getElem_ofFn, byteOf_lt _ _ hk, bytesBe_getElem _ _ hk, BitVec.extractLsb'_xor]
  exact congrArg (· ^^^ _) hbyte

/-- The state of the derivation goes from iteration to iteration by the four steps (R102). -/
theorem kdfLoop_succ (T : Tables) (st : Block) (i : Nat) :
    kdfLoop T st (i + 1) = kdfIteration T i (kdfLoop T st i) := rfl

/-- One iteration, its four steps one after another (R102). -/
theorem kdfIteration_steps (T : Tables) (i : Nat) (st : Block) : ∃ a b c : Block,
    (∀ j : Fin 64, a[j] = st[j] ^^^
      (T.mixc ⟨i % 16, Nat.mod_lt _ (by decide)⟩ ⟨j.val / 4 % 4, Nat.mod_lt _ (by decide)⟩).extractLsb'
        (24 - 8 * (j.val % 4)) 8) ∧
    (∀ j : Fin 64, b[j] = T.sbox ⟨j.val % 8, Nat.mod_lt _ (by decide)⟩ a[j]) ∧
    c = (if i % 100 = 0 then perm512 T b else b) ∧
    kdfIteration T i st = if i % 1000 = 0 ∧ 0 < i then T.sha512 c.toList else c := by
  refine ⟨xorConstants (T.mixc (Fin.ofNat 16 i)) st, substPositional T (xorConstants (T.mixc (Fin.ofNat 16 i)) st), _,
    fun j => xorConstants_getElem _ _ _ j.isLt, fun j => substPositional_getElem _ _ _ j.isLt, rfl, ?_⟩
  rw [kdfIteration, kdfRehash, kdfPermute]

/-- The derivation is the loop from the hash of its input and IDSTR (R102). -/
theorem kdfFunction_eq (T : Tables) (m : List Byte) (n : Nat) :
    kdfFunction T m n = kdfLoop T (T.sha512 (m ++ idstr)) n := rfl

/-- Settles O39: the states are those of the loop, and a, b and c are the state after steps 3a, 3b and 3c. -/
theorem kdfIteratesFromTheHash : Obligations.KdfIteratesFromTheHash := by
  intro s hlen
  have hexec := exec_kdf s hlen
  refine ⟨_, hexec, ⟨kdfLoop tables (tables.sha512 (kdfInput s ++ idstr)), ?_, fun i _ => ?_, ?_⟩, ?_, ?_, ?_⟩
  · rw [kdfLoop, kdfInput_eq]
  · rw [kdfLoop_succ]
    exact kdfIteration_steps tables i _
  · rw [complete_mkey, kdfFunction_eq]
  · exact exec_tagMatch _ _ _ hexec (by decide)
  · exact buffersKept_complete_mkey _ _
  · exact exec_completed _ _ _ hexec

/-- Settles O51: KDF's completion reads MSG_LEN, ITER and those bytes of MSGBUF. -/
theorem kdfReadsOnlyItsInputs : Obligations.KdfReadsOnlyItsInputs := by
  intro s s' t t' hlen hiter hbytes ht ht'
  have hinput : kdfInput s' = kdfInput s := by
    rw [kdfInput_eq, kdfInput_eq, hlen]
    exact List.map_congr_left fun i hi => hbytes i (List.mem_range.1 hi)
  rw [(completeWithin_next _ _ _ _ ht).2, (completeWithin_next _ _ _ _ ht').2, complete_mkey, complete_mkey, hinput,
    hiter]

/-! ### The tag -/

/-- TAG_GEN answers the completion with the tag in TAG, where its input fits MSGBUF (R121). -/
theorem exec_tagGen (s : State) (h : s.keyLen.toNat + s.msgLen.toNat ≤ Config.msgBufBytes) :
    exec .tagGen s = .next (complete { s with tag := computedTag tables s }) :=
  completeWithin_ok .tagGen s _ (by simp [lenOk_iff, h])

/-- TAG_VERIFY answers the completion with the tag in TAG and the comparison in TAG_MATCH, where its input fits MSGBUF
(R122). -/
theorem exec_tagVerify (s : State) (h : s.keyLen.toNat + s.msgLen.toNat ≤ Config.msgBufBytes) :
    exec .tagVerify s = .next (complete
      { s with tag := computedTag tables s, tagMatch := tagMatches (computedTag tables s) s.exptag }) :=
  completeWithin_ok .tagVerify s _ (by simp [lenOk_iff, h])

/-- A byte of the tag of what MSGBUF holds, in the closed form: the key lies first, the data after it (R119, R120). -/
theorem computedTag_getElem (T : Tables) (s : State) (i : Nat) (hi : i < 32) :
    (computedTag T s)[i] = T.sbox 4
      (T.sha512
        ((T.sha512 ((List.range s.keyLen.toNat).map (fun j => readByte .msgbuf j s) ++ idstr)).toList
          ++ (List.range s.msgLen.toNat).map (fun j => readByte .msgbuf (s.keyLen.toNat + j) s)))[i] := by
  rw [computedTag, tagFunction_getElem, tagKey, tagData, msgSlice_eq, msgSlice_eq]
  simp only [Nat.zero_add]

/-- Settles O40: the tag in its closed form, of the key and the data as they lie in MSGBUF. -/
theorem tagGenWritesTheTag : Obligations.TagGenWritesTheTag := by
  intro s hlen
  have hexec := exec_tagGen s hlen
  refine ⟨_, hexec, fun i => ?_, ?_, ?_, ?_⟩
  · exact computedTag_getElem tables s i.val i.isLt
  · exact exec_tagMatch _ _ _ hexec (by decide)
  · exact buffersKept_complete_tag s _ s.tagMatch
  · exact exec_completed _ _ _ hexec

/-- Settles O41: TAG_VERIFY computes what TAG_GEN does, and its comparison decides equality. -/
theorem tagVerifyDecidesEquality : Obligations.TagVerifyDecidesEquality := by
  intro s hlen
  have hexec := exec_tagVerify s hlen
  refine ⟨_, _, hexec, exec_tagGen s hlen, ?_, ?_, ?_, ?_⟩
  · rw [complete_tag, complete_tag]
  · rw [complete_tagMatch, complete_tag]
    exact (tagMatches_iff _ _).trans eq_comm
  · exact buffersKept_complete_tag _ _ _
  · exact exec_completed _ _ _ hexec

/-! ### Lengths that do not fit -/

/-- A guarded completion faults exactly where the lengths do not fit. -/
theorem completeWithin_fault_iff (i : Instr) (s t : State) :
    completeWithin i s t = .fault .msgbufRange ↔ ¬ lenOk i s = true := by
  rw [completeWithin]
  split <;> simp_all

/-- Settles O43: the three commands are guarded by the length check, which reads these sums. -/
theorem overlongLengthsStopTheCommand : Obligations.OverlongLengthsStopTheCommand := by
  intro s
  refine ⟨(completeWithin_fault_iff .kdf s _).trans ?_, (completeWithin_fault_iff .tagGen s _).trans ?_,
    (completeWithin_fault_iff .tagVerify s _).trans ?_⟩ <;> simp [lenOk_iff]

end Sys2Proof.Machine

/-! PROOFS. The generated tables (spec/41_sbox_perm.md R91 to R93), and the half-block permutation as part of the whole one
(R97). -/

namespace Sys2Proof.Machine

/-! ### The generated tables are bijections -/

/-- Every S-box sends no two bytes to one, for every seed (R43, R93(a)). -/
theorem tablesOf_sbox_injective (c : CipherContext) (n : Fin 8) : Function.Injective ((tablesOf c).sbox n) := by
  intro x y hxy
  have hfin : x.toFin = y.toFin :=
    getElem_injective_of_perm_ofFn_id _ (shuffle_perm sboxLcg 255 (c.sboxSeed n).toNat _)
      (congrArg BitVec.toFin hxy)
  exact BitVec.eq_of_toFin_eq hfin

/-! ### The permutation of seed 0 -/

/-- A place of a vector after two places in range were swapped. -/
theorem getElem_swapIfInBounds {α : Type} {n : Nat} (a : Vector α n) (i j k : Nat) (hi : i < n) (hj : j < n)
    (hk : k < n) : (a.swapIfInBounds i j)[k] = if k = i then a[j] else if k = j then a[i] else a[k] := by
  simp only [Vector.swapIfInBounds, Vector.getElem_mk, Array.getElem_swapIfInBounds, Vector.size_toArray, hi, hj,
    and_true, Vector.getElem_toArray]
  split_ifs <;> rfl

/-- The shuffle of an update that stays at 0 swaps each place with place 0, from i down: places 0 to i move down by one
and place 0 goes to i. -/
theorem shuffle_zero_getElem {n : Nat} (update : Nat → Nat) (hu : update 0 = 0) (i : Nat) (a : Vector (Fin n) n)
    (hi : i < n) (k : Nat) (hk : k < n) :
    (shuffle update i 0 a)[k] =
      if h : k < i then a[k + 1] else if k = i then a[0]'(Nat.lt_of_le_of_lt (Nat.zero_le i) hi) else a[k] := by
  induction i generalizing a with
  | zero =>
    rw [shuffle, dif_neg (Nat.not_lt_zero k)]
    split
    · subst k; rfl
    · rfl
  | succ i ih =>
    have hswap (m : Nat) (hm : m < n) := getElem_swapIfInBounds a (i + 1) 0 m hi (by omega) hm
    rw [shuffle, hu, Nat.zero_mod, ih _ (by omega)]
    rcases Nat.lt_trichotomy k i with hlt | rfl | hgt
    · rw [dif_pos hlt, dif_pos (by omega), hswap, if_neg (by omega), if_neg (by omega)]
    · rw [dif_neg (by omega), if_pos rfl, dif_pos (by omega), hswap, if_neg (by omega), if_pos rfl]
    · rw [dif_neg (by omega), if_neg (by omega), hswap, dif_neg (by omega)]
      by_cases hk1 : k = i + 1
      · rw [if_pos hk1, if_pos hk1]
      · rw [if_neg hk1, if_neg (by omega), if_neg hk1]

/-- The permutation of seed 0 moves each position up by one, and the last one to 0 (R93(c)). -/
theorem genPerm_zero (k : Fin 512) : ((genPerm 0)[k]).val = (k.val + 1) % 512 := by
  have h := shuffle_zero_getElem permLcg (by decide) 511 (Vector.ofFn (n := 512) id) (by decide) k.val k.isLt
  rw [Fin.getElem_fin, genPerm, show (0 : BitVec 16).toNat = 0 from rfl, h]
  split
  · rw [Vector.getElem_ofFn]
    exact (Nat.mod_eq_of_lt (by omega)).symm
  · have hk : k.val = 511 := by omega
    rw [if_pos hk, Vector.getElem_ofFn, hk]
    rfl

/-- Settles O44: the generators shuffle, so no value is lost or doubled; and seed 0 stays at 0. -/
theorem tablesAreBijections : Obligations.TablesAreBijections :=
  ⟨fun c => ⟨fun n => Finite.injective_iff_bijective.1 (tablesOf_sbox_injective c n),
    Finite.injective_iff_bijective.1 (tablesOf_perm_injective c)⟩, genPerm_zero⟩

/-! ### The half-block permutation -/

/-- The bits of a half followed by zeros. -/
theorem bitOf_joinHalves_zeros (h : Half) (k : Nat) :
    bitOf (joinHalves h (Vector.replicate 32 0)) k = (decide (k < 256) && bitOf h k) := by
  by_cases hk : k < 256
  · rw [bitOf_joinHalves_left _ _ _ hk, decide_eq_true hk, Bool.true_and]
  · rw [decide_eq_false hk, Bool.false_and, bitOf]
    by_cases hin : k / 8 < 64
    · rw [byteOf_lt _ _ hin, joinHalves_getElem _ _ _ hin, dif_neg (by omega), Vector.getElem_replicate]
      exact BitVec.getLsbD_zero
    · rw [byteOf_ge _ _ (by omega)]
      exact BitVec.getLsbD_zero

/-- Settles O46: P reaches every position, and what it sends there is the same bit on both sides. -/
theorem perm256IsTheFirstHalfOfPerm512 : Obligations.Perm256IsTheFirstHalfOfPerm512 := by
  intro c h
  have hinj := tablesOf_perm_injective c
  refine eq_of_bitOf _ _ fun k hk => ?_
  obtain ⟨j, hj⟩ := (Finite.injective_iff_bijective.1 hinj).surjective ⟨k, by omega⟩
  obtain rfl : ((tablesOf c).perm j).val = k := congrArg Fin.val hj
  rw [bitOf_perm256 _ hinj h j hk, bitOf_leftHalf _ _ hk, bitOf_perm512 _ hinj, bitOf_joinHalves_zeros]

end Sys2Proof.Machine

/-! PROOFS. The host contract (spec/48_host_facade.md R124 to R132): padding, messages and envelopes. -/

namespace Sys2Proof.Machine

/-! ### Padding -/

/-- Padding that says its own length comes off again (R125). -/
theorem removePadding_append_replicate (m : List Byte) (p : Nat) (h0 : 0 < p) (h64 : p ≤ 64) :
    removePadding (m ++ List.replicate p (BitVec.ofNat 8 p)) = .ok m := by
  have hp : (BitVec.ofNat 8 p).toNat = p := by
    rw [BitVec.toNat_ofNat]
    exact Nat.mod_eq_of_lt (Nat.lt_of_le_of_lt h64 (by decide))
  have hne : BitVec.ofNat 8 p ≠ 0 := fun h => by
    have hzero := congrArg BitVec.toNat h
    rw [hp] at hzero
    exact absurd hzero (by simpa using Nat.ne_of_gt h0)
  have hlast : (m ++ List.replicate p (BitVec.ofNat 8 p)).getLast? = some (BitVec.ofNat 8 p) := by
    rw [List.getLast?_append, List.getLast?_replicate, if_neg (Nat.ne_of_gt h0), Option.some_or]
  have hstart : (m ++ List.replicate p (BitVec.ofNat 8 p)).length - p = m.length := by simp
  rw [removePadding, hlast]
  simp only [hp, hstart]
  rw [if_neg (by simp only [not_or]; exact ⟨hne, by omega⟩), if_neg (by simp), if_neg (by simp), List.take_left]

/-- A message with its padding is a positive number of whole blocks (R124). -/
theorem length_addPadding (m : List Byte) : (addPadding m).length = 64 * (m.length / 64 + 1) := by
  rw [addPadding, List.length_append, List.length_replicate]
  omega

/-- The padding comes off again. -/
theorem removePadding_addPadding (m : List Byte) : removePadding (addPadding m) = .ok m :=
  removePadding_append_replicate m _ (by omega) (Nat.sub_le ..)

/-- Settles O53: the padding fills the last block, and each of its bytes is its length, which is 1 to 64. -/
theorem paddingRoundTrip : Obligations.PaddingRoundTrip := by
  intro m
  have hlen := length_addPadding m
  exact ⟨by omega, by omega, removePadding_addPadding m⟩

/-! ### Blocks -/

/-- The first block of a byte string that begins with one. -/
theorem blocksOf_cons (b : Block) (q : List Byte) : blocksOf (b.toList ++ q) = b :: blocksOf q := by
  have hlen : (b.toList ++ q).length / 64 = q.length / 64 + 1 := by
    rw [List.length_append, Vector.length_toList]; omega
  rw [blocksOf, hlen, List.range_succ_eq_map, List.map_cons, List.map_map, blocksOf]
  refine congrArg₂ List.cons ?_ ?_
  · refine Vector.ext fun i hi => ?_
    rw [Vector.getElem_ofFn, Nat.mul_zero, Nat.zero_add, List.getD_append _ _ _ _ (by simpa using hi),
      List.getD_eq_getElem _ _ (by simpa using hi), Vector.getElem_toList]
  · refine List.map_congr_left fun k _ => Vector.ext fun i hi => ?_
    rw [Function.comp_apply, Vector.getElem_ofFn, Vector.getElem_ofFn,
      List.getD_append_right _ _ _ _ (by rw [Vector.length_toList]; omega), Vector.length_toList]
    have hindex : 64 * (k + 1) + i - 64 = 64 * k + i := by omega
    rw [← hindex]

/-- The blocks of blocks written one after another are the blocks. -/
theorem blocksOf_flatMap (bs : List Block) : blocksOf (bs.flatMap Vector.toList) = bs := by
  induction bs with
  | nil => rfl
  | cons b bs ih => rw [List.flatMap_cons, blocksOf_cons, ih]

/-- A byte string of whole blocks is its blocks, one after another. -/
theorem flatMap_blocksOf (n : Nat) (q : List Byte) (hq : q.length = 64 * n) :
    (blocksOf q).flatMap Vector.toList = q := by
  induction n generalizing q with
  | zero =>
    rw [List.length_eq_zero_iff.1 hq]
    rfl
  | succ n ih =>
    have htake : (q.take 64).length = 64 := by rw [List.length_take]; omega
    have hsplit : (⟨(q.take 64).toArray, htake⟩ : Block).toList ++ q.drop 64 = q := List.take_append_drop 64 q
    have hdrop := ih (q.drop 64) (by rw [List.length_drop]; omega)
    rw [← hsplit, blocksOf_cons, List.flatMap_cons, hdrop]

/-- What is done to every block, as a map of the blocks. -/
theorem mapBlocks_eq (f : Block → Block) (q : List Byte) :
    mapBlocks f q = ((blocksOf q).map f).flatMap Vector.toList := by
  rw [mapBlocks, List.flatMap_map]

/-- Two functions on every block, one after the other, are their composition on every block. -/
theorem mapBlocks_mapBlocks (f g : Block → Block) (q : List Byte) :
    mapBlocks g (mapBlocks f q) = mapBlocks (fun b => g (f b)) q := by
  rw [mapBlocks_eq g, mapBlocks_eq f, blocksOf_flatMap, List.map_map, mapBlocks_eq]
  rfl

/-- Nothing done to any block of a whole number of them leaves the bytes. -/
theorem mapBlocks_id (q : List Byte) (hq : q.length % 64 = 0) : mapBlocks (fun b => b) q = q := by
  rw [mapBlocks_eq, List.map_id']
  exact flatMap_blocksOf (q.length / 64) q (by omega)

/-- Blocks written one after another have 64 bytes each. -/
theorem length_flatMap_toList (bs : List Block) : (bs.flatMap Vector.toList).length = 64 * bs.length := by
  induction bs with
  | nil => rfl
  | cons b bs ih => rw [List.flatMap_cons, List.length_append, Vector.length_toList, ih, List.length_cons]; omega

/-- What is done to every block keeps the number of whole blocks. -/
theorem length_mapBlocks (f : Block → Block) (q : List Byte) : (mapBlocks f q).length = 64 * (q.length / 64) := by
  rw [mapBlocks_eq, length_flatMap_toList, List.length_map, blocksOf, List.length_map, List.length_range]

/-! ### Messages -/

/-- A ciphertext is as long as the padded message. -/
theorem length_encryptMessage (T : Tables) (m : List Byte) (pw : String) (salt : List Byte) :
    (encryptMessage T m pw salt).length = 64 * (m.length / 64 + 1) := by
  rw [encryptMessage, length_mapBlocks, length_addPadding, Nat.mul_div_cancel_left _ (by decide)]

/-- What is no positive number of whole blocks is no ciphertext (R127). -/
theorem decryptMessage_misaligned (T : Tables) (c : List Byte) (pw : String) (salt : List Byte)
    (h : c.length = 0 ∨ c.length % 64 ≠ 0) : decryptMessage T c pw salt = .error .invalidInput := by
  rw [decryptMessage, if_pos h]

/-- A positive number of whole blocks is decrypted block by block, and the padding taken off (R127). -/
theorem decryptMessage_aligned (T : Tables) (c : List Byte) (pw : String) (salt : List Byte)
    (h0 : 0 < c.length) (h64 : c.length % 64 = 0) :
    decryptMessage T c pw salt = match removePadding (mapBlocks (feistelDec T (messageKeys T pw salt)) c) with
      | .ok m => .ok m
      | .error _ => .error .incorrectPasswordOrCorrupted := by
  rw [decryptMessage]
  exact if_neg (by omega)

/-- Decryption undoes encryption under the same password and salt. -/
theorem decryptMessage_encryptMessage (T : Tables) (m : List Byte) (pw : String) (salt : List Byte) :
    decryptMessage T (encryptMessage T m pw salt) pw salt = .ok m := by
  have hlen := length_encryptMessage T m pw salt
  have hpad := length_addPadding m
  have hplain : mapBlocks (feistelDec T (messageKeys T pw salt)) (encryptMessage T m pw salt) = addPadding m := by
    simp only [encryptMessage, mapBlocks_mapBlocks, feistelDec_feistelEnc]
    exact mapBlocks_id _ (by omega)
  rw [decryptMessage_aligned _ _ _ _ (by omega) (by omega), hplain, removePadding_addPadding]

/-- Settles O54: block by block the cipher undoes itself, and the padding comes off. -/
theorem messageRoundTrip : Obligations.MessageRoundTrip := decryptMessage_encryptMessage

/-! ### Envelopes -/

/-- A tag of 32 bytes verifies exactly when it is the tag of the data under the key (R128). -/
theorem verifyTag_toList (T : Tables) (data key : List Byte) (t : Half) :
    verifyTag T data t.toList key = tagMatches (tagFunction T data key) t := by
  have hvec : (Vector.ofFn fun i : Fin 32 => t.toList.getD i.val 0) = t := by
    refine Vector.ext fun i hi => ?_
    rw [Vector.getElem_ofFn, List.getD_eq_getElem _ _ (by simpa using hi), Vector.getElem_toList]
  rw [verifyTag, if_neg (by simp), hvec]

/-- The version-2 path where the tag verifies: the decryption of what follows the tag (R131). -/
theorem openVersion2_verified (T : Tables) (e : List Byte) (pw : String)
    (h : verifyTag T (e.take 37 ++ e.drop 69) ((e.drop 37).take 32) ((e.drop 5).take 32) = true) :
    openVersion2 T e pw = match decryptMessage T (e.drop 69) pw ((e.drop 5).take 32) with
      | .ok m => .ok m
      | .error x => .error (.failed x) := by
  rw [openVersion2]
  exact if_pos h

/-- The version-2 path where the tag does not verify: no decryption (R131, conflict C5). -/
theorem openVersion2_tampered (T : Tables) (e : List Byte) (pw : String)
    (h : verifyTag T (e.take 37 ++ e.drop 69) ((e.drop 37).take 32) ((e.drop 5).take 32) = false) :
    openVersion2 T e pw = .error (.failed .tamperedOrWrongPassword) := by
  rw [openVersion2]
  exact if_neg (by rw [h]; decide)

/-- The version-2 mark takes the version-2 path (R132). -/
theorem openEnvelope_version2 (T : Tables) (e : List Byte) (pw : String) (hlen : 69 ≤ e.length)
    (hmark : e.take 5 = envelopeMark) : openEnvelope T e pw = openVersion2 T e pw := by
  rw [openEnvelope, if_neg (Nat.not_lt.2 hlen), if_pos hmark]

/-- An envelope's parts, one behind the other (R129): the mark, the salt, the tag and the ciphertext. -/
theorem sealMessage_eq (T : Tables) (m : List Byte) (pw : String) (salt : Half) :
    sealMessage T m pw salt = envelopeMark ++ (salt.toList ++ ((tagFunction T
      (envelopeMark ++ salt.toList ++ encryptMessage T m pw salt.toList) salt.toList).toList ++
      encryptMessage T m pw salt.toList)) := by
  simp only [sealMessage, List.append_assoc]

/-- The parts of four byte strings of 5, 32, 32 and any number of bytes written one after another. -/
theorem envelope_parts (mark s t c : List Byte) (hmark : mark.length = 5) (hs : s.length = 32) (ht : t.length = 32) :
    let e := mark ++ (s ++ (t ++ c))
    69 ≤ e.length ∧ e.take 5 = mark ∧ (e.drop 5).take 32 = s ∧ (e.drop 37).take 32 = t ∧ e.drop 69 = c ∧
      e.take 37 = mark ++ s := by
  intro e
  have h5 : e.drop 5 = s ++ (t ++ c) := List.drop_left' hmark
  have h37 : e.drop 37 = t ++ c := by
    rw [show 37 = 5 + 32 from rfl, ← List.drop_drop, h5, List.drop_left' hs]
  have h69 : e.drop 69 = c := by
    rw [show 69 = 37 + 32 from rfl, ← List.drop_drop, h37, List.drop_left' ht]
  refine ⟨?_, List.take_left' hmark, ?_, ?_, h69, ?_⟩
  · simp only [e, List.length_append, hmark, hs, ht]; omega
  · rw [h5, List.take_left' hs]
  · rw [h37, List.take_left' ht]
  · have he : e = (mark ++ s) ++ (t ++ c) := (List.append_assoc ..).symm
    rw [he, List.take_left' (by rw [List.length_append, hmark, hs])]

/-- Settles O55: the envelope's parts are read back where they were put, so the tag is recomputed over the same bytes. -/
theorem envelopeRoundTrip : Obligations.EnvelopeRoundTrip := by
  intro T m pw salt
  obtain ⟨hlen, hmark, hsalt, htag, hbody, hsigned⟩ := envelope_parts envelopeMark salt.toList
    (tagFunction T (envelopeMark ++ salt.toList ++ encryptMessage T m pw salt.toList) salt.toList).toList
    (encryptMessage T m pw salt.toList) rfl (by simp) (by simp)
  rw [← sealMessage_eq] at hlen hmark hsalt htag hbody hsigned
  rw [openEnvelope_version2 _ _ _ hlen hmark, openVersion2_verified, hbody, hsalt, decryptMessage_encryptMessage]
  rw [hsigned, hbody, htag, hsalt, verifyTag_toList, tagMatches_iff]

/-- Settles O56: the length, then the mark, then the tag decide; past the tag the answer is decryptMessage's. -/
theorem envelopeDispatchFollowsTheMark : Obligations.EnvelopeDispatchFollowsTheMark := by
  intro T e pw
  have hbody : (e.drop 69).length = e.length - 69 := List.length_drop
  refine ⟨fun hshort => ?_, fun hlen hlegacy => ?_, fun hlen hnot2 hnot1 => ?_, fun hlen hmark htag => ?_,
    fun hlen hmark htag => ?_⟩
  · rw [openEnvelope, if_pos hshort]
  · have hne : legacyMark ≠ envelopeMark := by decide
    rw [openEnvelope, if_neg (Nat.not_lt.2 hlen), if_neg (by rw [hlegacy]; exact hne)]
    exact if_pos hlegacy
  · rw [openEnvelope, if_neg (Nat.not_lt.2 hlen)]
    exact (if_neg hnot2).trans (if_neg hnot1)
  · rw [openEnvelope_version2 T e pw hlen hmark, openVersion2_tampered T e pw htag]
  · rw [openEnvelope_version2 T e pw hlen hmark, openVersion2_verified T e pw htag]
    refine ⟨rfl, fun hbad => ?_, fun hpos haligned => ?_⟩
    · rw [decryptMessage_misaligned _ _ _ _ (by omega)]
    · rw [decryptMessage_aligned _ _ _ _ (by omega) (by omega)]
      cases removePadding (mapBlocks (feistelDec T (messageKeys T pw ((e.drop 5).take 32))) (e.drop 69)) <;> rfl

end Sys2Proof.Machine

/-! PROOFS. The host's programs put together from their parts: what one access does to the core but for the model's own
inputs and response, how lists of inputs and programs of the host go on from part to part, and the poll loop
(spec/30_encoding.md R80 to R82). -/

namespace Sys2Proof.Machine

open Sys2Proof.Safety

/-! ### The core but for the inputs and the response -/

/-- The state with other inputs to come and another latest answer, which are the model's own (log entries 5 and 6). -/
def withBus (xs : List Input) (r : Option BusResponse) (s : State) : State := { s with inputs := xs, response := r }

@[simp] theorem withBus_errCode (xs : List Input) (r : Option BusResponse) (s : State) :
    (withBus xs r s).errCode = s.errCode := rfl
@[simp] theorem withBus_tagMatch (xs : List Input) (r : Option BusResponse) (s : State) :
    (withBus xs r s).tagMatch = s.tagMatch := rfl
@[simp] theorem withBus_mkey (xs : List Input) (r : Option BusResponse) (s : State) :
    (withBus xs r s).mkey = s.mkey := rfl
@[simp] theorem withBus_rk (xs : List Input) (r : Option BusResponse) (s : State) : (withBus xs r s).rk = s.rk := rfl
@[simp] theorem withBus_seq (xs : List Input) (r : Option BusResponse) (s : State) : (withBus xs r s).seq = s.seq := rfl
@[simp] theorem withBus_latch (xs : List Input) (r : Option BusResponse) (s : State) :
    (withBus xs r s).latch = s.latch := rfl
@[simp] theorem withBus_withBus (xs ys : List Input) (r q : Option BusResponse) (s : State) :
    withBus xs r (withBus ys q s) = withBus xs r s := rfl

/-- A state is itself with its own inputs and response. -/
theorem withBus_self (s : State) : withBus s.inputs s.response s = s := rfl

/-- Neither is in a buffer. -/
@[simp] theorem readWord_withBus (b : Buffer) (i : Nat) (xs : List Input) (r : Option BusResponse) (s : State) :
    readWord b i (withBus xs r s) = readWord b i s := by
  cases b <;> rfl

/-- Neither is part of the invariant. -/
theorem inv_withBus {s : State} (h : Inv s) (xs : List Input) (r : Option BusResponse) : Inv (withBus xs r s) :=
  inv_congr s _ h rfl rfl rfl rfl rfl rfl

/-- A word is written to a buffer whatever they are. -/
theorem writeWord_withBus (b : Buffer) (i : Nat) (v : Word) (xs : List Input) (r : Option BusResponse) (s : State) :
    writeWord b i v (withBus xs r s) = withBus xs r (writeWord b i v s) := by
  cases b <;> rfl

/-- A command completes whatever they are. -/
theorem exec_withBus {i : Instr} {s u : State} (h : exec i s = .next u) (xs : List Input) (r : Option BusResponse) :
    exec i (withBus xs r s) = .next (withBus xs r u) := by
  refine (exec_congr h s.errCode s.irqEn s.irqStatus xs r s.draws).trans ?_
  rw [exec_frame i s u h]
  rfl

/-! ### The bits of STATUS -/

/-- Bit 0 of STATUS is BUSY, bit 1 is ERR and bit 8 is TAG_MATCH (R27 to R29). -/
theorem statusWord_bits (s : State) : (statusWord s).getLsbD 0 = statusBusy s ∧ (statusWord s).getLsbD 1 = statusErr s ∧
    (statusWord s).getLsbD 8 = s.tagMatch := by
  rw [statusWord, statusErr, statusBusy]
  cases s.tagMatch <;> cases s.seq <;> cases s.errCode <;> decide

/-- STATUS of a busy core has bit 0 set. -/
theorem statusWord_busy {s : State} (hs : s.seq = .busy) : (statusWord s).getLsbD 0 = true := by
  rw [(statusWord_bits s).1, statusBusy, hs]
  rfl

/-- STATUS of an idle core has bit 0 clear. -/
theorem statusWord_idle {s : State} (hs : s.seq = .idle) : (statusWord s).getLsbD 0 = false := by
  rw [(statusWord_bits s).1, statusBusy, hs]
  rfl

/-- Bit 1 of STATUS is set exactly where an error is recorded. -/
theorem statusWord_err_iff (s : State) : (statusWord s).getLsbD 1 = true ↔ s.errCode ≠ .none := by
  rw [(statusWord_bits s).2.1, statusErr, decide_eq_true_iff]

/-! ### One access -/

/-- The access, whatever the latest answer was, is answered with v and takes the core from s to t. -/
def Answers (x : Access) (s : State) (v : BusResponse) (t : State) : Prop :=
  ∀ r, step (withBus [.access x] r s) = .next (withBus [] (some v) t)

/-- A write to a word of a buffer but TAG, while idle. -/
theorem answers_wr_word {s : State} {b : Buffer} {m : Nat} (hs : s.seq = .idle) (hb : b ≠ .tag)
    (hm : 4 * m < bufferSize b) (v : Word) :
    Answers (wrAccess (bufferBase b + 4 * m) v) s .done (writeWord b (4 * m) v s) := fun r =>
  (step_wr_word_idle (withBus [wr (bufferBase b + 4 * m) v] r s) b m v [] hs hb hm rfl).trans
    (congrArg (fun u => Host.Outcome.next (respond .done u)) (writeWord_withBus b (4 * m) v [] r s))

/-- A read of a word of a buffer, while idle. -/
theorem answers_rd_word {s : State} {b : Buffer} {m : Nat} (hs : s.seq = .idle) (hm : 4 * m < bufferSize b) :
    Answers (rdAccess (bufferBase b + 4 * m)) s (.value (readWord b (4 * m) s)) s := fun r => by
  have hstep := step_rd_word_idle (withBus [rd (bufferBase b + 4 * m)] r s) b m [] hs hm rfl
  rwa [readWord_withBus] at hstep

/-- A read of STATUS, idle or busy. -/
theorem answers_rd_status (s : State) : Answers (rdAccess (regOffset .status)) s (.value (statusWord s)) s := fun r =>
  step_rd_reg (withBus [rd (regOffset .status)] r s) .status [] rfl

/-- ITER, MSG_LEN and KEY_LEN. -/
def IsOperand (reg : Reg) : Prop := reg = .iter ∨ reg = .msgLen ∨ reg = .keyLen

/-- A write to one of the three registers that hold an operand, while idle. -/
theorem answers_wr_operand {s : State} {reg : Reg} (hs : s.seq = .idle) (hreg : IsOperand reg)
    (v : Word) : Answers (wrAccess (regOffset reg) v) s .done (writeReg reg v s) := fun r => by
  have hstep := step_wr_reg_idle (withBus [wr (regOffset reg) v] r s) reg v [] hs rfl
  rcases hreg with rfl | rfl | rfl <;> exact hstep

/-- The state once command i is accepted (R83). -/
def accepted (i : Instr) (s : State) : State := { s with tagMatch := false, latch := encode i, seq := .busy }

/-- A command whose lengths fit, written to CMD while idle, is accepted. -/
theorem answers_cmd {s : State} {i : Instr} (hs : s.seq = .idle) (hlen : lenOk i s = true) :
    Answers (wrAccess (regOffset .cmd) (encode i)) s .done (accepted i s) := fun r => by
  have hstep := step_wr_reg_idle (withBus [cmd i] r s) .cmd (encode i) [] hs rfl
  exact hstep.trans (congrArg (fun u => Host.Outcome.next (respond .done u)) 
    (accept_of_lenOk _ i (withBus [] r s) (decode_encode i) hlen))

/-- Command i, accepted in s, completes in u. -/
def Completes (i : Instr) (s u : State) : Prop := exec i (accepted i s) = .next u

/-- A command that completes had lengths that fit. -/
theorem Completes.lenOk {i : Instr} {s u : State} (h : Completes i s u) : lenOk i s = true :=
  exec_lenOk i (accepted i s) u h

/-- A command's completion leaves the core idle, with ERRCODE as it was before the command. -/
theorem Completes.idle_errCode {i : Instr} {s u : State} (h : Completes i s u) :
    u.seq = .idle ∧ u.errCode = s.errCode :=
  ⟨(exec_completed i _ u h).idle, (exec_completed i _ u h).control.errCode⟩

/-! ### Lists of inputs -/

/-- The list of inputs takes the core from s to t, and its reads return ws. -/
def Runs (l : List Input) (s t : State) (ws : List Word) : Prop :=
  ∀ xs r, ∃ ys q, runInputs l (withBus xs r s) = .next (withBus ys q t) ∧ wordsRead l (withBus xs r s) = ws

/-- Two lists one after the other. -/
theorem Runs.append {l m : List Input} {s t u : State} {vs ws : List Word} (h : Runs l s t vs) (h' : Runs m t u ws) :
    Runs (l ++ m) s u (vs ++ ws) := by
  intro xs r
  obtain ⟨ys, q, hrun, hread⟩ := h xs r
  obtain ⟨zs, p, hrun', hread'⟩ := h' ys q
  exact ⟨zs, p, (runInputs_append _ _ _ _ hrun).trans hrun', by rw [wordsRead_append _ _ _ _ hrun, hread, hread']⟩

/-- No input. -/
theorem runs_nil (s : State) : Runs [] s s [] := fun xs r => ⟨xs, r, rfl, rfl⟩

/-- A write that is answered. -/
theorem Answers.runs_wr {off : Nat} {v : Word} {s t : State} (h : Answers (wrAccess off v) s .done t) :
    Runs [wr off v] s t [] := by
  intro xs r
  have hstep : step { withBus xs r s with inputs := [wr off v] } = .next (withBus [] (some .done) t) := h r
  refine ⟨[], some .done, runInputs_cons hstep, ?_⟩
  rw [wordsRead, hstep]
  rfl

/-- A read that is answered with a word. -/
theorem Answers.runs_rd {off : Nat} {w : Word} {s t : State} (h : Answers (rdAccess off) s (.value w) t) :
    Runs [rd off] s t [w] := by
  intro xs r
  have hstep : step { withBus xs r s with inputs := [rd off] } = .next (withBus [] (some (.value w)) t) := h r
  refine ⟨[], some (.value w), runInputs_cons hstep, ?_⟩
  rw [wordsRead, hstep]
  rfl

/-- The core's turn while a command is in flight. -/
theorem runs_coreTurn {i : Instr} {s u : State} (h : Completes i s u) : Runs [.coreTurn] (accepted i s) u [] := by
  intro xs r
  have hrun : runInputs [.coreTurn] (withBus xs r (accepted i s)) = .next (withBus [] r u) :=
    runInputs_coreTurn_busy rfl (decode_encode i) (exec_withBus h [] r)
  refine ⟨[], r, hrun, ?_⟩
  rw [wordsRead]
  split <;> rfl

/-- A number of reads of STATUS change nothing, and each returns it. -/
theorem runs_polls (s : State) (polls : Nat) :
    Runs (List.replicate polls (rd (regOffset .status))) s s (List.replicate polls (statusWord s)) := by
  induction polls with
  | zero => exact runs_nil s
  | succ polls ih => exact (answers_rd_status s).runs_rd.append ih

/-- A command accepted from an idle core and completed after a number of polls: each poll finds it busy, and the last read
finds it complete (R82). -/
theorem Completes.runs {i : Instr} {s u : State} (h : Completes i s u) (hs : s.seq = .idle) (polls : Nat) :
    Runs (runCommand i polls) s u (List.replicate polls (statusWord (accepted i s)) ++ [statusWord u]) :=
  (answers_cmd hs h.lenOk).runs_wr.append
    ((runs_polls (accepted i s) polls).append ((runs_coreTurn h).append (answers_rd_status u).runs_rd))

/-! ### Programs of the host -/

section Programs

variable {α β : Type} {out : Prop} {turns : Turns}

/-- The program ends with a, the core taken from s to t; or a wait of it runs out of fuel, and `out` holds. -/
def Leads (out : Prop) (turns : Turns) (p : HostProgram α) (s t : State) (a : α) : Prop :=
  ∀ xs r n, (∃ ys q k, p turns ⟨withBus xs r s, n⟩ = .ok (a, ⟨withBus ys q t, k⟩)) ∨
    (p turns ⟨withBus xs r s, n⟩ = .error .outOfFuel ∧ out)

/-- The program stops, for a reason R holds of; or a wait of it runs out of fuel, and `out` holds. -/
def Stops (out : Prop) (turns : Turns) (p : HostProgram α) (s : State) (R : HostStop → Prop) : Prop :=
  ∀ xs r n, ∃ e, p turns ⟨withBus xs r s, n⟩ = .error e ∧ (R e ∨ (e = .outOfFuel ∧ out))

/-- One program and then the next. -/
theorem Leads.andThen {p : HostProgram α} {f : α → HostProgram β} {s t u : State} {a : α} {b : β}
    (h : Leads out turns p s t a) (h' : Leads out turns (f a) t u b) : Leads out turns (andThen p f) s u b := by
  intro xs r n
  rcases h xs r n with ⟨ys, q, k, hp⟩ | ⟨hp, hout⟩
  · rw [andThen_ok hp]
    exact h' ys q k
  · exact .inr ⟨andThen_error hp, hout⟩

/-- One program and then one that stops. -/
theorem Leads.andThen_stops {p : HostProgram α} {f : α → HostProgram β} {s t : State} {a : α} {R : HostStop → Prop}
    (h : Leads out turns p s t a) (h' : Stops out turns (f a) t R) : Stops out turns (Machine.andThen p f) s R := by
  intro xs r n
  rcases h xs r n with ⟨ys, q, k, hp⟩ | ⟨hp, hout⟩
  · rw [andThen_ok hp]
    exact h' ys q k
  · exact ⟨_, andThen_error hp, .inr ⟨rfl, hout⟩⟩

/-- A program whose first part stops. -/
theorem Stops.andThen {p : HostProgram α} {f : α → HostProgram β} {s : State} {R : HostStop → Prop}
    (h : Stops out turns p s R) : Stops out turns (Machine.andThen p f) s R := by
  intro xs r n
  obtain ⟨e, hp, he⟩ := h xs r n
  exact ⟨e, andThen_error hp, he⟩

/-- A result and nothing more. -/
theorem leads_finish (s : State) (a : α) : Leads out turns (finish a) s s a := fun xs r n => .inl ⟨xs, r, n, rfl⟩

/-- A result and nothing more, after a program. -/
theorem Leads.finish {p : HostProgram α} {s t : State} {a : α} (f : α → β) (h : Leads out turns p s t a) :
    Leads out turns (Machine.andThen p fun x => Machine.finish (f x)) s t (f a) :=
  h.andThen (leads_finish t (f a))

/-- A program that leads to a result ends with what holds of the result. -/
theorem Leads.endsWith {fuel : Nat} {p : HostProgram α} {s t : State} {a : α} {P : α → Session → Prop}
    (h : Leads (¬ PromptTurns fuel turns) turns p s t a) (hP : ∀ xs r n, P a ⟨withBus xs r t, n⟩) (n : Nat) :
    EndsWith fuel turns P (p turns ⟨s, n⟩) := by
  rcases h s.inputs s.response n with ⟨ys, q, k, hp⟩ | ⟨hp, hout⟩
  · exact (congrArg (EndsWith fuel turns P) hp).mpr (hP ys q k)
  · exact (congrArg (EndsWith fuel turns P) hp).mpr hout

/-! ### Single accesses of a program -/

/-- A write to an idle core that is answered. -/
theorem Answers.leads_wr {off : Nat} {v : Word} {s t : State} (h : Answers (wrAccess off v) s .done t)
    (hs : s.seq = .idle) : Leads out turns (hostWrite off v) s t () :=
  fun _ r n => .inl ⟨[], some .done, n + 1, hostWrite_idle hs (h r) rfl⟩

/-- A write to an idle core that the bus answers with an error. -/
theorem Answers.stops_wr {off a : Nat} {v : Word} {s t : State} (h : Answers (wrAccess off v) s (.busError a) t)
    (hs : s.seq = .idle) : Stops out turns (hostWrite off v) s (· = .busError a) := by
  intro xs r n
  refine ⟨.busError a, ?_, .inl rfl⟩
  rw [hostWrite, andThen_ok (makeAccess_idle (s := withBus xs r s) hs (h r))]
  rfl

/-- A read of an idle core that is answered with a word. -/
theorem Answers.leads_rd {off : Nat} {w : Word} {s t : State} (h : Answers (rdAccess off) s (.value w) t)
    (hs : s.seq = .idle) : Leads out turns (hostRead off) s t w :=
  fun _ r n => .inl ⟨[], some (.value w), n + 1, hostRead_idle hs (h r) rfl⟩

/-! ### The poll loop -/

/-- A poll of an idle core ends the wait: bit 0 of the word read is 0. -/
theorem hostWait_idle (fuel n : Nat) (s : State) (hs : s.seq = .idle) :
    hostWait (fuel + 1) turns ⟨s, n⟩ =
      .ok (statusWord s, ⟨withBus [] (some (.value (statusWord s))) s, n + 1⟩) := by
  rw [hostWait, andThen_ok (hostRead_idle hs (answers_rd_status s s.response) rfl), statusWord_idle hs]
  rfl

/-- A poll that finds the core busy goes on with one unit of fuel less. -/
theorem hostWait_busy (fuel n : Nat) (s : State) (hs : s.seq = .busy) (hturn : turns n = false) :
    hostWait (fuel + 1) turns ⟨s, n⟩ =
      hostWait fuel turns ⟨withBus [] (some (.value (statusWord s))) s, n + 1⟩ := by
  have hread : hostRead (regOffset .status) turns ⟨s, n⟩ =
      .ok (statusWord s, ⟨withBus [] (some (.value (statusWord s))) s, n + 1⟩) :=
    hostRead_status (u := s) (by rw [hturn]; rfl)
  rw [hostWait, andThen_ok hread, statusWord_busy hs]
  rfl

/-- A poll just before which the core has its turn finds the command complete and ends the wait. -/
theorem hostWait_turn (fuel n : Nat) {i : Instr} {s u : State} (h : Completes i s u) (xs : List Input)
    (r : Option BusResponse) (hturn : turns n = true) :
    hostWait (fuel + 1) turns ⟨withBus xs r (accepted i s), n⟩ =
      .ok (statusWord u, ⟨withBus [] (some (.value (statusWord u))) u, n + 1⟩) := by
  have hrun : runInputs [.coreTurn] (withBus xs r (accepted i s)) = .next (withBus [] r u) :=
    runInputs_coreTurn_busy rfl (decode_encode i) (exec_withBus h [] r)
  have hread : hostRead (regOffset .status) turns ⟨withBus xs r (accepted i s), n⟩ =
      .ok (statusWord u, ⟨withBus [] (some (.value (statusWord u))) u, n + 1⟩) :=
    hostRead_status (u := withBus [] r u) (by rw [hturn]; exact hrun)
  rw [hostWait, andThen_ok hread, statusWord_idle h.idle_errCode.1]
  rfl

/-- A wait for a command in flight ends with its completion, or the core had no turn before any of the reads. -/
theorem hostWait_cases {i : Instr} {s u : State} (h : Completes i s u) (fuel n : Nat) (xs : List Input)
    (r : Option BusResponse) :
    (∃ k, hostWait fuel turns ⟨withBus xs r (accepted i s), n⟩ =
      .ok (statusWord u, ⟨withBus [] (some (.value (statusWord u))) u, k⟩)) ∨
    (hostWait fuel turns ⟨withBus xs r (accepted i s), n⟩ = .error .outOfFuel ∧ ∀ k < fuel, turns (n + k) = false) := by
  induction fuel generalizing n xs r with
  | zero => exact .inr ⟨rfl, fun k hk => absurd hk (Nat.not_lt_zero k)⟩
  | succ fuel ih =>
    cases hturn : turns n with
    | true => exact .inl ⟨n + 1, hostWait_turn fuel n h xs r hturn⟩
    | false =>
      rw [hostWait_busy fuel n _ rfl hturn]
      refine (ih (n + 1) _ _).imp_right fun ⟨hp, hk⟩ => ⟨hp, fun k hlt => ?_⟩
      cases k with
      | zero => exact hturn
      | succ k =>
        have := hk k (by omega)
        rwa [Nat.add_right_comm, Nat.add_assoc] at this

/-- `run M` of a command that completes: it ends with STATUS of the completed core, or it ran out of fuel under turns that
are not prompt. -/
theorem hostRun_cases {i : Instr} {s u : State} (h : Completes i s u) (hs : s.seq = .idle) (fuel n : Nat)
    (xs : List Input) (r : Option BusResponse) :
    (∃ k, hostRun fuel i turns ⟨withBus xs r s, n⟩ =
      .ok (statusWord u, ⟨withBus [] (some (.value (statusWord u))) u, k⟩)) ∨
    (hostRun fuel i turns ⟨withBus xs r s, n⟩ = .error .outOfFuel ∧ ¬ PromptTurns fuel turns) := by
  have hcmd : hostWrite (regOffset .cmd) (encode i) turns ⟨withBus xs r s, n⟩ =
      .ok ((), ⟨withBus [] (some .done) (accepted i s), n + 1⟩) := hostWrite_idle hs (answers_cmd hs h.lenOk r) rfl
  rw [hostRun, andThen_ok hcmd]
  refine (hostWait_cases h fuel (n + 1) _ _).imp_right fun ⟨hp, hk⟩ => ⟨hp, fun hprompt => ?_⟩
  obtain ⟨k, hlt, hturn⟩ := hprompt (n + 1)
  rw [hk k hlt] at hturn
  cases hturn

/-- `run M` as a part of a program. -/
theorem Completes.leads {i : Instr} {s u : State} (h : Completes i s u) (hs : s.seq = .idle) (fuel : Nat) :
    Leads (¬ PromptTurns fuel turns) turns (hostRun fuel i) s u (statusWord u) := fun xs r n =>
  (hostRun_cases h hs fuel n xs r).imp_left fun ⟨k, hp⟩ => ⟨_, _, k, hp⟩

/-- `run M` with R134's check, where no error is recorded. -/
theorem Completes.leads_checked {i : Instr} {s u : State} (h : Completes i s u) (hs : s.seq = .idle)
    (herr : s.errCode = .none) (fuel : Nat) :
    Leads (¬ PromptTurns fuel turns) turns (hostRunChecked fuel i) s u () := by
  have hbit : ¬ (statusWord u).getLsbD 1 = true := by
    rw [statusWord_err_iff, h.idle_errCode.2]
    exact fun hne => hne herr
  refine (h.leads hs fuel).andThen ?_
  rw [if_neg hbit]
  exact leads_finish u ()

/-- `run M` with R134's check, where an error is recorded: it ends at the check. -/
theorem Completes.stops_checked {i : Instr} {s u : State} (h : Completes i s u) (hs : s.seq = .idle)
    (herr : s.errCode ≠ .none) (fuel : Nat) :
    Stops (¬ PromptTurns fuel turns) turns (hostRunChecked fuel i) s
      (fun e => ∃ status, e = .statusErr status ∧ status.getLsbD 1 = true) := by
  have hbit : (statusWord u).getLsbD 1 = true := by
    rw [statusWord_err_iff, h.idle_errCode.2]
    exact herr
  refine (h.leads hs fuel).andThen_stops ?_
  rw [if_pos hbit]
  exact fun xs r n => ⟨_, rfl, .inl ⟨_, rfl, hbit⟩⟩

end Programs

/-- Settles O57: the list of accesses by its parts; the loop by its one read, and for the whole run by induction on the
fuel. -/
theorem waitPollsUntilCompletion : Obligations.WaitPollsUntilCompletion := by
  have completes {s : State} {i : Instr} (hlen : lenOk i s = true) : ∃ u, Completes i s u :=
    exec_completes i (accepted i s) hlen
  refine ⟨fun s i polls _ hs hlen => ?_, fun s fuel n turns => ⟨fun hs => ?_, fun hs hturn => ?_⟩,
    fun s i fuel n turns hs hlen => ?_⟩
  · obtain ⟨u, hu⟩ := completes hlen
    obtain ⟨ys, q, hrun, hread⟩ := hu.runs hs polls s.inputs s.response
    refine ⟨⟨_, hrun, hu.idle_errCode.1⟩, ?_⟩
    rw [withBus_self] at hread
    rw [hread, List.map_append, List.map_replicate, statusWord_busy rfl, List.map_singleton,
      statusWord_idle hu.idle_errCode.1]
  · exact hostWait_idle fuel n s hs
  · exact hostWait_busy fuel n s hs hturn
  · obtain ⟨u, hu⟩ := completes hlen
    rcases hostRun_cases (turns := turns) hu hs fuel n s.inputs s.response with ⟨k, hp⟩ | ⟨hp, hout⟩
    · rw [withBus_self] at hp
      rw [hp]
      exact ⟨statusWord_idle hu.idle_errCode.1, u, hu, rfl⟩
    · rw [withBus_self] at hp
      rw [hp]
      exact hout

end Sys2Proof.Machine

/-! PROOFS. The parts of the host's sequences (spec/48_host_facade.md R128, R134): buffers loaded and read back word by
word, the operand registers, and what the commands between them compute from what was loaded. -/

namespace Sys2Proof.Machine

open Sys2Proof.Safety

/-! ### Bytes loaded into a buffer -/

/-- Word m of a byte string, with zero bytes past its end (R82). -/
def byteWord (bytes : List Byte) (m : Nat) : Word :=
  be32 (bytes.getD (4 * m) 0) (bytes.getD (4 * m + 1) 0) (bytes.getD (4 * m + 2) 0) (bytes.getD (4 * m + 3) 0)

/-- The first n words of a byte string written to a buffer. -/
def loadWords (b : Buffer) (bytes : List Byte) (s : State) : Nat → State
  | 0 => s
  | n + 1 => writeWord b (4 * n) (byteWord bytes n) (loadWords b bytes s n)

/-- A byte string written to a buffer from its start, as `wrbuf` does (R82). -/
def loadBytes (b : Buffer) (bytes : List Byte) (s : State) : State := loadWords b bytes s ((bytes.length + 3) / 4)

/-- The accesses of `wrbuf X, bytes`: word m at the m-th word of the buffer. -/
theorem wrbufWords_eq (b : Buffer) (bytes : List Byte) : wrbufWords b 0 bytes =
    (List.range ((bytes.length + 3) / 4)).map fun m => (bufferBase b + 4 * m, byteWord bytes m) := rfl

/-- What no word written to the buffer changes is as before the load. -/
theorem loadWords_field {α : Type} (f : State → α) (b : Buffer) (hf : ∀ i v s, f (writeWord b i v s) = f s)
    (bytes : List Byte) (s : State) (n : Nat) : f (loadWords b bytes s n) = f s := by
  induction n with
  | zero => rfl
  | succ n ih => rw [loadWords, hf, ih]

/-- The same of a whole string. -/
theorem loadBytes_field {α : Type} (f : State → α) (b : Buffer) (hf : ∀ i v s, f (writeWord b i v s) = f s)
    (bytes : List Byte) (s : State) : f (loadBytes b bytes s) = f s := loadWords_field f b hf bytes s _

/-- What no byte written to the buffer changes is as before the load. -/
theorem loadBytes_of_writeByte {α : Type} (f : State → α) (b : Buffer) (hf : ∀ i v s, f (writeByte b i v s) = f s)
    (bytes : List Byte) (s : State) : f (loadBytes b bytes s) = f s :=
  loadBytes_field f b (fun i v s => by simp only [writeWord, hf]) bytes s

/-- A load of another buffer leaves MSGBUF. -/
theorem loadBytes_msgbuf {b : Buffer} (hb : b ≠ .msgbuf) (bytes : List Byte) (s : State) :
    (loadBytes b bytes s).msgbuf = s.msgbuf := by
  refine loadBytes_of_writeByte State.msgbuf b (fun i v s => ?_) bytes s
  cases b with
  | msgbuf => exact absurd rfl hb
  | data | mkey | tag | exptag | rk => rfl

/-- A load of another buffer leaves MKEY. -/
theorem loadBytes_mkey {b : Buffer} (hb : b ≠ .mkey) (bytes : List Byte) (s : State) :
    (loadBytes b bytes s).mkey = s.mkey := by
  refine loadBytes_of_writeByte State.mkey b (fun i v s => ?_) bytes s
  cases b with
  | mkey => exact absurd rfl hb
  | data | tag | exptag | rk | msgbuf => rfl

/-- A load of another buffer leaves RK. -/
theorem loadBytes_rk {b : Buffer} (hb : b ≠ .rk) (bytes : List Byte) (s : State) :
    (loadBytes b bytes s).rk = s.rk := by
  refine loadBytes_of_writeByte State.rk b (fun i v s => ?_) bytes s
  cases b with
  | rk => exact absurd rfl hb
  | data | mkey | tag | exptag | msgbuf => rfl

/-- A load of another buffer leaves EXPTAG. -/
theorem loadBytes_exptag_of_ne {b : Buffer} (hb : b ≠ .exptag) (bytes : List Byte) (s : State) :
    (loadBytes b bytes s).exptag = s.exptag := by
  refine loadBytes_of_writeByte State.exptag b (fun i v s => ?_) bytes s
  cases b with
  | exptag => exact absurd rfl hb
  | data | mkey | tag | rk | msgbuf => rfl

/-- The buffers are whole words. -/
theorem bufferSize_mod (b : Buffer) : bufferSize b % 4 = 0 := by
  cases b with
  | msgbuf => exact msgBufBytes_mod
  | data | mkey | tag | exptag | rk => rfl

/-- A byte string that fits a buffer does so in whole words. -/
theorem words_fit {b : Buffer} {bytes : List Byte} (h : bytes.length ≤ bufferSize b) :
    4 * ((bytes.length + 3) / 4) ≤ bufferSize b := by
  have := bufferSize_mod b
  omega

/-- A load keeps the invariant of an idle core. -/
theorem loadWords_inv {b : Buffer} {s : State} (bytes : List Byte) (h : Inv s) (hs : s.seq = .idle) (n : Nat)
    (hn : 4 * n ≤ bufferSize b) : Inv (loadWords b bytes s n) := by
  induction n with
  | zero => exact h
  | succ n ih =>
    have hinv := ih (by omega)
    have hidle : (loadWords b bytes s n).seq = .idle := (loadWords_field State.seq b (writeWord_seq b) bytes s n).trans hs
    exact inv_of_idle _ (writeWord_wf _ _ _ _ hinv.msgbufCanonical)
      (writeWord_inside _ _ _ _ (by omega) hinv.msgbufInside) ((writeWord_seq _ _ _ _).trans hidle)

/-- A byte of the buffer after a load is the byte of the string. -/
theorem readByte_loadWords {b : Buffer} {s : State} (bytes : List Byte) (h : Memory.wf s.msgbuf) (n j : Nat)
    (hn : 4 * n ≤ bufferSize b) (hj : j < 4 * n) : readByte b j (loadWords b bytes s n) = bytes.getD j 0 := by
  have hwf (n : Nat) : Memory.wf (loadWords b bytes s n).msgbuf := by
    induction n with
    | zero => exact h
    | succ n ih => exact writeWord_wf _ _ _ _ ih
  induction n with
  | zero => omega
  | succ n ih =>
    rw [loadWords, readByte_writeWord b b (4 * n) j _ _ (hwf n) (by omega)]
    by_cases hlt : j < 4 * n
    · rw [if_neg (by omega), ih (by omega) hlt]
    · have hword := be32_extractLsb' (fun k => bytes.getD (4 * n + k) 0) (j - 4 * n) (by omega)
      simp only [Nat.add_sub_cancel' (Nat.not_lt.1 hlt)] at hword
      rw [if_pos ⟨rfl, by omega, by omega⟩]
      exact hword

/-- A load that fits, byte by byte. -/
theorem readByte_loadBytes {b : Buffer} {bytes : List Byte} {s : State} (h : Memory.wf s.msgbuf)
    (hfit : bytes.length ≤ bufferSize b) (j : Nat) (hj : j < bytes.length) :
    readByte b j (loadBytes b bytes s) = bytes.getD j 0 :=
  readByte_loadWords bytes h _ j (words_fit hfit) (by omega)

/-- A load that fits keeps the invariant of an idle core. -/
theorem loadBytes_inv {b : Buffer} {bytes : List Byte} {s : State} (h : Inv s) (hs : s.seq = .idle)
    (hfit : bytes.length ≤ bufferSize b) : Inv (loadBytes b bytes s) := loadWords_inv bytes h hs _ (words_fit hfit)

/-- A load leaves the core idle, and ERRCODE. -/
theorem loadBytes_idle_errCode {b : Buffer} {bytes : List Byte} {s : State} (hs : s.seq = .idle) :
    (loadBytes b bytes s).seq = .idle ∧ (loadBytes b bytes s).errCode = s.errCode :=
  ⟨(loadBytes_field State.seq b (writeWord_seq b) bytes s).trans hs,
    loadBytes_field State.errCode b (writeWord_errCode b) bytes s⟩

/-- A block loaded into DATA is DATA. -/
theorem loadBytes_data (q : Block) (s : State) (h : Memory.wf s.msgbuf) : (loadBytes .data q.toList s).data = q := by
  refine Vector.ext fun j hj => ?_
  have hbyte := readByte_loadBytes (b := .data) (bytes := q.toList) h (by simp [bufferSize]) j (by simpa using hj)
  rw [readByte, byteOf_lt _ _ hj, List.getD_eq_getElem _ _ (by simpa using hj), Vector.getElem_toList] at hbyte
  exact hbyte

/-- A tag of 32 bytes loaded into EXPTAG is EXPTAG. -/
theorem loadBytes_exptag (t : List Byte) (ht : t.length = 32) (s : State) (h : Memory.wf s.msgbuf) :
    (loadBytes .exptag t s).exptag = Vector.ofFn fun i : Fin 32 => t.getD i.val 0 := by
  refine Vector.ext fun j hj => ?_
  have hbyte := readByte_loadBytes (b := .exptag) h (Nat.le_of_eq ht) j (by omega)
  rw [readByte, byteOf_lt _ _ hj] at hbyte
  rw [hbyte, Vector.getElem_ofFn]

/-- The slice of MSGBUF that a string lies in. -/
theorem msgSlice_of_bytes {s : State} {bytes : List Byte} (start len : Nat) (hend : start + len ≤ bytes.length)
    (h : ∀ j < bytes.length, readByte .msgbuf j s = bytes.getD j 0) :
    msgSlice start len s = (bytes.drop start).take len := by
  rw [msgSlice_eq]
  refine List.ext_getElem (by simp; omega) fun j hj hj' => ?_
  have hlt : j < len := by simpa using hj
  rw [List.getElem_map, List.getElem_range, h _ (by omega), List.getD_eq_getElem _ _ (by omega),
    List.getElem_take, List.getElem_drop]

/-! ### Buffers loaded and read on the bus -/

/-- Every word but the last of a load, then the last. -/
theorem loadPairs_succ (b : Buffer) (bytes : List Byte) (n : Nat) :
    ((List.range (n + 1)).map fun m => (bufferBase b + 4 * m, byteWord bytes m)) =
      ((List.range n).map fun m => (bufferBase b + 4 * m, byteWord bytes m)) ++
        [(bufferBase b + 4 * n, byteWord bytes n)] := by
  rw [List.range_succ, List.map_append, List.map_singleton]

/-- The accesses of a load as a list of inputs. -/
theorem runs_loadWords {b : Buffer} (bytes : List Byte) {s : State} (hs : s.seq = .idle) (hb : b ≠ .tag) (n : Nat)
    (hn : 4 * n ≤ bufferSize b) :
    Runs (((List.range n).map fun m => (bufferBase b + 4 * m, byteWord bytes m)).map fun p => wr p.1 p.2) s
      (loadWords b bytes s n) [] := by
  induction n with
  | zero => exact runs_nil s
  | succ n ih =>
    have hidle : (loadWords b bytes s n).seq = .idle := (loadWords_field State.seq b (writeWord_seq b) bytes s n).trans hs
    rw [loadPairs_succ, List.map_append]
    exact (ih (by omega)).append (answers_wr_word hidle hb (by omega) _).runs_wr

/-- `wrbuf` of a string that fits, as a list of inputs. -/
theorem runs_wrbuf {b : Buffer} {bytes : List Byte} {s : State} (hs : s.seq = .idle) (hb : b ≠ .tag)
    (hfit : bytes.length ≤ bufferSize b) : Runs (wrbuf b 0 bytes) s (loadBytes b bytes s) [] :=
  runs_loadWords bytes hs hb _ (words_fit hfit)

/-- Reads that are answered with f of their offsets and change nothing, as a list of inputs. -/
theorem runs_reads {s : State} {f : Nat → Word} (offs : List Nat)
    (h : ∀ off ∈ offs, Answers (rdAccess off) s (.value (f off)) s) : Runs (offs.map rd) s s (offs.map f) := by
  induction offs with
  | nil => exact runs_nil s
  | cons off offs ih =>
    exact (h off (by simp)).runs_rd.append (ih fun o ho => h o (List.mem_cons_of_mem _ ho))

/-- The words `rdbuf` reads from an idle core, and that it reads them. -/
theorem answers_rdbuf {b : Buffer} {s : State} (hs : s.seq = .idle) (k : Nat) (hk : 4 * k ≤ bufferSize b) :
    ∀ off ∈ rdbufOffsets b 0 k, Answers (rdAccess off) s (.value (readWord b (off - bufferBase b) s)) s := by
  intro off hoff
  obtain ⟨m, hm, rfl⟩ := List.mem_map.1 hoff
  have hlt := List.mem_range.1 hm
  rw [Nat.add_zero, Nat.add_sub_cancel_left]
  exact answers_rd_word hs (by omega)

/-- The words of a buffer in order. -/
theorem rdbuf_words (b : Buffer) (s : State) (k : Nat) :
    ((rdbufOffsets b 0 k).map fun off => readWord b (off - bufferBase b) s) =
      (List.range k).map fun m => readWord b (4 * m) s := by
  rw [rdbufOffsets, List.map_map]
  refine List.map_congr_left fun m _ => ?_
  rw [Function.comp_apply, Nat.add_zero, Nat.add_sub_cancel_left]

/-- The four bytes of a buffer's word. -/
theorem bytesBe_readWord (b : Buffer) (i : Nat) (s : State) : (bytesBe (readWord b i s)).toList =
    [readByte b i s, readByte b (i + 1) s, readByte b (i + 2) s, readByte b (i + 3) s] := by
  have hlist (w : Word) : (bytesBe w).toList =
      [w.extractLsb' 24 8, w.extractLsb' 16 8, w.extractLsb' 8 8, w.extractLsb' 0 8] := rfl
  obtain ⟨h0, h1, h2, h3⟩ :=
    be32_extract (readByte b i s) (readByte b (i + 1) s) (readByte b (i + 2) s) (readByte b (i + 3) s)
  simp only [hlist, readWord, h0, h1, h2, h3]

/-- The bytes of a buffer's words are its bytes. -/
theorem bytesOfWords_readWords (b : Buffer) (s : State) (k : Nat) :
    bytesOfWords ((List.range k).map fun m => readWord b (4 * m) s) =
      (List.range (4 * k)).map fun j => readByte b j s := by
  induction k with
  | zero => rfl
  | succ k ih =>
    rw [bytesOfWords] at ih ⊢
    rw [List.range_succ, List.map_append, List.flatMap_append, ih, List.map_singleton, List.flatMap_singleton,
      bytesBe_readWord, show 4 * (k + 1) = 4 * k + 1 + 1 + 1 + 1 by omega, List.range_succ, List.range_succ,
      List.range_succ, List.range_succ]
    simp

/-- The bytes of a fixed buffer in order are the buffer. -/
theorem map_byteOf {n : Nat} (v : Vector Byte n) : ((List.range n).map fun j => byteOf v j) = v.toList := by
  refine List.ext_getElem (by simp) fun j hj hj' => ?_
  rw [List.getElem_map, List.getElem_range, byteOf_lt _ _ (by simpa using hj), Vector.getElem_toList]

/-- `rdbuf` of an idle core, as a list of inputs. -/
theorem runs_rdbuf {b : Buffer} {s : State} (hs : s.seq = .idle) (k : Nat) (hk : 4 * k ≤ bufferSize b) :
    Runs (rdbuf b 0 k) s s ((List.range k).map fun m => readWord b (4 * m) s) := by
  have h := runs_reads _ (answers_rdbuf hs k hk)
  rwa [rdbuf_words] at h

/-- DATA read word by word is DATA. -/
theorem bytesOfWords_data (s : State) :
    bytesOfWords ((List.range 16).map fun m => readWord .data (4 * m) s) = s.data.toList := by
  rw [bytesOfWords_readWords]
  exact map_byteOf s.data

/-- TAG read word by word is TAG. -/
theorem bytesOfWords_tag (s : State) :
    bytesOfWords ((List.range 8).map fun m => readWord .tag (4 * m) s) = s.tag.toList := by
  rw [bytesOfWords_readWords]
  exact map_byteOf s.tag

/-! ### The same as programs of the host -/

section Programs

variable {out : Prop} {turns : Turns}

/-- Writes one after another, in two parts. -/
theorem hostWrites_append (ws ws' : List (Nat × Word)) :
    hostWrites (ws ++ ws') = andThen (hostWrites ws) fun _ => hostWrites ws' := by
  induction ws with
  | nil => rfl
  | cons p ws ih =>
    rw [List.cons_append, hostWrites, hostWrites, ih]
    funext turns w
    simp only [andThen]
    cases hostWrite p.1 p.2 turns w <;> rfl

/-- The accesses of a load as a program. -/
theorem leads_loadWords {b : Buffer} (bytes : List Byte) {s : State} (hs : s.seq = .idle) (hb : b ≠ .tag) (n : Nat)
    (hn : 4 * n ≤ bufferSize b) :
    Leads out turns (hostWrites ((List.range n).map fun m => (bufferBase b + 4 * m, byteWord bytes m))) s
      (loadWords b bytes s n) () := by
  induction n with
  | zero => exact leads_finish s ()
  | succ n ih =>
    have hidle : (loadWords b bytes s n).seq = .idle := (loadWords_field State.seq b (writeWord_seq b) bytes s n).trans hs
    rw [loadPairs_succ, hostWrites_append]
    exact (ih (by omega)).andThen (((answers_wr_word hidle hb (by omega) _).leads_wr hidle).finish fun _ => ())

/-- `wrbuf` of a string that fits, as a program. -/
theorem leads_wrbuf {b : Buffer} {bytes : List Byte} {s : State} (hs : s.seq = .idle) (hb : b ≠ .tag)
    (hfit : bytes.length ≤ bufferSize b) : Leads out turns (hostWrbuf b 0 bytes) s (loadBytes b bytes s) () :=
  leads_loadWords bytes hs hb _ (words_fit hfit)

/-- The first offset past the window's end answers a write with a bus error. -/
theorem answers_wr_outside (s : State) (v : Word) :
    Answers (wrAccess Config.winBytes v) s (.busError (Config.coreBase + Config.winBytes)) s := fun r => by
  rw [step_access _ _ [] rfl, hostAccess_busError _ _ Config.winBytes rfl (accessPlace_outside _ _ (Nat.le_refl _))]
  rfl

/-- `wrbuf` of a string that runs past MSGBUF's end stops with the bus error of the first offset outside. -/
theorem stops_wrbuf {bytes : List Byte} {s : State} (hs : s.seq = .idle) (hlong : Config.msgBufBytes < bytes.length) :
    Stops out turns (hostWrbuf .msgbuf 0 bytes) s (· = .busError (Config.coreBase + Config.winBytes)) := by
  have hmod := msgBufBytes_mod
  have hfull : 4 * (Config.msgBufBytes / 4) = Config.msgBufBytes := by omega
  obtain ⟨k, hk⟩ : ∃ k, (bytes.length + 3) / 4 = Config.msgBufBytes / 4 + (k + 1) :=
    ⟨(bytes.length + 3) / 4 - Config.msgBufBytes / 4 - 1, by omega⟩
  rw [hostWrbuf, wrbufWords_eq, hk, List.range_add, List.map_append, hostWrites_append, List.range_succ_eq_map,
    List.map_cons, List.map_cons]
  have hload : Leads out turns _ s (loadWords .msgbuf bytes s (Config.msgBufBytes / 4)) () :=
    leads_loadWords (b := .msgbuf) bytes hs (by decide) _ (Nat.le_of_eq hfull)
  have hidle : (loadWords .msgbuf bytes s (Config.msgBufBytes / 4)).seq = .idle :=
    (loadWords_field State.seq .msgbuf (writeWord_seq .msgbuf) bytes s _).trans hs
  have hoff : bufferBase .msgbuf + 4 * (Config.msgBufBytes / 4 + 0) = Config.winBytes := by
    rw [Nat.add_zero, hfull]; rfl
  refine hload.andThen_stops (Stops.andThen ?_)
  rw [hoff]
  exact (answers_wr_outside _ _).stops_wr hidle

/-- Reads that are answered with f of their offsets and change nothing, as a program. -/
theorem leads_reads {s : State} {f : Nat → Word} (hs : s.seq = .idle) (offs : List Nat)
    (h : ∀ off ∈ offs, Answers (rdAccess off) s (.value (f off)) s) :
    Leads out turns (hostReads offs) s s (offs.map f) := by
  induction offs with
  | nil => exact leads_finish s []
  | cons off offs ih =>
    exact ((h off (by simp)).leads_rd hs).andThen
      ((ih fun o ho => h o (List.mem_cons_of_mem _ ho)).finish fun ws => f off :: ws)

/-- `rdbuf` of an idle core, as a program. -/
theorem leads_rdbuf {b : Buffer} {s : State} (hs : s.seq = .idle) (k : Nat) (hk : 4 * k ≤ bufferSize b) :
    Leads out turns (hostRdbuf b 0 k) s s (bytesOfWords ((List.range k).map fun m => readWord b (4 * m) s)) := by
  have h := leads_reads (out := out) (turns := turns) hs _ (answers_rdbuf hs k hk)
  rw [rdbuf_words] at h
  exact h.finish bytesOfWords

end Programs

end Sys2Proof.Machine

/-! PROOFS. The host's sequences (spec/48_host_facade.md R134): the round keys, a block, the tag and the whole seal; and its
tag check (R128). -/

namespace Sys2Proof.Machine

open Sys2Proof.Safety

/-! ### The operand registers -/

/-- A write to an operand register leaves the core idle, ERRCODE and the buffers. -/
theorem writeReg_operand {reg : Reg} (hreg : IsOperand reg) (v : Word) (s : State) :
    writeReg reg v s = { s with iter := (writeReg reg v s).iter, msgLen := (writeReg reg v s).msgLen,
                                keyLen := (writeReg reg v s).keyLen } := by
  rcases hreg with rfl | rfl | rfl <;> rfl

/-- Two operand registers written one after the other, as a list of inputs. -/
theorem runs_operands {s : State} {p q : Reg} (hs : s.seq = .idle) (hp : IsOperand p) (hq : IsOperand q) (v w : Word) :
    Runs [wr (regOffset p) v, wr (regOffset q) w] s (writeReg q w (writeReg p v s)) [] := by
  have hidle : (writeReg p v s).seq = .idle := by rw [writeReg_operand hp]; exact hs
  exact (answers_wr_operand hs hp v).runs_wr.append (answers_wr_operand hidle hq w).runs_wr

/-- Two operand registers written one after the other, as a program. -/
theorem leads_operands {out : Prop} {turns : Turns} {s : State} {p q : Reg} (hs : s.seq = .idle) (hp : IsOperand p)
    (hq : IsOperand q) (v w : Word) :
    Leads out turns (hostWrites [(regOffset p, v), (regOffset q, w)]) s (writeReg q w (writeReg p v s)) () := by
  have hidle : (writeReg p v s).seq = .idle := by rw [writeReg_operand hp]; exact hs
  exact ((answers_wr_operand hs hp v).leads_wr hs).andThen
    (((answers_wr_operand hidle hq w).leads_wr hidle).finish fun _ => ())

/-! ### What the commands of the sequences do to the fields the host uses -/

/-- A state that is idle with the MSGBUF of a sound one is sound. -/
theorem inv_of_msgbuf {s t : State} (h : Inv s) (hm : t.msgbuf = s.msgbuf) (ht : t.seq = .idle) : Inv t :=
  inv_of_idle t (hm ▸ h.msgbufCanonical) (hm ▸ h.msgbufInside) ht

/-- KDF: MKEY is derived, MSGBUF kept (R103). -/
theorem exists_completes_kdf {s : State} (h : s.msgLen.toNat ≤ Config.msgBufBytes) : ∃ u, Completes .kdf s u ∧
    u.mkey = kdfFunction tables (kdfInput s) s.iter.toNat ∧ u.msgbuf = s.msgbuf := by
  refine ⟨_, exec_kdf (accepted .kdf s) h, ?_, ?_⟩
  · rw [complete_mkey]; rfl
  · rw [complete_msgbuf]; rfl

/-- KSCHED: RK is the schedule of MKEY, MKEY and MSGBUF kept (R108). -/
theorem exists_completes_ksched (s : State) : ∃ u, Completes .ksched s u ∧ u.mkey = s.mkey ∧
    u.rk = schedule tables s.mkey ∧ u.msgbuf = s.msgbuf :=
  ⟨_, exec_ksched (accepted .ksched s), rfl, rfl, rfl⟩

/-- What a block's or a tag's part of the sequence leaves: the keys and ERRCODE kept, the core idle. -/
structure KeysKept (s t : State) : Prop where
  idle : t.seq = .idle
  errCode : t.errCode = s.errCode
  mkey : t.mkey = s.mkey
  rk : t.rk = s.rk

/-- One part after another. -/
theorem KeysKept.trans {s t u : State} (h : KeysKept s t) (h' : KeysKept t u) : KeysKept s u :=
  ⟨h'.idle, h'.errCode.trans h.errCode, h'.mkey.trans h.mkey, h'.rk.trans h.rk⟩

/-- ENC: DATA is encrypted (R114). -/
theorem exists_completes_enc (s : State) : ∃ u, Completes .enc s u ∧ u.data = feistelEnc tables s.rk s.data ∧
    KeysKept s u ∧ u.msgbuf = s.msgbuf :=
  ⟨_, exec_enc (accepted .enc s), rfl, ⟨rfl, rfl, rfl, rfl⟩, rfl⟩

/-- TAG_GEN: TAG is the tag of what MSGBUF holds (R121). -/
theorem exists_completes_tagGen {s : State} (h : s.keyLen.toNat + s.msgLen.toNat ≤ Config.msgBufBytes) :
    ∃ u, Completes .tagGen s u ∧ u.tag = computedTag tables s ∧ KeysKept s u ∧ u.msgbuf = s.msgbuf := by
  refine ⟨_, exec_tagGen (accepted .tagGen s) h, ?_, ⟨rfl, rfl, rfl, rfl⟩, ?_⟩
  · rw [complete_tag]; rfl
  · rw [complete_msgbuf]; rfl

/-- TAG_VERIFY: TAG_MATCH is the comparison of EXPTAG with the tag of what MSGBUF holds (R122). -/
theorem exists_completes_tagVerify {s : State} (h : s.keyLen.toNat + s.msgLen.toNat ≤ Config.msgBufBytes) :
    ∃ u, Completes .tagVerify s u ∧ u.tagMatch = tagMatches (computedTag tables s) s.exptag ∧
      u.msgbuf = s.msgbuf := by
  refine ⟨_, exec_tagVerify (accepted .tagVerify s) h, ?_, ?_⟩
  · rw [complete_tagMatch]; rfl
  · rw [complete_msgbuf]; rfl

/-! ### The round keys -/

/-- A length of less than 2^32 is what the register it is written to holds. -/
theorem toNat_ofNat_of_lt {n : Nat} (h : n < 2 ^ 32) : (BitVec.ofNat 32 n).toNat = n := by
  rw [BitVec.toNat_ofNat, Nat.mod_eq_of_lt h]

/-- The core with KDF's operands in place (step 1 of R134). -/
def kdfReady (bytes : List Byte) (s : State) : State :=
  { loadBytes .msgbuf bytes s with msgLen := BitVec.ofNat 32 bytes.length, iter := BitVec.ofNat 32 iterDefault }

/-- Such a core is idle and sound, with ERRCODE as before. -/
theorem kdfReady_sound {bytes : List Byte} {s : State} (hinv : Inv s) (hs : s.seq = .idle)
    (hfit : bytes.length ≤ Config.msgBufBytes) : Inv (kdfReady bytes s) ∧ (kdfReady bytes s).seq = .idle ∧
    (kdfReady bytes s).errCode = s.errCode := by
  have hload : Inv (loadBytes .msgbuf bytes s) := loadBytes_inv (b := .msgbuf) hinv hs hfit
  obtain ⟨hidle, herr⟩ := loadBytes_idle_errCode (b := .msgbuf) (bytes := bytes) hs
  exact ⟨inv_of_msgbuf hload rfl hidle, hidle, herr⟩

/-- The input of KDF is what was loaded. -/
theorem kdfInput_kdfReady {bytes : List Byte} {s : State} (h : Memory.wf s.msgbuf)
    (hfit : bytes.length ≤ Config.msgBufBytes) (h32 : bytes.length < 2 ^ 32) : kdfInput (kdfReady bytes s) = bytes := by
  have hslice := msgSlice_of_bytes (s := kdfReady bytes s) 0 bytes.length (by omega)
    (readByte_loadBytes (b := .msgbuf) h hfit)
  rw [List.drop_zero, List.take_length] at hslice
  rw [kdfInput, show (kdfReady bytes s).msgLen.toNat = bytes.length from toNat_ofNat_of_lt h32, hslice]

/-- KDF and then KSCHED, from KDF's operands in place: MKEY and RK as the façade computes them (R126), the core sound. -/
theorem exists_completes_keySetup {bytes : List Byte} {s : State} (hinv : Inv s) (hs : s.seq = .idle)
    (hfit : bytes.length ≤ Config.msgBufBytes) (h32 : bytes.length < 2 ^ 32) :
    ∃ u t, Completes .kdf (kdfReady bytes s) u ∧ Completes .ksched u t ∧ Inv t ∧
      t.mkey = kdfFunction tables bytes iterDefault ∧
      t.rk = schedule tables (kdfFunction tables bytes iterDefault) := by
  obtain ⟨hready, -, -⟩ := kdfReady_sound hinv hs hfit
  have hlen : (kdfReady bytes s).msgLen.toNat = bytes.length := toNat_ofNat_of_lt h32
  have hiter : (kdfReady bytes s).iter.toNat = iterDefault := toNat_ofNat_of_lt (by decide)
  obtain ⟨u, hu, hmkey, hmsg⟩ := exists_completes_kdf (hlen.le.trans hfit)
  obtain ⟨t, ht, hmkey', hrk, hmsg'⟩ := exists_completes_ksched u
  rw [kdfInput_kdfReady hinv.msgbufCanonical hfit h32, hiter] at hmkey
  rw [hmkey] at hmkey' hrk
  exact ⟨u, t, hu, ht, inv_of_msgbuf hready (hmsg'.trans hmsg) ht.idle_errCode.1, hmkey', hrk⟩

/-- Settles O59: the operands are loaded, KDF derives MKEY from them, and KSCHED expands it. -/
theorem hostSequenceDerivesTheRoundKeys : Obligations.HostSequenceDerivesTheRoundKeys := by
  intro s pw salt kdfPolls ksPolls hinv hs hfit h32
  obtain ⟨-, hidle, herr⟩ := kdfReady_sound hinv hs hfit
  obtain ⟨u, t, hkdf, hksched, htinv, hmkey, hrk⟩ := exists_completes_keySetup hinv hs hfit h32
  have hregs : Runs ((kdfRegisters pw salt).map fun p => wr p.1 p.2) (loadBytes .msgbuf (utf8 pw ++ salt) s)
      (kdfReady (utf8 pw ++ salt) s) [] :=
    runs_operands (loadBytes_idle_errCode hs).1 (.inr (.inl rfl)) (.inl rfl) _ _
  have hrun := (((runs_wrbuf (b := .msgbuf) hs (by decide) hfit).append hregs).append
    (hkdf.runs hidle kdfPolls)).append (hksched.runs hkdf.idle_errCode.1 ksPolls)
  obtain ⟨ys, q, hnext, -⟩ := hrun s.inputs s.response
  exact ⟨_, hnext, hksched.idle_errCode.1, inv_withBus htinv ys q,
    hksched.idle_errCode.2.trans (hkdf.idle_errCode.2.trans herr), hmkey, hrk⟩

/-! ### One block -/

/-- A block loaded and encrypted under the round keys in RK (step 3 of R134). -/
theorem exists_completes_block {s : State} (hinv : Inv s) (hs : s.seq = .idle) (q : Block) :
    ∃ u, Completes .enc (loadBytes .data q.toList s) u ∧ u.data = feistelEnc tables s.rk q ∧ KeysKept s u ∧
      u.msgbuf = s.msgbuf := by
  obtain ⟨u, hu, hdata, hkept, hmsg⟩ := exists_completes_enc (loadBytes .data q.toList s)
  obtain ⟨hidle, herr⟩ := loadBytes_idle_errCode (b := .data) (bytes := q.toList) hs
  have hload : KeysKept s (loadBytes .data q.toList s) :=
    ⟨hidle, herr, loadBytes_mkey (by decide) _ _, loadBytes_rk (by decide) _ _⟩
  rw [loadBytes_data q s hinv.msgbufCanonical, hload.rk] at hdata
  exact ⟨u, hu, hdata, hload.trans hkept, hmsg.trans (loadBytes_msgbuf (by decide) q.toList s)⟩

/-- A block fills DATA. -/
theorem block_fits (q : Block) : q.toList.length ≤ bufferSize .data := by
  rw [Vector.length_toList]
  exact Nat.le_refl 64

/-- Settles O58: the block is loaded, ENC encrypts it, and the words read back are DATA's bytes. -/
theorem hostSequenceEncryptsABlock : Obligations.HostSequenceEncryptsABlock := by
  intro s q polls hinv hs
  obtain ⟨u, hu, hdata, hkept, hmsg⟩ := exists_completes_block hinv hs q
  have hrun := ((runs_wrbuf hs (by decide) (block_fits q)).append (hu.runs (loadBytes_idle_errCode hs).1 polls)).append
    (runs_rdbuf (b := .data) hkept.idle 16 (Nat.le_refl 64))
  obtain ⟨ys, r, hnext, hread⟩ := hrun s.inputs s.response
  rw [withBus_self] at hread
  refine ⟨⟨_, hnext, hdata, hkept.rk, hkept.mkey, hmsg, hkept.errCode, hkept.idle⟩, ?_⟩
  rw [show encryptBlock q polls = wrbuf .data 0 q.toList ++ runCommand .enc polls ++ rdbuf .data 0 16 from rfl, hread,
    List.drop_left' (by simp), bytesOfWords_data, hdata]

/-! ### The tag -/

/-- The core with a tag's operands in place: the key and the data in MSGBUF, and the two lengths (R120, R134). -/
def tagReady (key data : List Byte) (s : State) : State :=
  { loadBytes .msgbuf (key ++ data) s with keyLen := BitVec.ofNat 32 key.length, msgLen := BitVec.ofNat 32 data.length }

section Tag

variable {key data : List Byte} {s : State}

/-- Such a core is sound, and the keys are as before. -/
theorem tagReady_sound (hinv : Inv s) (hs : s.seq = .idle) (hfit : (key ++ data).length ≤ Config.msgBufBytes) :
    Inv (tagReady key data s) ∧ KeysKept s (tagReady key data s) := by
  have hload : Inv (loadBytes .msgbuf (key ++ data) s) := loadBytes_inv (b := .msgbuf) hinv hs hfit
  obtain ⟨hidle, herr⟩ := loadBytes_idle_errCode (b := .msgbuf) (bytes := key ++ data) hs
  exact ⟨inv_of_msgbuf hload rfl hidle, hidle, herr, loadBytes_mkey (by decide) (key ++ data) s,
    loadBytes_rk (by decide) (key ++ data) s⟩

/-- The tag of what MSGBUF holds is the tag of the data under the key. -/
theorem computedTag_tagReady (T : Tables) (h : Memory.wf s.msgbuf) (hfit : (key ++ data).length ≤ Config.msgBufBytes)
    (hkey : key.length < 2 ^ 32) (hdata : data.length < 2 ^ 32) :
    computedTag T (tagReady key data s) = tagFunction T data key := by
  have hbytes := readByte_loadBytes (b := .msgbuf) h hfit
  have hlen : (key ++ data).length = key.length + data.length := List.length_append
  have hkeySlice := msgSlice_of_bytes (s := tagReady key data s) 0 key.length (by omega) hbytes
  have hdataSlice := msgSlice_of_bytes (s := tagReady key data s) key.length data.length (by omega) hbytes
  rw [List.drop_zero, List.take_left] at hkeySlice
  rw [List.drop_left, List.take_length] at hdataSlice
  rw [computedTag, tagData, tagKey, show (tagReady key data s).keyLen.toNat = key.length from toNat_ofNat_of_lt hkey,
    show (tagReady key data s).msgLen.toNat = data.length from toNat_ofNat_of_lt hdata, hkeySlice, hdataSlice]

/-- The lengths of a tag's operands fit where the operands do. -/
theorem tagReady_lengths (hfit : (key ++ data).length ≤ Config.msgBufBytes) (hkey : key.length < 2 ^ 32)
    (hdata : data.length < 2 ^ 32) :
    (tagReady key data s).keyLen.toNat + (tagReady key data s).msgLen.toNat ≤ Config.msgBufBytes := by
  rw [show (tagReady key data s).keyLen.toNat = key.length from toNat_ofNat_of_lt hkey,
    show (tagReady key data s).msgLen.toNat = data.length from toNat_ofNat_of_lt hdata]
  rwa [List.length_append] at hfit

/-- TAG_GEN from its operands in place. -/
theorem exists_completes_tag (hinv : Inv s) (hs : s.seq = .idle) (hfit : (key ++ data).length ≤ Config.msgBufBytes)
    (hkey : key.length < 2 ^ 32) (hdata : data.length < 2 ^ 32) :
    ∃ u, Completes .tagGen (tagReady key data s) u ∧ u.tag = tagFunction tables data key ∧ KeysKept s u := by
  obtain ⟨u, hu, htag, hkept, -⟩ := exists_completes_tagGen (tagReady_lengths (s := s) hfit hkey hdata)
  rw [computedTag_tagReady tables hinv.msgbufCanonical hfit hkey hdata] at htag
  exact ⟨u, hu, htag, (tagReady_sound hinv hs hfit).2.trans hkept⟩

end Tag

/-- Settles O60: the operands are loaded, TAG_GEN computes their tag, and the words read back are TAG's bytes. -/
theorem hostSequenceComputesTheTag : Obligations.HostSequenceComputesTheTag := by
  intro s salt signed polls hinv hs hfit h32
  have hsalt : salt.toList.length = 32 := Vector.length_toList
  have hfit' : (salt.toList ++ signed).length ≤ Config.msgBufBytes := by rw [List.length_append, hsalt]; exact hfit
  obtain ⟨u, hu, htag, hkept⟩ := exists_completes_tag hinv hs hfit' (by omega) h32
  have hregs : Runs ((tagRegisters 32 signed.length).map fun p => wr p.1 p.2)
      (loadBytes .msgbuf (salt.toList ++ signed) s) (tagReady salt.toList signed s) [] := by
    have hlengths : tagRegisters 32 signed.length = tagRegisters salt.toList.length signed.length := by rw [hsalt]
    rw [hlengths]
    exact runs_operands (loadBytes_idle_errCode hs).1 (.inr (.inr rfl)) (.inr (.inl rfl)) _ _
  have hrun := (((runs_wrbuf (b := .msgbuf) hs (by decide) hfit').append hregs).append
    (hu.runs (tagReady_sound hinv hs hfit').2.idle polls)).append
    (runs_rdbuf (b := .tag) hkept.idle 8 (Nat.le_refl 32))
  obtain ⟨ys, r, hnext, hread⟩ := hrun s.inputs s.response
  rw [withBus_self] at hread
  refine ⟨⟨_, hnext, htag, hkept.rk, hkept.mkey, hkept.errCode, hkept.idle⟩, ?_⟩
  rw [tagSequence, hread, List.drop_left' (by simp), bytesOfWords_tag, htag]

end Sys2Proof.Machine

/-! PROOFS. The host's programs on the core (spec/48_host_facade.md R128, R134): encryptMessage, seal and verifyTag, with
the stops at a set STATUS.ERR and past MSGBUF's end. -/

namespace Sys2Proof.Machine

open Sys2Proof.Safety

section Programs

variable {α : Type} {turns : Turns} {fuel : Nat}

/-! ### How a program's stop is told -/

/-- A program that stops without a wait stops with the reason. -/
theorem Stops.eq_error {p : HostProgram α} {s : State} {e : HostStop} (h : Stops False turns p s (· = e)) (n : Nat) :
    p turns ⟨s, n⟩ = .error e := by
  obtain ⟨e', hp, rfl | ⟨-, hout⟩⟩ := h s.inputs s.response n
  · exact hp
  · exact hout.elim

/-- A program that stops at a reason or for want of fuel. -/
theorem Stops.eq_error_or {out : Prop} {p : HostProgram α} {s : State} {e : HostStop} (h : Stops out turns p s (· = e))
    (n : Nat) : p turns ⟨s, n⟩ = .error e ∨ (p turns ⟨s, n⟩ = .error .outOfFuel ∧ out) := by
  obtain ⟨e', hp, rfl | ⟨rfl, hout⟩⟩ := h s.inputs s.response n
  · exact .inl hp
  · exact .inr ⟨hp, hout⟩

/-- A program that stops at its check of STATUS.ERR. -/
theorem Stops.endsInError {p : HostProgram α} {s : State} (h : Stops (¬ PromptTurns fuel turns) turns p s
    (fun e => ∃ status, e = .statusErr status ∧ status.getLsbD 1 = true)) (n : Nat) :
    EndsInError fuel turns (p turns ⟨s, n⟩) := by
  obtain ⟨e, hp, ⟨status, rfl, hbit⟩ | ⟨rfl, hout⟩⟩ := h s.inputs s.response n
  · exact (congrArg (EndsInError fuel turns) hp).mpr hbit
  · exact (congrArg (EndsInError fuel turns) hp).mpr hout

/-! ### encryptMessage -/

/-- The operands of KDF in place (step 1 of R134), as a program. -/
theorem leads_kdfRegisters {out : Prop} {s : State} (hs : s.seq = .idle) (pw : String) (salt : List Byte) :
    Leads out turns (hostWrites (kdfRegisters pw salt)) (loadBytes .msgbuf (utf8 pw ++ salt) s)
      (kdfReady (utf8 pw ++ salt) s) () :=
  leads_operands (loadBytes_idle_errCode hs).1 (.inr (.inl rfl)) (.inl rfl) _ _

/-- The round keys, where no error is recorded. -/
theorem leads_hostKeySetup {s : State} {pw : String} {salt : List Byte} (hinv : Inv s) (hs : s.seq = .idle)
    (herr : s.errCode = .none) (hfit : (utf8 pw ++ salt).length ≤ Config.msgBufBytes)
    (h32 : (utf8 pw ++ salt).length < 2 ^ 32) :
    ∃ t, Leads (¬ PromptTurns fuel turns) turns (hostKeySetup fuel pw salt) s t () ∧ Inv t ∧ t.seq = .idle ∧
      t.errCode = .none ∧ t.mkey = kdfFunction tables (utf8 pw ++ salt) iterDefault ∧
      t.rk = messageKeys tables pw salt := by
  obtain ⟨-, hidle, hready⟩ := kdfReady_sound hinv hs hfit
  obtain ⟨u, t, hkdf, hksched, htinv, hmkey, hrk⟩ := exists_completes_keySetup hinv hs hfit h32
  have huerr : u.errCode = .none := hkdf.idle_errCode.2.trans (hready.trans herr)
  refine ⟨t, ?_, htinv, hksched.idle_errCode.1, hksched.idle_errCode.2.trans huerr, hmkey, hrk⟩
  exact (leads_wrbuf (b := .msgbuf) hs (by decide) hfit).andThen ((leads_kdfRegisters hs pw salt).andThen
    ((hkdf.leads_checked hidle (hready.trans herr) fuel).andThen
      (hksched.leads_checked hkdf.idle_errCode.1 huerr fuel)))

/-- The round keys, where an error is recorded: the check after KDF fails. -/
theorem stops_hostKeySetup {s : State} {pw : String} {salt : List Byte} (hinv : Inv s) (hs : s.seq = .idle)
    (herr : s.errCode ≠ .none) (hfit : (utf8 pw ++ salt).length ≤ Config.msgBufBytes)
    (h32 : (utf8 pw ++ salt).length < 2 ^ 32) :
    Stops (¬ PromptTurns fuel turns) turns (hostKeySetup fuel pw salt) s
      (fun e => ∃ status, e = .statusErr status ∧ status.getLsbD 1 = true) := by
  obtain ⟨-, hidle, hready⟩ := kdfReady_sound hinv hs hfit
  obtain ⟨u, -, hkdf, -⟩ := exists_completes_keySetup hinv hs hfit h32
  exact (leads_wrbuf (b := .msgbuf) hs (by decide) hfit).andThen_stops ((leads_kdfRegisters hs pw salt).andThen_stops
    (hkdf.stops_checked hidle (hready ▸ herr) fuel).andThen)

/-- One block: the result is the block encrypted under RK. -/
theorem leads_hostEncryptBlock {s : State} (hinv : Inv s) (hs : s.seq = .idle) (herr : s.errCode = .none) (q : Block) :
    ∃ t, Leads (¬ PromptTurns fuel turns) turns (hostEncryptBlock fuel q) s t (feistelEnc tables s.rk q).toList ∧
      KeysKept s t ∧ Inv t := by
  obtain ⟨u, hu, hdata, hkept, hmsg⟩ := exists_completes_block hinv hs q
  obtain ⟨hidle, hload⟩ := loadBytes_idle_errCode (b := .data) (bytes := q.toList) hs
  refine ⟨u, ?_, hkept, inv_of_msgbuf hinv hmsg hkept.idle⟩
  rw [← hdata, ← bytesOfWords_data]
  exact (leads_wrbuf hs (by decide) (block_fits q)).andThen ((hu.leads_checked hidle (hload.trans herr) fuel).andThen
    (leads_rdbuf (b := .data) hkept.idle 16 (Nat.le_refl 64)))

/-- Block after block: the results one after another, all under the same RK. -/
theorem leads_hostEncryptBlocks {s : State} (hinv : Inv s) (hs : s.seq = .idle) (herr : s.errCode = .none)
    (qs : List Block) :
    ∃ t, Leads (¬ PromptTurns fuel turns) turns (hostEncryptBlocks fuel qs) s t
        (qs.flatMap fun q => (feistelEnc tables s.rk q).toList) ∧ KeysKept s t ∧ Inv t := by
  induction qs generalizing s with
  | nil => exact ⟨s, leads_finish s [], ⟨hs, rfl, rfl, rfl⟩, hinv⟩
  | cons q qs ih =>
    obtain ⟨t, hblock, hkept, htinv⟩ := leads_hostEncryptBlock (turns := turns) (fuel := fuel) hinv hs herr q
    obtain ⟨u, hrest, hkept', huinv⟩ := ih htinv hkept.idle (hkept.errCode.trans herr)
    rw [hkept.rk] at hrest
    exact ⟨u, hblock.andThen (hrest.finish fun cs => (feistelEnc tables s.rk q).toList ++ cs), hkept.trans hkept', huinv⟩

/-- The whole sequence of one encryptMessage, where no error is recorded. -/
theorem leads_hostEncryptMessage {s : State} {pw : String} {salt : List Byte} (m : List Byte) (hinv : Inv s)
    (hs : s.seq = .idle) (herr : s.errCode = .none) (hfit : (utf8 pw ++ salt).length ≤ Config.msgBufBytes)
    (h32 : (utf8 pw ++ salt).length < 2 ^ 32) :
    ∃ t, Leads (¬ PromptTurns fuel turns) turns (hostEncryptMessage fuel m pw salt) s t
        (encryptMessage tables m pw salt) ∧ Inv t ∧ t.seq = .idle ∧ t.errCode = .none ∧
      t.mkey = kdfFunction tables (utf8 pw ++ salt) iterDefault ∧ t.rk = messageKeys tables pw salt := by
  obtain ⟨t, hkeys, htinv, hidle, hterr, hmkey, hrk⟩ :=
    leads_hostKeySetup (turns := turns) (fuel := fuel) hinv hs herr hfit h32
  obtain ⟨u, hblocks, hkept, huinv⟩ :=
    leads_hostEncryptBlocks (turns := turns) (fuel := fuel) htinv hidle hterr (blocksOf (addPadding m))
  rw [hrk] at hblocks
  exact ⟨u, hkeys.andThen hblocks, huinv, hkept.idle, hkept.errCode.trans hterr, hkept.mkey.trans hmkey,
    hkept.rk.trans hrk⟩

/-! ### The tag and the seal -/

/-- A tag's operands in place (R134, R128), as a program. -/
theorem leads_tagRegisters {out : Prop} {s : State} (hs : s.seq = .idle) (key data : List Byte) :
    Leads out turns (hostWrites (tagRegisters key.length data.length)) (loadBytes .msgbuf (key ++ data) s)
      (tagReady key data s) () :=
  leads_operands (loadBytes_idle_errCode hs).1 (.inr (.inr rfl)) (.inr (.inl rfl)) _ _

/-- The tag part: the result is the tag of the signed bytes under the salt. -/
theorem leads_hostTag {s : State} {salt : Half} {signed : List Byte} (hinv : Inv s) (hs : s.seq = .idle)
    (herr : s.errCode = .none) (hfit : 32 + signed.length ≤ Config.msgBufBytes) (h32 : signed.length < 2 ^ 32) :
    ∃ t, Leads (¬ PromptTurns fuel turns) turns (hostTag fuel salt signed) s t
      (tagFunction tables signed salt.toList).toList := by
  have hsalt : salt.toList.length = 32 := Vector.length_toList
  have hfit' : (salt.toList ++ signed).length ≤ Config.msgBufBytes := by rw [List.length_append, hsalt]; exact hfit
  have hregs := leads_tagRegisters (out := ¬ PromptTurns fuel turns) (turns := turns) hs salt.toList signed
  rw [hsalt] at hregs
  obtain ⟨-, hready⟩ := tagReady_sound hinv hs hfit'
  obtain ⟨u, hu, htag, hkept⟩ := exists_completes_tag hinv hs hfit' (by omega) h32
  refine ⟨u, ?_⟩
  rw [← htag, ← bytesOfWords_tag]
  exact (leads_wrbuf (b := .msgbuf) hs (by decide) hfit').andThen (hregs.andThen
    ((hu.leads_checked hready.idle (hready.errCode.trans herr) fuel).andThen
      (leads_rdbuf (b := .tag) hkept.idle 8 (Nat.le_refl 32))))

/-- The signed bytes of an envelope are 37 more than the ciphertext. -/
theorem length_signed (salt : Half) (c : List Byte) : (envelopeMark ++ salt.toList ++ c).length = 37 + c.length := by
  rw [List.length_append, List.length_append, Vector.length_toList, show envelopeMark.length = 5 from rfl]

/-- The seal, where all of it fits. -/
theorem leads_hostSeal {s : State} {m : List Byte} {pw : String} {salt : Half} (hinv : Inv s) (hs : s.seq = .idle)
    (herr : s.errCode = .none) (hfit : (utf8 pw ++ salt.toList).length ≤ Config.msgBufBytes)
    (h32 : (utf8 pw ++ salt.toList).length < 2 ^ 32)
    (hsize : 69 + (encryptMessage tables m pw salt.toList).length ≤ Config.msgBufBytes)
    (hsize32 : 69 + (encryptMessage tables m pw salt.toList).length < 2 ^ 32) :
    ∃ t, Leads (¬ PromptTurns fuel turns) turns (hostSeal fuel m pw salt) s t (sealMessage tables m pw salt) := by
  obtain ⟨t, hmsg, htinv, hidle, hterr, -⟩ :=
    leads_hostEncryptMessage (turns := turns) (fuel := fuel) m hinv hs herr hfit h32
  have hlen := length_signed salt (encryptMessage tables m pw salt.toList)
  obtain ⟨u, htag⟩ := leads_hostTag (turns := turns) (fuel := fuel) (salt := salt) htinv hidle hterr
    (signed := envelopeMark ++ salt.toList ++ encryptMessage tables m pw salt.toList) (by omega) (by omega)
  exact ⟨u, hmsg.andThen (htag.finish fun t => envelopeMark ++ salt.toList ++ t ++ encryptMessage tables m pw salt.toList)⟩

/-- The seal, where the signed bytes run past MSGBUF's end: the load of the tag part stops it. -/
theorem stops_hostSeal {s : State} {m : List Byte} {pw : String} {salt : Half} (hinv : Inv s) (hs : s.seq = .idle)
    (herr : s.errCode = .none) (hfit : (utf8 pw ++ salt.toList).length ≤ Config.msgBufBytes)
    (h32 : (utf8 pw ++ salt.toList).length < 2 ^ 32)
    (hsize : Config.msgBufBytes < 69 + (encryptMessage tables m pw salt.toList).length) :
    Stops (¬ PromptTurns fuel turns) turns (hostSeal fuel m pw salt) s
      (· = .busError (Config.coreBase + Config.winBytes)) := by
  obtain ⟨t, hmsg, -, hidle, -⟩ :=
    leads_hostEncryptMessage (turns := turns) (fuel := fuel) m hinv hs herr hfit h32
  have hlen := length_signed salt (encryptMessage tables m pw salt.toList)
  have hlong : Config.msgBufBytes <
      (salt.toList ++ (envelopeMark ++ salt.toList ++ encryptMessage tables m pw salt.toList)).length := by
    rw [List.length_append, Vector.length_toList]; omega
  exact hmsg.andThen_stops (stops_wrbuf hidle hlong).andThen.andThen

/-- The tag check on the core, where the operands fit: the result is the façade's, and ERRCODE is kept. -/
theorem leads_hostVerifyTag {s : State} {data t key : List Byte} (hinv : Inv s) (hs : s.seq = .idle)
    (ht : t.length = 32) (hfit : (key ++ data).length ≤ Config.msgBufBytes) (hkey : key.length < 2 ^ 32)
    (hdata : data.length < 2 ^ 32) :
    ∃ u, Leads (¬ PromptTurns fuel turns) turns (hostVerifyTag fuel data t key) s u (verifyTag tables data t key) ∧
      Inv u ∧ u.seq = .idle ∧ u.errCode = s.errCode := by
  have hexp : t.length ≤ bufferSize .exptag := Nat.le_of_eq ht
  obtain ⟨hidle, herr⟩ := loadBytes_idle_errCode (b := .exptag) (bytes := t) hs
  have hload : Inv (loadBytes .exptag t s) := loadBytes_inv hinv hs hexp
  obtain ⟨hready, hkept⟩ := tagReady_sound hload hidle hfit
  obtain ⟨u, hu, hmatch, hmsg⟩ :=
    exists_completes_tagVerify (tagReady_lengths (s := loadBytes .exptag t s) hfit hkey hdata)
  have hexptag : (tagReady key data (loadBytes .exptag t s)).exptag = Vector.ofFn fun i : Fin 32 => t.getD i.val 0 :=
    (loadBytes_exptag_of_ne (b := .msgbuf) (by decide) (key ++ data) _).trans
      (loadBytes_exptag t ht s hinv.msgbufCanonical)
  have hanswer : (statusWord u).getLsbD 8 = verifyTag tables data t key := by
    rw [(statusWord_bits u).2.2, hmatch, hexptag, computedTag_tagReady tables hload.msgbufCanonical hfit hkey hdata,
      verifyTag, if_neg (not_not.2 ht)]
  refine ⟨u, ?_, inv_of_msgbuf hready hmsg hu.idle_errCode.1, hu.idle_errCode.1,
    hu.idle_errCode.2.trans (hkept.errCode.trans herr)⟩
  rw [hostVerifyTag, if_neg (not_not.2 ht), ← hanswer]
  exact (leads_wrbuf hs (by decide) hexp).andThen ((leads_wrbuf (b := .msgbuf) hidle (by decide) hfit).andThen
    ((leads_tagRegisters hidle key data).andThen ((hu.leads hkept.idle fuel).andThen
      (((answers_rd_status u).leads_rd hu.idle_errCode.1).finish fun status => status.getLsbD 8))))

/-- The tag check on the core, where the operands run past MSGBUF's end. -/
theorem stops_hostVerifyTag {out : Prop} {s : State} {data t key : List Byte} (hs : s.seq = .idle) (ht : t.length = 32)
    (hlong : Config.msgBufBytes < (key ++ data).length) :
    Stops out turns (hostVerifyTag fuel data t key) s (· = .busError (Config.coreBase + Config.winBytes)) := by
  rw [hostVerifyTag, if_neg (not_not.2 ht)]
  exact (leads_wrbuf (b := .exptag) hs (by decide) (Nat.le_of_eq ht)).andThen_stops
    (stops_wrbuf (loadBytes_idle_errCode hs).1 hlong).andThen

end Programs

/-- Settles O45: the parts of the sequence one after another; an error recorded before it fails the check after KDF, and the
first word past MSGBUF's end stops the load it belongs to. -/
theorem hostSealsAMessageOnTheCore : Obligations.HostSealsAMessageOnTheCore := by
  intro s m pw fuel n turns hinv hs
  refine ⟨fun salt hfit h32 => ⟨fun herr => ?_, fun herr => ?_⟩, fun salt hlong => ?_,
    fun salt herr hfit h32 => ⟨fun hsize hsize32 => ?_, fun hsize => ?_⟩⟩
  · obtain ⟨t, hmsg, htinv, hidle, hterr, hmkey, hrk⟩ :=
      leads_hostEncryptMessage (turns := turns) (fuel := fuel) m hinv hs herr hfit h32
    exact hmsg.endsWith (fun xs r _ => ⟨rfl, inv_withBus htinv xs r, hidle, hterr, hmkey, hrk⟩) n
  · exact (stops_hostKeySetup hinv hs herr hfit h32).andThen.endsInError n
  · exact (stops_wrbuf hs hlong).andThen.andThen.eq_error n
  · obtain ⟨t, hseal⟩ := leads_hostSeal (turns := turns) (fuel := fuel) hinv hs herr hfit h32 hsize hsize32
    exact hseal.endsWith (fun _ _ _ => rfl) n
  · exact (stops_hostSeal hinv hs herr hfit h32 hsize).eq_error_or n

/-- Settles O48: TAG_VERIFY compares EXPTAG, which holds t, with the tag of what MSGBUF holds, and STATUS shows the
result. -/
theorem hostVerifiesATagOnTheCore : Obligations.HostVerifiesATagOnTheCore := by
  intro s data t key fuel n turns hinv hs
  have hlen : (key ++ data).length = key.length + data.length := List.length_append
  refine ⟨fun ht => ?_, fun ht hfit hkey hdata => ?_, fun ht hlong => ?_⟩
  · rw [hostVerifyTag, if_pos ht]
    rfl
  · obtain ⟨u, hverify, huinv, hidle, herr⟩ :=
      leads_hostVerifyTag (turns := turns) (fuel := fuel) hinv hs ht (hlen ▸ hfit) hkey hdata
    exact hverify.endsWith (fun xs r _ => ⟨rfl, inv_withBus huinv xs r, hidle, herr⟩) n
  · exact (stops_hostVerifyTag hs ht (hlen ▸ hlong)).eq_error n

end Sys2Proof.Machine
